-- ==== Sys2Proof/Word.lean ====
section
/-! DEFINITION. The word of the machine: 32 bits, read as a two's complement signed integer (spec 00_scope R8). -/

namespace Sys2Proof

/-- A word: a register, a memory word or an instruction field (R8, R30, R70, R100).  UNVERIFIED width (log 14). -/
abbrev Word := BitVec 32

/-- A byte: the quarter of a word in which the memory list is kept (log 3). -/
abbrev Byte := BitVec 8

/-- `wrap(v)`: the unique word congruent to the integer `v` modulo 2^32 (R8). -/
def wrap (v : Int) : Word := BitVec.ofInt 32 v

/-- The signed integer a word stands for (R8). -/
def signed (w : Word) : Int := w.toInt

end Sys2Proof
end

