-- ==== Sys2Proof/Config.lean ====
section
/-! DEFINITION. What the spec leaves as parameters (00_scope R6) and the free values nothing constrains (93 I2, I9, I10). -/

namespace Sys2Proof.Config

/-- `INSTRSIZE`: words of one instruction (R6, R100). -/
def instrSize : Nat := 4
/-- `FIRST_PID` (R6, R43). -/
def firstPid : Nat := 1001
/-- `LOAD_START` (R6, R43). -/
def loadStart : Nat := 0
/-- `INSTR_TICKS` (R6, R130). -/
def instrTicks : Nat := 1
/-- `STARVE_BONUS` (R6, R261). -/
def starveBonus : Nat := 200
/-- `SUCCESS` (R6, R212). -/
def success : Word := 0

/-- The parameters fixed when the machine is constructed (R6): they stand in State, no step changes them, and a
statement about every state is a statement about every value of them (log 4). -/
structure Params where
  /-- `MEM_SIZE`: number of words of memory. -/
  memSize : Nat
  /-- `SAVE_LOAD_TIME`: ticks of one save and of one restore. -/
  saveLoadTime : Nat
  /-- `IDLE_PID`: the reserved id of the idle process. -/
  idlePid : Nat
  /-- `E_OPEN`. -/
  eOpen : Word
  /-- `E_CLOSE`. -/
  eClose : Word
  /-- `E_READ`. -/
  eRead : Word
  /-- `E_WRITE`. -/
  eWrite : Word
  deriving DecidableEq, Repr

/-- The values the reset state is given.  DESIGN CHOICE (log 4): the spec's defaults, and for `MEM_SIZE`, for which it
takes none, the size its test vectors use. -/
def Params.defaults : Params :=
  { memSize := 1024, saveLoadTime := 30, idlePid := 999, eOpen := -1, eClose := -2, eRead := -3, eWrite := -4 }

/-- The draws of the spec (R0–R4 of a new process, R254; EXEC's choice, R219) once `State.draws` is used up: the `n`-th one.
A free value: no body, nothing can evaluate it (log 6). -/
opaque freeDraw : Nat → Nat

/-- The host's `isAvailable` answers (R290) once `State.answers` is used up: the `n`-th one.  A free value (log 6). -/
opaque freeAnswer : Nat → Bool

end Sys2Proof.Config
end

