-- ==== Sys2Proof/Syntax.lean ====
section
/-! DEFINITION. The instruction set: registers, the four-word tuple, the fourteen instructions, the assembler line (spec 30_encoding
R100–R105, R110). -/

namespace Sys2Proof

/-- The nine register slots (R30), in the order of their index numbers (R31). -/
inductive Reg where
  | r0 | r1 | r2 | r3 | r4 | pc | sp | base | lim
  deriving DecidableEq, Repr

/-- The four words of one instruction, `[opcode, arg1, arg2, arg3]` (R100). -/
structure Tuple where
  w0 : Word
  w1 : Word
  w2 : Word
  w3 : Word
  deriving DecidableEq, Repr

/-- The instructions, one constructor per row of the opcode table (R102), with the operands the row uses; ignored words
have no effect (R105) and are not part of the instruction.  A register operand is a register: an index outside 0..8 is an
illegal instruction at decode (R104) and never reaches the machine. -/
inductive Instr where
  /-- `x[d] <- k` (R150). -/
  | set (d : Reg) (k : Word)
  /-- `x[d] <- wrap(x[s1] + x[s2])` (R151). -/
  | add (d s1 s2 : Reg)
  /-- `x[d] <- wrap(x[s1] - x[s2])` (R152). -/
  | sub (d s1 s2 : Reg)
  /-- `x[d] <- wrap(x[s1] * x[s2])` (R153). -/
  | mul (d s1 s2 : Reg)
  /-- Quotient toward zero, or the divide-by-zero fault (R154). -/
  | div (d s1 s2 : Reg)
  /-- `x[d] <- x[s]` (R155). -/
  | copy (d s : Reg)
  /-- Branch to logical target `k` (R170). -/
  | branch (k : Word)
  /-- Branch if not equal (R171). -/
  | bne (s1 s2 : Reg) (k : Word)
  /-- Branch if less, signed (R172). -/
  | blt (s1 s2 : Reg) (k : Word)
  /-- Pop into `d` (R191). -/
  | pop (d : Reg)
  /-- Push `s` (R190). -/
  | push (s : Reg)
  /-- Load `d` from logical address `x[o]` (R192). -/
  | load (d o : Reg)
  /-- Store `s` at logical address `x[o]` (R193). -/
  | save (s o : Reg)
  /-- System call (R210). -/
  | trap
  deriving DecidableEq, Repr

/-- How an opcode uses an argument word (R101): a register index, a value used as is, a logical target, or not at all. -/
inductive FieldKind where
  | reg | imm | tgt | ign
  deriving DecidableEq, Repr

/-- The fourteen mnemonics (R102). -/
inductive Mnemonic where
  | set | add | sub | mul | div | copy | branch | bne | blt | pop | push | load | save | trap
  deriving DecidableEq, Repr

/-- A field of an assembler line (R110): a register name or a signed decimal integer. -/
inductive AsmField where
  | name (r : Reg)
  | int (v : Int)
  deriving DecidableEq, Repr

/-- An assembler line, `MNEMONIC f1,f2,f3` with trailing fields possibly omitted (R110). -/
structure AsmLine where
  mnemonic : Mnemonic
  fields : List AsmField
  deriving DecidableEq, Repr

end Sys2Proof
end

