-- ==== Sys2Proof/WellFormed.lean ====
section
/-! DEFINITION. Well-formedness: which four-word tuples are instructions (spec 30_encoding R104, R106), which parameters
a machine may be constructed with (00_scope R6, R7; 93 I5), and which device ids a host may register (46_devices R291).
An `Instr` itself cannot be ill-formed: its register operands are registers (proved once per instruction, `Laws.EncodingLegal`). -/

namespace Sys2Proof

/-- A field of kind reg holds an index 0..8 (R104). -/
def regField (w : Word) : Bool := decide (0 ≤ signed w) && decide (signed w ≤ 8)

/-- The fields of kind reg of each defined opcode; none for a word that is no opcode (R102). -/
def Tuple.regFields (t : Tuple) : Option (List Word) :=
  if t.w0 = 0 then some [t.w1]
  else if t.w0 = 1 ∨ t.w0 = 2 ∨ t.w0 = 3 ∨ t.w0 = 4 then some [t.w1, t.w2, t.w3]
  else if t.w0 = 5 then some [t.w1, t.w2]
  else if t.w0 = 6 then some []
  else if t.w0 = 7 ∨ t.w0 = 8 then some [t.w1, t.w2]
  else if t.w0 = 9 ∨ t.w0 = 10 then some [t.w1]
  else if t.w0 = 11 ∨ t.w0 = 12 then some [t.w1, t.w2]
  else if t.w0 = 15 then some []
  else none

/-- The tuple is a legal instruction: a recognised opcode, and every reg field of it in 0..8 (R106). -/
def Tuple.legal (t : Tuple) : Bool :=
  match t.regFields with
  | some fs => fs.all regField
  | none => false

/-- The tuple with every field its opcode ignores set to 0 (R102, R105). -/
def Tuple.clearIgnored (t : Tuple) : Tuple :=
  if t.w0 = 0 ∨ t.w0 = 5 ∨ t.w0 = 11 ∨ t.w0 = 12 then { t with w3 := 0 }
  else if t.w0 = 6 ∨ t.w0 = 9 ∨ t.w0 = 10 then { t with w2 := 0, w3 := 0 }
  else if t.w0 = 15 then { t with w1 := 0, w2 := 0, w3 := 0 }
  else t

/-- Parameters the spec admits: `0 < MEM_SIZE ≤ 2^31`, and four negative, pairwise distinct error codes (R6, R7, I5). -/
def Config.Params.ok (p : Config.Params) : Bool :=
  decide (0 < p.memSize) && decide (p.memSize ≤ 2 ^ 31) &&
    [p.eOpen, p.eClose, p.eRead, p.eWrite].all (fun e => decide (signed e < 0)) &&
    decide [p.eOpen, p.eClose, p.eRead, p.eWrite].Nodup

/-- The host's duty: no two devices with one id (R291). -/
def distinctIds (ids : List Int) : Bool := decide ids.Nodup

end Sys2Proof
end

