-- ==== Sys2Proof/Decode.lean ====
section
/-! DEFINITION. The decoder, total on any words and any bytes, rejecting by name, and the encoder (spec 30_encoding). -/

namespace Sys2Proof

/-- Why bytes or words are no instruction. -/
inductive Rejection where
  /-- `w0` is not one of the 14 opcode values (R106). -/
  | unrecognisedOpcode (w0 : Word)
  /-- The argument word number `field` (1, 2 or 3) is a reg field outside 0..8 (R104). -/
  | registerOutOfRange (field : Nat) (value : Word)
  /-- Fewer than 16 bytes: not four words (R100, R109). -/
  | truncated (bytes : Nat)
  deriving DecidableEq, Repr

/-- The register a reg field selects: the value read as a number 0..8 (R31, R104). -/
def Reg.ofWord (w : Word) : Option Reg :=
  match w.toNat with
  | 0 => some .r0
  | 1 => some .r1
  | 2 => some .r2
  | 3 => some .r3
  | 4 => some .r4
  | 5 => some .pc
  | 6 => some .sp
  | 7 => some .base
  | 8 => some .lim
  | _ => none

/-- The index number of a register (R31). -/
def Reg.index : Reg → Word
  | .r0 => 0
  | .r1 => 1
  | .r2 => 2
  | .r3 => 3
  | .r4 => 4
  | .pc => 5
  | .sp => 6
  | .base => 7
  | .lim => 8

/-- Read the argument word number `field` as a register (R104). -/
def regOperand (field : Nat) (w : Word) : Except Rejection Reg :=
  match Reg.ofWord w with
  | some r => .ok r
  | none => .error (.registerOutOfRange field w)

/-- An instruction of one register operand, the first argument word (R102). -/
def decode1 (t : Tuple) (mk : Reg → Instr) : Except Rejection Instr :=
  match regOperand 1 t.w1 with
  | .ok a => .ok (mk a)
  | .error e => .error e

/-- An instruction of two register operands, the first two argument words in that order (R102, R326). -/
def decode2 (t : Tuple) (mk : Reg → Reg → Instr) : Except Rejection Instr :=
  match regOperand 1 t.w1 with
  | .ok a =>
    match regOperand 2 t.w2 with
    | .ok b => .ok (mk a b)
    | .error e => .error e
  | .error e => .error e

/-- An instruction of three register operands, in that order (R102, R326). -/
def decode3 (t : Tuple) (mk : Reg → Reg → Reg → Instr) : Except Rejection Instr :=
  match regOperand 1 t.w1 with
  | .ok a =>
    match regOperand 2 t.w2 with
    | .ok b =>
      match regOperand 3 t.w3 with
      | .ok c => .ok (mk a b c)
      | .error e => .error e
    | .error e => .error e
  | .error e => .error e

/-- Decode one four-word tuple (R102, R104–R106, R108): `w0` chooses the instruction, then only its own fields are read. -/
def decode (t : Tuple) : Except Rejection Instr :=
  match t.w0.toNat with
  | 0 => decode1 t fun d => .set d t.w2
  | 1 => decode3 t .add
  | 2 => decode3 t .sub
  | 3 => decode3 t .mul
  | 4 => decode3 t .div
  | 5 => decode2 t .copy
  | 6 => .ok (.branch t.w1)
  | 7 => decode2 t fun a b => .bne a b t.w3
  | 8 => decode2 t fun a b => .blt a b t.w3
  | 9 => decode1 t .pop
  | 10 => decode1 t .push
  | 11 => decode2 t .load
  | 12 => decode2 t .save
  | 15 => .ok .trap
  | _ => .error (.unrecognisedOpcode t.w0)

/-- The words of an instruction (R102, R110): ignored words are written 0. -/
def encode : Instr → Tuple
  | .set d k => ⟨0, d.index, k, 0⟩
  | .add d a b => ⟨1, d.index, a.index, b.index⟩
  | .sub d a b => ⟨2, d.index, a.index, b.index⟩
  | .mul d a b => ⟨3, d.index, a.index, b.index⟩
  | .div d a b => ⟨4, d.index, a.index, b.index⟩
  | .copy d a => ⟨5, d.index, a.index, 0⟩
  | .branch k => ⟨6, k, 0, 0⟩
  | .bne a b k => ⟨7, a.index, b.index, k⟩
  | .blt a b k => ⟨8, a.index, b.index, k⟩
  | .pop d => ⟨9, d.index, 0, 0⟩
  | .push a => ⟨10, a.index, 0, 0⟩
  | .load d o => ⟨11, d.index, o.index, 0⟩
  | .save a o => ⟨12, a.index, o.index, 0⟩
  | .trap => ⟨15, 0, 0, 0⟩

/-- The four bytes of a word as the memory list keeps them, least significant first (log 3). -/
def wordBytes (w : Word) : List Byte :=
  [w.extractLsb' 0 8, w.extractLsb' 8 8, w.extractLsb' 16 8, w.extractLsb' 24 8]

/-- The word whose bytes these are, least significant first (log 3). -/
def wordOfBytes (b0 b1 b2 b3 : Byte) : Word := b3 ++ b2 ++ b1 ++ b0

/-- The sixteen bytes of a tuple, the opcode word at the lowest address (R100). -/
def Tuple.bytes (t : Tuple) : List Byte :=
  wordBytes t.w0 ++ wordBytes t.w1 ++ wordBytes t.w2 ++ wordBytes t.w3

/-- Decode from any bytes: the instruction of the first sixteen and the bytes after them (R109). -/
def decodeBytes : List Byte → Except Rejection (Instr × List Byte)
  | b0 :: b1 :: b2 :: b3 :: b4 :: b5 :: b6 :: b7 :: b8 :: b9 :: b10 :: b11 :: b12 :: b13 :: b14 :: b15 :: rest =>
    match decode ⟨wordOfBytes b0 b1 b2 b3, wordOfBytes b4 b5 b6 b7, wordOfBytes b8 b9 b10 b11,
        wordOfBytes b12 b13 b14 b15⟩ with
    | .ok i => .ok (i, rest)
    | .error e => .error e
  | bs => .error (.truncated bs.length)

/-- The tuple whose bits are `w`, bit 0 the least significant bit of the opcode word, each later word 32 bits further
up; bits from `nbits` on are 0. -/
def tupleOfBits (nbits w : Nat) : Tuple :=
  let v := w % 2 ^ nbits
  ⟨BitVec.ofNat 32 v, BitVec.ofNat 32 (v / 2 ^ 32), BitVec.ofNat 32 (v / 2 ^ 64), BitVec.ofNat 32 (v / 2 ^ 96)⟩

/-- The instruction the decoder reads from an instruction whose bits are `w`, as the opcode table numbers them. -/
def decodeTableWord (nbits w : Nat) : Option Instr :=
  match decodeBytes (tupleOfBits nbits w).bytes with
  | .ok (i, _) => some i
  | .error _ => none

/-- The opcode word of a mnemonic (R102). -/
def Mnemonic.opcode : Mnemonic → Word
  | .set => 0
  | .add => 1
  | .sub => 2
  | .mul => 3
  | .div => 4
  | .copy => 5
  | .branch => 6
  | .bne => 7
  | .blt => 8
  | .pop => 9
  | .push => 10
  | .load => 11
  | .save => 12
  | .trap => 15

/-- The kinds of the three argument words (R101, R102). -/
def Mnemonic.kinds : Mnemonic → FieldKind × FieldKind × FieldKind
  | .set => (.reg, .imm, .ign)
  | .add | .sub | .mul | .div => (.reg, .reg, .reg)
  | .copy | .load | .save => (.reg, .reg, .ign)
  | .branch => (.tgt, .ign, .ign)
  | .bne | .blt => (.reg, .reg, .tgt)
  | .pop | .push => (.reg, .ign, .ign)
  | .trap => (.ign, .ign, .ign)

/-- The word of one field (R110): a register name only in a reg field, any integer that is a word as itself, an omitted ign
field as 0. -/
def assembleField (k : FieldKind) (f : Option AsmField) : Option Word :=
  match f with
  | some (.name r) => if k = .reg then some r.index else none
  | some (.int v) => if signed (wrap v) = v then some (wrap v) else none
  | none => if k = .ign then some 0 else none

/-- The words of an assembler line (R110).  It need not be legal: an integer in a reg field assembles to itself. -/
def assemble (l : AsmLine) : Option Tuple :=
  match assembleField l.mnemonic.kinds.1 l.fields[0]?, assembleField l.mnemonic.kinds.2.1 l.fields[1]?,
      assembleField l.mnemonic.kinds.2.2 l.fields[2]? with
  | some a, some b, some c => if l.fields.length ≤ 3 then some ⟨l.mnemonic.opcode, a, b, c⟩ else none
  | _, _, _ => none

end Sys2Proof
end

