-- ==== Sys2Proof/Machine/State.lean ====
section
/-! DEFINITION. The state of the machine as plain data, the ways a step can stop, and the state after reset (spec
10_state, 60_exceptions R323, 70_reset_and_hazards R360). -/

namespace Sys2Proof.Machine

/-- The nine slots of one register file, live or saved (R30, R42). -/
structure Regs where
  r0 : Word
  r1 : Word
  r2 : Word
  r3 : Word
  r4 : Word
  /-- Physical address of the next instruction (R34). -/
  pc : Word
  /-- Physical address of the top of the stack (R35). -/
  sp : Word
  /-- Lowest physical address of the window (R36). -/
  base : Word
  /-- Highest physical address of the window, inclusive (R36). -/
  lim : Word
  deriving DecidableEq, Repr

/-- The operation of a block key (R42, R292). -/
inductive DevOp where
  | opening | reading | writing
  deriving DecidableEq, Repr

/-- What a blocked process waits for (R42, R292). -/
structure BlockKey where
  dev : Int
  op : DevOp
  addr : Word
  deriving DecidableEq, Repr

/-- A process control block (R42).  `ref` is the model's own: the identity by which `State.cur` refers to one PCB of the
table (log 10). -/
structure PCB where
  ref : Nat
  pid : Nat
  /-- The saved copy of all 9 registers, absent until first saved. -/
  regs : Option Regs
  /-- What the process is blocked on, or not blocked. -/
  block : Option BlockKey
  lastReady : Nat
  numReady : Nat
  maxStarve : Nat
  /-- The running average starve interval, exact (R42, R258). -/
  avgStarve : Rat
  deriving DecidableEq, Repr

/-- The reasons the machine halts for (R323), with the data each records (R321). -/
inductive HaltReason where
  | illegalMemoryAccess (addr : Word)
  | divideByZero
  | illegalInstruction (instr : Tuple)
  | noSpace
  | noPrograms
  | noProcesses
  deriving DecidableEq, Repr

/-- The events the core emits to the host (R45). -/
inductive Event where
  | output (v : Word)
  | coreDump (regs : Regs) (s1 s2 s3 : Word)
  | devRead (dev : Int) (addr : Word)
  | devWrite (dev : Int) (addr data : Word)
  | diagnostic (h : HaltReason)
  deriving DecidableEq, Repr

/-- A device's fixed capabilities (R290). -/
structure Device where
  isSharable : Bool
  isReadable : Bool
  isWriteable : Bool
  deriving DecidableEq, Repr

/-- A registered device (R46): its id, any integer, its capabilities, and the ids of the processes that hold it open, in
insertion order. -/
structure DeviceInfo where
  id : Int
  dev : Device
  openSet : List Nat
  deriving DecidableEq, Repr

/-- A program (R47, R251): its words (`P.size` is their number), its default allocation (0 or less: absent), and how often
EXEC has chosen it. -/
structure Program where
  words : List Word
  defaultAlloc : Int
  execCount : Nat
  deriving DecidableEq, Repr

/-- An interrupt the host may deliver (R331). -/
inductive Interrupt where
  | readComplete (dev : Int) (addr data : Word)
  | writeComplete (dev : Int) (addr : Word)
  | clock
  deriving DecidableEq, Repr

/-- What the host decides at one instruction boundary (R330): let the engine run one instruction, or deliver one
interrupt (log 7). -/
inductive HostTurn where
  | engine
  | interrupt (i : Interrupt)
  deriving DecidableEq, Repr

/-- What the host has still to do before it starts the machine (R362, steps 2 to 4; log 8). -/
structure BootPlan where
  devices : List (Int × Device)
  programs : List Program
  loads : List Program
  deriving DecidableEq, Repr

/-- Memory: (address, byte) pairs with strictly rising addresses, none holding what an unlisted address reads as.  Word
`a` is the four bytes at `4 * a` … `4 * a + 3` (log 2, log 3). -/
abbrev Memory := List Host.Cell

/-- The state of the machine.  The comments name the spec's rule, or say that a field is the model's own. -/
structure State where
  /-- The construction parameters (R6); no step changes them (log 4). -/
  cfg : Config.Params
  /-- The live register file (R30). -/
  regs : Regs
  /-- The memory array (R38). -/
  mem : Memory
  /-- The tick counter (R39). -/
  ticks : Nat
  /-- The process table, in insertion order (R40). -/
  procs : List PCB
  /-- The `ref` of the current PCB (R41). -/
  cur : Option Nat
  /-- The id the next non-idle process gets (R43). -/
  nextPid : Nat
  /-- The physical address of the next load (R43). -/
  loadCursor : Nat
  /-- `none` while running, else the halt reason (R44). -/
  halted : Option HaltReason
  /-- The events emitted so far, oldest first (R45). -/
  out : List Event
  /-- The device registry (R46). -/
  devs : List DeviceInfo
  /-- The program registry (R47). -/
  progs : List Program
  /-- Whether the host has started the machine (R130, R363). -/
  started : Bool
  /-- The model's own: the host's remaining boot duties (log 8). -/
  boot : BootPlan
  /-- The model's own: the host's decisions at the coming boundaries; when it is empty the engine runs (log 7). -/
  schedule : List HostTurn
  /-- The model's own: the host's coming `isAvailable` answers (R290; log 6). -/
  answers : List Bool
  /-- The model's own: the coming free values (log 6). -/
  draws : List Nat
  /-- The model's own: how many free values came from Config's opaque constants (log 6). -/
  drawn : Nat
  /-- The model's own: the `ref` the next PCB gets (log 10). -/
  nextRef : Nat
  deriving DecidableEq, Repr

/-- Why a step is stuck: the spec defines no further step. -/
inductive Fault where
  /-- Raised by `step` on a halted machine: "Once halted the machine takes no further step of any kind" (R44, I23).
  Safe. -/
  | machineHalted (h : HaltReason)
  /-- Raised by a restore of a PCB that was never saved, and by a PCB-scoped push onto one: "Reading them is stuck" (I3).
  No run reaches it (R262).  Safe. -/
  | savedRegsAbsent (ref : Nat)
  /-- Raised by the operations that name the current process when there is none: "There is then always a current process"
  (R130).  No run reaches it.  Safe. -/
  | noCurrentProcess
  deriving DecidableEq, Repr

/-- Why a step is refused. -/
inductive Refusal where
  /-- Raised by an arm of `exec` that has no meaning yet: there is none.  Safe. -/
  | notModelled (mnemonic : String)
  /-- Raised by `step`: the parameters are ones a machine must not be constructed with (R6, R7, I5).  Safe. -/
  | badParameters
  /-- Raised by the creation of a process whose id would be the reserved `IDLE_PID` (R6, I8).  Safe. -/
  | idlePidAssigned
  deriving DecidableEq, Repr

/-- The register file at reset.  DESIGN CHOICE (log 1): the spec leaves every slot unspecified (R30); zero here. -/
def Regs.reset : Regs :=
  { r0 := 0, r1 := 0, r2 := 0, r3 := 0, r4 := 0, pc := 0, sp := 0, base := 0, lim := 0 }

/-- The boot plan with nothing to do. -/
def BootPlan.empty : BootPlan := { devices := [], programs := [], loads := [] }

/-- The reset state of a machine constructed with parameters `p` (R360). -/
def State.resetWith (p : Config.Params) : State :=
  { cfg := p
    regs := Regs.reset
    mem := []
    ticks := 0
    procs := []
    cur := none
    nextPid := Config.firstPid
    loadCursor := Config.loadStart
    halted := none
    out := []
    devs := []
    progs := []
    started := false
    boot := BootPlan.empty
    schedule := []
    answers := []
    draws := []
    drawn := 0
    nextRef := 0 }

/-- The machine right after reset (R360), constructed with the default parameters (log 4). -/
def State.reset : State := State.resetWith Config.Params.defaults

end Sys2Proof.Machine
end

