-- ==== Sys2Proof/Machine/Memory.lean ====
section
/-! DEFINITION. Memory: the canonical list of bytes, and reads and writes of bytes and words (spec 20_memory R70, R71, R77). -/

namespace Sys2Proof.Machine

/-- What an address that is not listed reads as.  DESIGN CHOICE (log 2): the spec leaves it unspecified (R38). -/
def unlistedByte : Byte := 0

/-- The byte at a byte address. -/
def Memory.readByte : Memory → Nat → Byte
  | [], _ => unlistedByte
  | (k, v) :: m, n => if n = k then v else Memory.readByte m n

/-- Put `b` at byte address `n` of a list that rises, keeping it canonical. -/
def Memory.writeByte : Memory → Nat → Byte → Memory
  | [], n, b => if b = unlistedByte then [] else [(n, b)]
  | (k, v) :: m, n, b =>
    if n < k then if b = unlistedByte then (k, v) :: m else (n, b) :: (k, v) :: m
    else if n = k then if b = unlistedByte then m else (n, b) :: m
    else (k, v) :: Memory.writeByte m n b

/-- Every address of the list is at least `lo`, the addresses rise strictly, and no entry is what an unlisted address
reads as. -/
def Memory.wfFrom : Nat → Memory → Bool
  | _, [] => true
  | lo, (k, v) :: m => decide (lo ≤ k) && decide (v ≠ unlistedByte) && Memory.wfFrom (k + 1) m

/-- The canonical form: equal memories are equal lists. -/
def Memory.wf (m : Memory) : Bool := Memory.wfFrom 0 m

/-- Every listed byte belongs to one of the first `words` words. -/
def Memory.within (words : Nat) (m : Memory) : Bool := m.all fun c => decide (c.1 < 4 * words)

/-- The word at physical address `a` (R10, R77). -/
def Memory.readWord (m : Memory) (a : Nat) : Word :=
  wordOfBytes (m.readByte (4 * a)) (m.readByte (4 * a + 1)) (m.readByte (4 * a + 2)) (m.readByte (4 * a + 3))

/-- Write word `v` at physical address `a` (R10, R77). -/
def Memory.writeWord (m : Memory) (a : Nat) (v : Word) : Memory :=
  (((m.writeByte (4 * a) (v.extractLsb' 0 8)).writeByte (4 * a + 1) (v.extractLsb' 8 8)).writeByte (4 * a + 2)
    (v.extractLsb' 16 8)).writeByte (4 * a + 3) (v.extractLsb' 24 8)

/-- Write words one at a time at `a`, `a + 1`, … (R77, R253). -/
def Memory.writeWords (m : Memory) (a : Nat) : List Word → Memory
  | [] => m
  | w :: ws => Memory.writeWords (m.writeWord a w) (a + 1) ws

/-- The tuple at physical addresses `a` … `a + 3` (R10, R131). -/
def Memory.readTuple (m : Memory) (a : Nat) : Tuple :=
  ⟨m.readWord a, m.readWord (a + 1), m.readWord (a + 2), m.readWord (a + 3)⟩

end Sys2Proof.Machine
end

