-- ==== Sys2Proof/Machine/Operands.lean ====
section
/-! DEFINITION. Register operands, logical addresses and the word laws of the ALU (spec 10_state R31–R36, 20_memory R72,
41_alu R156, R157). -/

namespace Sys2Proof.Machine

/-- `regs[i]` (R9). -/
def Regs.get (x : Regs) : Reg → Word
  | .r0 => x.r0
  | .r1 => x.r1
  | .r2 => x.r2
  | .r3 => x.r3
  | .r4 => x.r4
  | .pc => x.pc
  | .sp => x.sp
  | .base => x.base
  | .lim => x.lim

/-- `regs[i] <- v` (R9): every slot is written like any other (R33, R159). -/
def Regs.set (x : Regs) (i : Reg) (v : Word) : Regs :=
  match i with
  | .r0 => { x with r0 := v }
  | .r1 => { x with r1 := v }
  | .r2 => { x with r2 := v }
  | .r3 => { x with r3 := v }
  | .r4 => { x with r4 := v }
  | .pc => { x with pc := v }
  | .sp => { x with sp := v }
  | .base => { x with base := v }
  | .lim => { x with lim := v }

/-- `x[i]` on the live register file (R9). -/
def State.reg (s : State) (i : Reg) : Word := s.regs.get i

/-- `x[i] <- v` on the live register file (R9). -/
def State.setReg (s : State) (i : Reg) (v : Word) : State := { s with regs := s.regs.set i v }

/-- The physical address of logical offset `off`: `wrap(x[BASE] + off)` (R72). -/
def State.physical (s : State) (off : Word) : Word := wrap (signed s.regs.base + signed off)

/-- The word law of ADD (R156). -/
def aluAdd (a b : Word) : Word := wrap (signed a + signed b)
/-- The word law of SUB (R156). -/
def aluSub (a b : Word) : Word := wrap (signed a - signed b)
/-- The word law of MUL (R156). -/
def aluMul (a b : Word) : Word := wrap (signed a * signed b)
/-- The word law of DIV for a divisor that is not 0: the quotient truncated toward zero (R156, R157). -/
def aluDiv (a b : Word) : Word := wrap (Int.tdiv (signed a) (signed b))

end Sys2Proof.Machine
end

