-- ==== Sys2Proof/Machine/Ops.lean ====
section
/-! DEFINITION. The shared operations: how a piece of kernel or engine work ends, the halt every fault takes, the
protection check, the stack primitives, the fetch, the free values (spec 00_scope R10–R13, 20_memory R73–R75,
40_execution_cycle R130–R141, 60_exceptions R322–R325). -/

namespace Sys2Proof.Machine

/-- How a block of the spec's pseudocode ends: it finishes with a value and a state, or it stops the whole step there
(R11, R134), with a halted machine (a next state), a fault or a refusal. -/
inductive Flow (α : Type) where
  | go (a : α) (s : State)
  | stop (o : Host.Outcome State Fault Refusal)

/-- Run `x`, then, if it did not stop the step, `k` on its value and state. -/
def Flow.andThen {α β : Type} (x : Flow α) (k : α → State → Flow β) : Flow β :=
  match x with
  | .go a s => k a s
  | .stop o => .stop o

/-- The end of an instruction or handler: it returns by finishing (R223, R325); there is no other return from a trap. -/
def Flow.finish (x : Flow Unit) : Host.Outcome State Fault Refusal :=
  match x with
  | .go _ s => .next s
  | .stop o => o

/-- Append event `e` to the output list (R11, R45). -/
def State.emit (s : State) (e : Event) : State := { s with out := s.out ++ [e] }

/-- The state halted with reason `h`: the diagnostic is emitted first, then `halted` is set; everything else stays as it
stands there (R322, R323; log 9). -/
def State.halt (s : State) (h : HaltReason) : State := { s.emit (.diagnostic h) with halted := some h }

/-- TAKING AN EXCEPTION, `raise F(info)` and `halt H` alike (R11, R322–R324): no register is saved, no mode changes and no
vector is read; the machine halts and nothing later of the instruction runs. -/
def raise {α : Type} (h : HaltReason) (s : State) : Flow α := .stop (.next (s.halt h))

/-- `ticks <- ticks + n` (R39). -/
def State.addTicks (s : State) (n : Nat) : State := { s with ticks := s.ticks + n }

/-- Both tests of `Check(a)` against a window and a memory size, signed (R73). -/
def windowAllows (base lim : Word) (memSize : Nat) (a : Word) : Bool :=
  decide (signed base ≤ signed a) && decide (signed a ≤ signed lim) && decide (0 ≤ signed a) &&
    decide (signed a < (memSize : Int))

/-- `Check(a)` passes against the live window (R73). -/
def State.allows (s : State) (a : Word) : Bool := windowAllows s.regs.base s.regs.lim s.cfg.memSize a

/-- `Check(a)` (R73). -/
def check (a : Word) (s : State) : Flow Unit :=
  if s.allows a then .go () s else raise (.illegalMemoryAccess a) s

/-- `MemRead(a, 1)` (R10); every use follows a `Check(a)`. -/
def State.memRead (s : State) (a : Word) : Word := s.mem.readWord a.toNat

/-- `MemWrite(a, 1, v)` (R10); every use follows a `Check(a)` or the fit test of a load (R253). -/
def State.memWrite (s : State) (a v : Word) : State := { s with mem := s.mem.writeWord a.toNat v }

/-- The clamped decrement of a push: only while SP > BASE, signed (R136). -/
def Regs.lowerSp (x : Regs) : Regs :=
  if signed x.base < signed x.sp then { x with sp := x.sp - 1 } else x

/-- The clamped increment of a pop: only while SP < LIM, signed (R137). -/
def Regs.raiseSp (x : Regs) : Regs :=
  if signed x.sp < signed x.lim then { x with sp := x.sp + 1 } else x

/-- `push(v)` on the live registers (R136): the decrement is kept when the check fails. -/
def push (v : Word) (s : State) : Flow Unit :=
  (check s.regs.lowerSp.sp { s with regs := s.regs.lowerSp }).andThen fun _ s =>
    .go () (s.memWrite s.regs.sp v)

/-- `pop()` on the live registers (R137). -/
def pop (s : State) : Flow Word :=
  (check s.regs.sp s).andThen fun _ s =>
    .go (s.memRead s.regs.sp) { s with regs := s.regs.raiseSp }

/-- `for v in vs: push(v)` (R298). -/
def pushAll : List Word → State → Flow Unit
  | [], s => .go () s
  | v :: vs, s => (push v s).andThen fun _ s => pushAll vs s

/-- Change the first element `p` holds of. -/
def updateFirst {α : Type} (p : α → Bool) (f : α → α) : List α → List α
  | [] => []
  | x :: xs => if p x then f x :: xs else x :: updateFirst p f xs

/-- The PCB with identity `ref` (log 10). -/
def State.findPcb (s : State) (ref : Nat) : Option PCB := s.procs.find? fun p => p.ref == ref

/-- Change the PCB with identity `ref`. -/
def State.updatePcb (s : State) (ref : Nat) (f : PCB → PCB) : State :=
  { s with procs := updateFirst (fun p => p.ref == ref) f s.procs }

/-- The current PCB (R41). -/
def State.curPcb (s : State) : Option PCB := s.cur.bind s.findPcb

/-- `cur.pid = IDLE_PID`. -/
def State.idling (s : State) : Bool :=
  match s.curPcb with
  | some c => c.pid == s.cfg.idlePid
  | none => false

/-- Run `k` on the current PCB; stuck where there is none (R130; log 12). -/
def withCurrent {α : Type} (s : State) (k : PCB → Flow α) : Flow α :=
  match s.curPcb with
  | some c => k c
  | none => .stop (.fault .noCurrentProcess)

/-- `pcbPush(p, v)` for the PCB with identity `ref` (R138): on the current PCB it is `push(v)`; on any other it works on the
saved registers, which must be present (R262, I3). -/
def pcbPush (ref : Nat) (v : Word) (s : State) : Flow Unit :=
  if s.cur = some ref then push v s
  else
    match (s.findPcb ref).bind (fun p => p.regs) with
    | none => .stop (.fault (.savedRegsAbsent ref))
    | some x =>
      let s1 := s.updatePcb ref fun p => { p with regs := some x.lowerSp }
      if windowAllows x.base x.lim s.cfg.memSize x.lowerSp.sp then .go () (s1.memWrite x.lowerSp.sp v)
      else raise (.illegalMemoryAccess x.lowerSp.sp) s1

/-- The next draw, any natural number: from `draws`, then from the opaque constant (log 6). -/
def State.draw (s : State) : Nat × State :=
  match s.draws with
  | v :: vs => (v, { s with draws := vs })
  | [] => (Config.freeDraw s.drawn, { s with drawn := s.drawn + 1 })

/-- A word that nothing constrains (R254): every word is the value of some draw. -/
def State.drawWord (s : State) : Word × State := (BitVec.ofNat 32 s.draw.1, s.draw.2)

/-- `choose` one of `n` alternatives by number (R11): every number below `n` is the choice of some draw. -/
def State.choose (s : State) (n : Nat) : Nat × State := (s.draw.1 % n, s.draw.2)

/-- The host's next answer to `isAvailable` (R290): from `answers`, then from the opaque constant (log 6). -/
def State.askAvailable (s : State) : Bool × State :=
  match s.answers with
  | b :: bs => (b, { s with answers := bs })
  | [] => (Config.freeAnswer s.drawn, { s with drawn := s.drawn + 1 })

/-- The address of the `i`-th word of the instruction at PC: `wrap(x[PC] + i)` (R131). -/
def State.fetchAddr (s : State) (i : Nat) : Word := wrap (signed s.regs.pc + i)

/-- The fetch: all four words checked, lowest address first, before any is read (R131). -/
def fetch (s : State) : Flow Tuple :=
  (check (s.fetchAddr 0) s).andThen fun _ s =>
  (check (s.fetchAddr 1) s).andThen fun _ s =>
  (check (s.fetchAddr 2) s).andThen fun _ s =>
  (check (s.fetchAddr 3) s).andThen fun _ s =>
    .go (s.mem.readTuple s.regs.pc.toNat) s

/-- The pre-increment `x[PC] <- wrap(x[PC] + INSTRSIZE)` (R132). -/
def State.advancePc (s : State) : State := s.setReg .pc (wrap (signed s.regs.pc + Config.instrSize))

/-- The rewind of a retry, `x[PC] <- wrap(x[PC] - INSTRSIZE)` (R298). -/
def State.rewindPc (s : State) : State := s.setReg .pc (wrap (signed s.regs.pc - Config.instrSize))

/-- Decode the fetched tuple, or raise the illegal-instruction fault with all four words (R106, R133). -/
def decodeOrRaise (t : Tuple) (s : State) : Flow Instr :=
  match decode t with
  | .ok i => .go i s
  | .error _ => raise (.illegalInstruction t) s

end Sys2Proof.Machine
end

