-- ==== Sys2Proof/Machine/Process.lean ====
section
/-! DEFINITION. Process creation, context save and restore, the scheduler and the idle process (spec 45_scheduler). -/

namespace Sys2Proof.Machine

/-- `P.size` (R251). -/
def Program.size (P : Program) : Nat := P.words.length

/-- `allocSize(P)` (R252): a default allocation of 0 or less is absent. -/
def Program.allocSize (P : Program) : Nat := if 0 < P.defaultAlloc then P.defaultAlloc.toNat else 2 * P.size

/-- The PCB with a copy of the registers and its ready-state bookkeeping done (R256). -/
def PCB.makeReady (p : PCB) (x : Regs) (now : Nat) : PCB :=
  { p with regs := some x, lastReady := now, numReady := p.numReady + 1 }

/-- `save(p)` for `p = cur` (R256): the cost is added before the timestamp is taken. -/
def saveContext (ref : Nat) (s : State) : State :=
  let s1 := s.addTicks s.cfg.saveLoadTime
  s1.updatePcb ref fun p => p.makeReady s1.regs s1.ticks

/-- The statistics of a PCB whose starve interval `n` has just ended (R257): the running mean is exact. -/
def PCB.addStarve (p : PCB) (n : Nat) : PCB :=
  { p with maxStarve := max p.maxStarve n
           avgStarve := p.avgStarve + ((n : Rat) - p.avgStarve) / (p.numReady : Rat) }

/-- `restore(p)` (R257) for the PCB with identity `ref`; stuck when it was never saved (R262, I3; log 12).  It does not set
`cur`. -/
def restoreContext (ref : Nat) (s : State) : Flow Unit :=
  let s1 := s.addTicks s.cfg.saveLoadTime
  match s1.findPcb ref with
  | none => .stop (.fault (.savedRegsAbsent ref))
  | some p =>
    match p.regs with
    | none => .stop (.fault (.savedRegsAbsent ref))
    | some x =>
      if p.numReady = 0 then .stop (.fault (.savedRegsAbsent ref))
      else .go () ({ s1 with regs := x }.updatePcb ref fun p => p.addStarve (s1.ticks - p.lastReady))

/-- `if cur != none then save(cur)` (R253). -/
def State.saveCurrent (s : State) : State :=
  match s.cur with
  | some r => saveContext r s
  | none => s

/-- The fit test of a load (R253). -/
def State.fits (s : State) (P : Program) (alloc : Nat) : Bool :=
  decide (1 ≤ alloc) && decide (P.size ≤ alloc) && decide (s.loadCursor + alloc ≤ s.cfg.memSize)

/-- The registers of a new process in the window `[c, c + alloc - 1]` (R254), R0–R4 being the given draws. -/
def newRegs (c alloc : Nat) (v0 v1 v2 v3 v4 : Word) : Regs :=
  { r0 := v0, r1 := v1, r2 := v2, r3 := v3, r4 := v4
    pc := BitVec.ofNat 32 c
    sp := BitVec.ofNat 32 (c + alloc - 1)
    base := BitVec.ofNat 32 c
    lim := BitVec.ofNat 32 (c + alloc - 1) }

/-- R0–R4 of a new process are five draws (R254); the other four slots follow from its window. -/
def State.loadRegs (s : State) (alloc : Nat) : State :=
  let d0 := s.drawWord
  let d1 := d0.2.drawWord
  let d2 := d1.2.drawWord
  let d3 := d2.2.drawWord
  let d4 := d3.2.drawWord
  { d4.2 with regs := newRegs s.loadCursor alloc d0.1 d1.1 d2.1 d3.1 d4.1 }

/-- A new PCB (R42): registers absent, not blocked, statistics 0. -/
def PCB.new (ref pid : Nat) : PCB :=
  { ref := ref, pid := pid, regs := none, block := none, lastReady := 0, numReady := 0, maxStarve := 0, avgStarve := 0 }

/-- Append a new PCB with id `id` and make it current (R253); a non-idle one uses up `nextPid` (R255). -/
def State.appendPcb (s : State) (id : Nat) : State :=
  { s with procs := s.procs ++ [PCB.new s.nextRef id]
           nextPid := if id = s.cfg.idlePid then s.nextPid else s.nextPid + 1
           cur := some s.nextRef
           nextRef := s.nextRef + 1 }

/-- The effects of a load that fits (R253, R254), after the current process is saved: the program is copied without any
check, the registers are set, the cursor moves `INSTRSIZE` past the new LIM. -/
def State.install (s : State) (P : Program) (alloc id : Nat) : State :=
  let s1 := { s with mem := s.mem.writeWords s.loadCursor P.words }
  let s2 := s1.loadRegs alloc
  { s2 with loadCursor := s.loadCursor + alloc - 1 + Config.instrSize }.appendPcb id

/-- `createProcess(P, alloc, id)` (R253). -/
def createProcess (P : Program) (alloc id : Nat) (s : State) : Flow Unit :=
  if s.fits P alloc then .go () (s.saveCurrent.install P alloc id) else raise .noSpace s

/-- `createProcess(P, allocSize(P), nextPid)` (R219, R362); refused when the id it would assign is the reserved one (R6, I8;
log 5). -/
def createUserProcess (P : Program) (s : State) : Flow Unit :=
  if s.fits P P.allocSize && decide (s.nextPid = s.cfg.idlePid) then .stop (.refused .idlePidAssigned)
  else createProcess P P.allocSize s.nextPid s

/-- The idle program, `BRANCH 0` (R265). -/
def idleProgram : Program := { words := [6, 0, 0, 0], defaultAlloc := 0, execCount := 0 }

/-- `createIdleProcess()` (R263). -/
def createIdleProcess (s : State) : Flow Unit :=
  createProcess idleProgram idleProgram.allocSize s.cfg.idlePid s

/-- `score(p)` (R261). -/
def State.score (s : State) (p : PCB) : Rat :=
  p.avgStarve + if s.cur = some p.ref then (Config.starveBonus : Rat) else 0

/-- The candidates of a selection (R260): not blocked and not the idle process, in table order. -/
def State.candidates (s : State) : List PCB :=
  s.procs.filter fun p => p.block.isNone && decide (p.pid ≠ s.cfg.idlePid)

/-- The first PCB with the greatest score. -/
def State.firstBest (s : State) : List PCB → Option PCB
  | [] => none
  | p :: ps =>
    match s.firstBest ps with
    | none => some p
    | some q => if s.score q ≤ s.score p then some p else some q

/-- `select(C)` (R261): the greatest score; on a tie the current process if it is among the tied, else the first in table
order. -/
def State.select (s : State) (C : List PCB) : Option PCB :=
  match s.firstBest C with
  | none => none
  | some b =>
    match C.find? fun p => decide (s.cur = some p.ref) && decide (s.score p = s.score b) with
    | some c => some c
    | none => some b

/-- What becomes of the current process when the scheduler switches away from it (R260, R264): the idle process is removed
unsaved, any other is saved. -/
def State.leaveCurrent (s : State) : State :=
  match s.cur with
  | none => s
  | some r => if s.idling then { s with procs := s.procs.filter fun p => p.ref != r } else saveContext r s

/-- Switch to the PCB with identity `ref` (R260). -/
def switchTo (ref : Nat) (s : State) : Flow Unit :=
  (restoreContext ref s.leaveCurrent).andThen fun _ s => .go () { s with cur := some ref }

/-- `schedule()` (R260). -/
def schedule (s : State) : Flow Unit :=
  if s.procs.isEmpty then raise .noProcesses s
  else
    match s.select s.candidates with
    | none => if s.idling then .go () s else createIdleProcess s
    | some b => if s.cur = some b.ref then .go () s else switchTo b.ref s

end Sys2Proof.Machine
end

