-- ==== Sys2Proof/Machine/Boot.lean ====
section
/-! DEFINITION. The host's boot duties and the start (spec 70_reset_and_hazards R362, R363), and placing one instruction
where the next step fetches (log 8). -/

namespace Sys2Proof.Machine

/-- Register a device with an empty open set (R291, R362 step 2). -/
def State.registerDevice (s : State) (id : Int) (d : Device) : State :=
  { s with devs := s.devs ++ [{ id := id, dev := d, openSet := [] }] }

/-- Register a program for EXEC with count 0 (R47, R362 step 3). -/
def State.registerProgram (s : State) (P : Program) : State :=
  { s with progs := s.progs ++ [{ P with execCount := 0 }] }

/-- Start the machine (R363): with no process it halts at once. -/
def start (s : State) : Flow Unit :=
  if s.procs.isEmpty then raise .noProcesses { s with started := true } else .go () { s with started := true }

/-- The host's next boot action, in the order of R362: devices, programs, initial loads, then the start. -/
def bootAction (s : State) : Flow Unit :=
  match s.boot.devices with
  | d :: ds => .go () (({ s with boot := { s.boot with devices := ds } }).registerDevice d.1 d.2)
  | [] =>
    match s.boot.programs with
    | P :: Ps => .go () (({ s with boot := { s.boot with programs := Ps } }).registerProgram P)
    | [] =>
      match s.boot.loads with
      | P :: Ps => createUserProcess P { s with boot := { s.boot with loads := Ps } }
      | [] => start s

/-- The window a loaded four-word program gets: `allocSize` = 8 words from `c` (R252, R254). -/
def probeRegs (x : Regs) (c : Nat) : Regs := newRegs c 8 x.r0 x.r1 x.r2 x.r3 x.r4

/-- Parameters with room for one instruction: the machine's own where they are admitted. -/
def probeParams (p : Config.Params) : Config.Params :=
  if p.ok && decide (8 ≤ p.memSize) then p else Config.Params.defaults

/-- All four words at PC pass the check. -/
def State.fetchable (s : State) : Bool :=
  s.allows (s.fetchAddr 0) && s.allows (s.fetchAddr 1) && s.allows (s.fetchAddr 2) && s.allows (s.fetchAddr 3)

/-- `s` made ready to fetch at once (log 8): running, started, no interrupt due, with a current process whose window holds
the four words at PC.  Where no process is current one is made as a load of four words would make it (R253, R254), but that
R0–R4 stay as they are. -/
def State.readyToFetch (s : State) : State :=
  let s1 := { s with cfg := probeParams s.cfg, halted := none, started := true, schedule := [] }
  match s1.cur with
  | some _ => if s1.fetchable then s1 else { s1 with regs := probeRegs s1.regs 0 }
  | none =>
    let c := if s1.loadCursor + 8 ≤ s1.cfg.memSize then s1.loadCursor else 0
    { s1 with regs := probeRegs s1.regs c, loadCursor := c + 7 + Config.instrSize }.appendPcb s1.nextPid

/-- Store the four words of `t` at PC. -/
def State.placeAtPc (s : State) (t : Tuple) : State :=
  { s with mem := s.mem.writeWords s.regs.pc.toNat [t.w0, t.w1, t.w2, t.w3] }

end Sys2Proof.Machine
end

