-- ==== Sys2Proof/Machine/Alu.lean ====
section
/-! DEFINITION. SET, ADD, SUB, MUL, DIV, COPY (spec 41_alu).  Every meaning reads all its sources before it writes its
destination (R158) and runs with PC already advanced (R132). -/

namespace Sys2Proof.Machine

/-- SET (R150). -/
def execSet (d : Reg) (k : Word) (s : State) : Host.Outcome State Fault Refusal := .next (s.setReg d k)

/-- ADD (R151). -/
def execAdd (d s1 s2 : Reg) (s : State) : Host.Outcome State Fault Refusal :=
  .next (s.setReg d (aluAdd (s.reg s1) (s.reg s2)))

/-- SUB (R152). -/
def execSub (d s1 s2 : Reg) (s : State) : Host.Outcome State Fault Refusal :=
  .next (s.setReg d (aluSub (s.reg s1) (s.reg s2)))

/-- MUL (R153). -/
def execMul (d s1 s2 : Reg) (s : State) : Host.Outcome State Fault Refusal :=
  .next (s.setReg d (aluMul (s.reg s1) (s.reg s2)))

/-- DIV (R154): a zero divisor raises the fault and writes nothing. -/
def execDiv (d s1 s2 : Reg) (s : State) : Host.Outcome State Fault Refusal :=
  if s.reg s2 = 0 then (raise (α := Unit) .divideByZero s).finish
  else .next (s.setReg d (aluDiv (s.reg s1) (s.reg s2)))

/-- COPY (R155). -/
def execCopy (d r : Reg) (s : State) : Host.Outcome State Fault Refusal := .next (s.setReg d (s.reg r))

end Sys2Proof.Machine
end

