-- ==== Sys2Proof/Machine/Flags.lean ====
section
/-! DEFINITION. The machine has no flags (spec 10_state R37); what other machines take from flags, the conditional branches
take from a comparison of two whole registers (42_control R171, R172). -/

namespace Sys2Proof.Machine

/-- BNE's condition: the full 32-bit words differ (R171). -/
def condNe (a b : Word) : Bool := decide (a ≠ b)

/-- BLT's condition: signed less than (R172). -/
def condLt (a b : Word) : Bool := decide (signed a < signed b)

end Sys2Proof.Machine
end

