-- ==== Sys2Proof/Machine/Control.lean ====
section
/-! DEFINITION. BRANCH, BNE, BLT (spec 42_control). -/

namespace Sys2Proof.Machine

/-- A taken branch (R173): the physical target is checked, then becomes the PC; when the check fails the PC keeps its
pre-incremented value (R174). -/
def takeBranch (k : Word) (s : State) : Flow Unit :=
  (check (s.physical k) s).andThen fun _ s => .go () (s.setReg .pc (s.physical k))

/-- BRANCH (R170). -/
def execBranch (k : Word) (s : State) : Host.Outcome State Fault Refusal := (takeBranch k s).finish

/-- BNE (R171): a branch not taken does not check its target. -/
def execBne (s1 s2 : Reg) (k : Word) (s : State) : Host.Outcome State Fault Refusal :=
  if condNe (s.reg s1) (s.reg s2) then (takeBranch k s).finish else .next s

/-- BLT (R172). -/
def execBlt (s1 s2 : Reg) (k : Word) (s : State) : Host.Outcome State Fault Refusal :=
  if condLt (s.reg s1) (s.reg s2) then (takeBranch k s).finish else .next s

end Sys2Proof.Machine
end

