-- ==== Sys2Proof/Machine/StackMemory.lean ====
section
/-! DEFINITION. PUSH, POP, LOAD, SAVE (spec 43_stack_memory). -/

namespace Sys2Proof.Machine

/-- PUSH (R190): the source is sampled before SP moves. -/
def execPush (r : Reg) (s : State) : Host.Outcome State Fault Refusal := (push (s.reg r) s).finish

/-- POP (R191): the destination is written after SP has moved. -/
def execPop (d : Reg) (s : State) : Host.Outcome State Fault Refusal :=
  ((pop s).andThen fun v s => .go () (s.setReg d v)).finish

/-- LOAD (R192). -/
def execLoad (d o : Reg) (s : State) : Host.Outcome State Fault Refusal :=
  ((check (s.physical (s.reg o)) s).andThen fun _ s =>
    .go () (s.setReg d (s.memRead (s.physical (s.reg o))))).finish

/-- SAVE (R193). -/
def execSave (r o : Reg) (s : State) : Host.Outcome State Fault Refusal :=
  ((check (s.physical (s.reg o)) s).andThen fun _ s =>
    .go () (s.memWrite (s.physical (s.reg o)) (s.reg r))).finish

end Sys2Proof.Machine
end

