-- ==== Sys2Proof/Machine/Devices.lean ====
section
/-! DEFINITION. The device registry, OPEN, CLOSE, READ, WRITE and the spin retry (spec 46_devices R290–R298). -/

namespace Sys2Proof.Machine

/-- `find(id)`: the first registered device with that id (R291). -/
def State.findDev (s : State) (id : Int) : Option DeviceInfo := s.devs.find? fun d => d.id == id

/-- Change the open set of the device `find(id)` names. -/
def State.updateOpenSet (s : State) (id : Int) (f : List Nat → List Nat) : State :=
  { s with devs := updateFirst (fun d => d.id == id) (fun d => { d with openSet := f d.openSet }) s.devs }

/-- The PCB with identity `ref` gets block key `k` (R292). -/
def State.setBlock (s : State) (ref : Nat) (k : Option BlockKey) : State :=
  s.updatePcb ref fun p => { p with block := k }

/-- The first PCB in table order that is blocked with a key `m` accepts (R292). -/
def State.waiter (s : State) (m : BlockKey → Bool) : Option PCB :=
  s.procs.find? fun p =>
    match p.block with
    | some k => m k
    | none => false

/-- A CLOSE's match: any opener of the device (R292). -/
def openerOf (id : Int) (k : BlockKey) : Bool := decide (k.dev = id) && decide (k.op = .opening)

/-- A completion's match: exactly this key (R292). -/
def exactly (k : BlockKey) (k' : BlockKey) : Bool := decide (k' = k)

/-- `retry(n, pushOrder)` (R298): back to the TRAP, the words pushed again, the number on top, then the scheduler. -/
def retry (n : Word) (pushOrder : List Word) (s : State) : Flow Unit :=
  (pushAll (pushOrder ++ [n]) s.rewindPc).andThen fun _ s => schedule s

/-- The current process blocks with key `k` and the scheduler runs (R293, R296, R297). -/
def blockOn (ref : Nat) (k : BlockKey) (s : State) : Flow Unit := schedule (s.setBlock ref (some k))

/-- OPEN (R293), for the current PCB `c` and the popped device id. -/
def openDevice (c : PCB) (id : Int) (s : State) : Flow Unit :=
  match s.findDev id with
  | none => push s.cfg.eOpen s
  | some d =>
    if c.pid ∈ d.openSet then push s.cfg.eOpen s
    else
      let s1 := s.updateOpenSet id fun o => o ++ [c.pid]
      if d.dev.isSharable || d.openSet.isEmpty then push Config.success s1
      else
        (push Config.success (s1.setBlock c.ref (some ⟨id, .opening, 0⟩))).andThen fun _ s => schedule s

/-- `sysOpen()` (R293). -/
def sysOpen (s : State) : Flow Unit :=
  (pop s).andThen fun id s => withCurrent s fun c => openDevice c (signed id) s

/-- CLOSE (R294), for the current PCB `c` and the popped device id: one waiter at most is woken, and the scheduler is not
invoked. -/
def closeDevice (c : PCB) (id : Int) (s : State) : Flow Unit :=
  match s.findDev id with
  | none => push s.cfg.eClose s
  | some d =>
    if c.pid ∈ d.openSet then
      let s1 := s.updateOpenSet id fun o => o.filter fun q => q != c.pid
      match s1.waiter (openerOf id) with
      | none => push Config.success s1
      | some w => push Config.success (s1.setBlock w.ref none)
    else push s.cfg.eClose s

/-- `sysClose()` (R294). -/
def sysClose (s : State) : Flow Unit :=
  (pop s).andThen fun id s => withCurrent s fun c => closeDevice c (signed id) s

/-- READ (R296), for the current PCB `c` and the two popped words. -/
def readDevice (c : PCB) (id addr : Word) (s : State) : Flow Unit :=
  match s.findDev (signed id) with
  | none => push s.cfg.eRead s
  | some d =>
    if c.pid ∈ d.openSet ∧ d.dev.isReadable = true then
      if s.askAvailable.1 then
        blockOn c.ref ⟨signed id, .reading, addr⟩ (s.askAvailable.2.emit (.devRead (signed id) addr))
      else retry 5 [addr, id] s.askAvailable.2
    else push s.cfg.eRead s

/-- `sysRead()` (R296). -/
def sysRead (s : State) : Flow Unit :=
  (pop s).andThen fun id s => (pop s).andThen fun addr s => withCurrent s fun c => readDevice c id addr s

/-- WRITE (R297), for the current PCB `c` and the three popped words. -/
def writeDevice (c : PCB) (id addr data : Word) (s : State) : Flow Unit :=
  match s.findDev (signed id) with
  | none => push s.cfg.eWrite s
  | some d =>
    if c.pid ∈ d.openSet ∧ d.dev.isWriteable = true then
      if s.askAvailable.1 then
        blockOn c.ref ⟨signed id, .writing, addr⟩ (s.askAvailable.2.emit (.devWrite (signed id) addr data))
      else retry 6 [data, addr, id] s.askAvailable.2
    else push s.cfg.eWrite s

/-- `sysWrite()` (R297). -/
def sysWrite (s : State) : Flow Unit :=
  (pop s).andThen fun id s => (pop s).andThen fun addr s => (pop s).andThen fun data s =>
    withCurrent s fun c => writeDevice c id addr data s

end Sys2Proof.Machine
end

