-- ==== Sys2Proof/Machine/Trap.lean ====
section
/-! DEFINITION. TRAP, the dispatcher and the process system calls (spec 44_trap_syscalls). -/

namespace Sys2Proof.Machine

/-- `sysExit()` (R215): the caller is removed, its registers are not saved, its memory and its open devices stay as they
are. -/
def sysExit (s : State) : Flow Unit :=
  withCurrent s fun c =>
    schedule { s with procs := s.procs.filter (fun p => p.ref != c.ref), cur := none }

/-- `sysOutput()` (R216). -/
def sysOutput (s : State) : Flow Unit := (pop s).andThen fun v s => .go () (s.emit (.output v))

/-- `sysGetpid()` (R217): the id, a natural, is pushed as a word (log 11). -/
def sysGetpid (s : State) : Flow Unit := withCurrent s fun c => push (BitVec.ofNat 32 c.pid) s

/-- The programs with the least `execCount`, with their places in the registry (R219). -/
def leastUsed (progs : List Program) : List (Program × Nat) :=
  progs.zipIdx.filter fun p => progs.all fun q => decide (p.1.execCount ≤ q.execCount)

/-- Count one more EXEC of the program at place `n` (R219). -/
def State.countExec (s : State) (n : Nat) : State :=
  { s with progs := s.progs.modify n fun P => { P with execCount := P.execCount + 1 } }

/-- `sysExec()` (R219): any least used program is the choice of some draw; its count is raised before it is loaded.
(`leastUsed` is empty only when the registry is: `Laws.leastUsed_eq_nil`.) -/
def sysExec (s : State) : Flow Unit :=
  match leastUsed s.progs with
  | [] => raise .noPrograms s
  | P :: Ps =>
    let chosen := (P :: Ps).getD (s.choose (Ps.length + 1)).1 P
    createUserProcess chosen.1 ((s.choose (Ps.length + 1)).2.countExec chosen.2)

/-- `sysYield()` (R220). -/
def sysYield (s : State) : Flow Unit := schedule s

/-- `sysCoredump()` (R221): the registers as they are after the number was popped, three popped words, then EXIT. -/
def sysCoredump (s : State) : Flow Unit :=
  let x := s.regs
  (pop s).andThen fun s1 s => (pop s).andThen fun s2 s => (pop s).andThen fun s3 s =>
    sysExit (s.emit (.coreDump x s1 s2 s3))

/-- `systemCall()` (R211): the number is popped, then dispatched; an unrecognised one does nothing more (R214). -/
def systemCall (s : State) : Flow Unit :=
  (pop s).andThen fun n s =>
    match n.toNat with
    | 0 => sysExit s
    | 1 => sysOutput s
    | 2 => sysGetpid s
    | 3 => sysOpen s
    | 4 => sysClose s
    | 5 => sysRead s
    | 6 => sysWrite s
    | 7 => sysExec s
    | 8 => sysYield s
    | 9 => sysCoredump s
    | _ => .go () s

/-- TRAP (R210). -/
def execTrap (s : State) : Host.Outcome State Fault Refusal := (systemCall s).finish

end Sys2Proof.Machine
end

