-- ==== Sys2Proof/Machine/Dispatch.lean ====
section
/-! DEFINITION. The meaning of every instruction, one arm per constructor of `Instr`. -/

namespace Sys2Proof.Machine

/-- The body of an instruction, run after the fetch, the pre-increment and the decode (R134). -/
def exec (i : Instr) (s : State) : Host.Outcome State Fault Refusal :=
  match i with
  | .set d k => Sys2Proof.Machine.execSet d k s
  | .add d a b => Sys2Proof.Machine.execAdd d a b s
  | .sub d a b => Sys2Proof.Machine.execSub d a b s
  | .mul d a b => Sys2Proof.Machine.execMul d a b s
  | .div d a b => Sys2Proof.Machine.execDiv d a b s
  | .copy d a => Sys2Proof.Machine.execCopy d a s
  | .branch k => Sys2Proof.Machine.execBranch k s
  | .bne a b k => Sys2Proof.Machine.execBne a b k s
  | .blt a b k => Sys2Proof.Machine.execBlt a b k s
  | .pop d => Sys2Proof.Machine.execPop d s
  | .push a => Sys2Proof.Machine.execPush a s
  | .load d o => Sys2Proof.Machine.execLoad d o s
  | .save a o => Sys2Proof.Machine.execSave a o s
  | .trap => Sys2Proof.Machine.execTrap s

end Sys2Proof.Machine
end

