-- ==== Sys2Proof/Machine/Interrupts.lean ====
section
/-! DEFINITION. The three interrupts (spec 46_devices R300–R302, 60_exceptions R331, R332). -/

namespace Sys2Proof.Machine

/-- `if cur.pid = IDLE_PID then schedule()` (R302). -/
def leaveIdle (s : State) : Flow Unit := if s.idling then schedule s else .go () s

/-- `interruptIOReadComplete(devId, addr, data)` (R300). -/
def interruptReadComplete (dev : Int) (addr data : Word) (s : State) : Flow Unit :=
  match s.findDev dev with
  | none => .go () s
  | some _ =>
    match s.waiter (exactly ⟨dev, .reading, addr⟩) with
    | none => .go () s
    | some w =>
      (pcbPush w.ref data (s.setBlock w.ref none)).andThen fun _ s =>
      (pcbPush w.ref Config.success s).andThen fun _ s => leaveIdle s

/-- `interruptIOWriteComplete(devId, addr)` (R301): the double context switch. -/
def interruptWriteComplete (dev : Int) (addr : Word) (s : State) : Flow Unit :=
  match s.findDev dev with
  | none => .go () s
  | some _ =>
    match s.waiter (exactly ⟨dev, .writing, addr⟩) with
    | none => .go () s
    | some w =>
      withCurrent s fun o =>
        (restoreContext w.ref (saveContext o.ref (s.setBlock w.ref none))).andThen fun _ s =>
        (push Config.success { s with cur := some w.ref }).andThen fun _ s =>
        (restoreContext o.ref (saveContext w.ref s)).andThen fun _ s =>
          leaveIdle { s with cur := some o.ref }

/-- `interruptClock()` is `schedule()` (R332). -/
def interruptClock (s : State) : Flow Unit := schedule s

/-- Deliver one interrupt (R330, R331): its handler runs to completion, and no tick of an instruction is added. -/
def deliver (i : Interrupt) (s : State) : Flow Unit :=
  match i with
  | .readComplete dev addr data => interruptReadComplete dev addr data s
  | .writeComplete dev addr => interruptWriteComplete dev addr s
  | .clock => interruptClock s

end Sys2Proof.Machine
end

