-- ==== Sys2Proof/Machine/Step.lean ====
section
/-! DEFINITION. One step of the machine (spec 40_execution_cycle R130–R135, 60_exceptions R330, 70_reset_and_hazards R362). -/

namespace Sys2Proof.Machine

/-- One instruction step (R130–R134): tick, fetch, pre-increment, decode, execute. -/
def engineStep (s : State) : Host.Outcome State Fault Refusal :=
  match fetch (s.addTicks Config.instrTicks) with
  | .stop o => o
  | .go t s1 =>
    match decodeOrRaise t s1.advancePc with
    | .stop o => o
    | .go i s2 => exec i s2

/-- One step: a halted machine is stuck (R44); parameters the spec does not admit are refused (R6); before the start the
host does its next boot duty (R362); then, at each instruction boundary, the host delivers an interrupt or the engine runs
(R130, R330). -/
def step (s : State) : Host.Outcome State Fault Refusal :=
  match s.halted with
  | some h => .fault (.machineHalted h)
  | none =>
    if s.cfg.ok then
      if s.started then
        match s.schedule with
        | [] => engineStep s
        | .engine :: turns => engineStep { s with schedule := turns }
        | .interrupt i :: turns => (deliver i { s with schedule := turns }).finish
      else (bootAction s).finish
    else .refused .badParameters

/-- `s` with the instruction whose bits are `w` stored where `step` fetches its next instruction, and made ready to fetch it
at once (log 8). -/
def State.withFetchWord (s : State) (nbits w : Nat) : State := s.readyToFetch.placeAtPc (tupleOfBits nbits w)

end Sys2Proof.Machine
end

