-- ==== Sys2Proof/Safety.lean ====
section
/-! DEFINITION. What a safe run means: the invariants the spec states (10_state R48, 20_memory R71, 45_scheduler R262), how
a run may end (60_exceptions R340), and the bytes of a word. -/

namespace Sys2Proof.Machine

/-- The PCB has been saved: its registers are present, and its ready count says so (R256, R262). -/
def PCB.Saved (p : PCB) : Prop := p.regs.isSome = true ∧ p.numReady ≠ 0

/-- The invariants between steps.  Two clauses say less than the spec's own wording, because a process may widen its window
(R33) and overwrite the idle program: ids are distinct among real processes only, and the current process is known not to
be blocked only when it is a real one (log 16). -/
structure State.Inv (s : State) : Prop where
  /-- Memory is in its canonical form. -/
  canonical : s.mem.wf = true
  /-- Nothing lies outside the memory array (R38, R71). -/
  within : s.mem.within s.cfg.memSize = true
  /-- A reference means one PCB (R41). -/
  refsDistinct : (s.procs.map fun p => p.ref).Nodup
  /-- References are never used twice. -/
  refsUsed : ∀ p ∈ s.procs, p.ref < s.nextRef
  /-- "Process ids are unique" (R48, item 4). -/
  idsDistinct : ((s.procs.map fun p => p.pid).filter fun i => decide (i ≠ s.cfg.idlePid)).Nodup
  /-- Ids are the idle id or were assigned from 1001 on (R43, R255). -/
  idsAssigned : ∀ p ∈ s.procs, p.pid = s.cfg.idlePid ∨ (Config.firstPid ≤ p.pid ∧ p.pid < s.nextPid)
  /-- The next id is at least the first one (R43). -/
  idsStart : Config.firstPid ≤ s.nextPid
  /-- The open sets have no duplicates (R46). -/
  openSets : ∀ d ∈ s.devs, d.openSet.Nodup
  /-- "Every PCB in `procs` other than `cur` has `regs` present" (R48, R262). -/
  othersSaved : ∀ p ∈ s.procs, s.cur ≠ some p.ref → p.Saved
  /-- A started, running machine has a current process (R48 item 1, R130). -/
  currentExists : s.halted = none → s.started = true → s.cur ≠ none
  /-- Before the start there is no current process only while none is loaded (C6). -/
  noneMeansEmpty : s.halted = none → s.cur = none → s.procs = []
  /-- `cur` refers to a PCB of the table (R41). -/
  currentListed : s.halted = none → ∀ r, s.cur = some r → ∃ p ∈ s.procs, p.ref = r
  /-- "Blocked PCBs are never selected to run" (R48 item 2). -/
  currentUnblocked : s.halted = none → ∀ p ∈ s.procs, s.cur = some p.ref → p.pid ≠ s.cfg.idlePid → p.block = none

/-- The run ended normally: every process has exited (R340). -/
def State.endedNormally (s : State) : Bool := decide (s.halted = some .noProcesses)

/-- The run failed: a hardware fault, or no space or no program for a load (R323, R340). -/
def State.failed (s : State) : Bool := s.halted.isSome && !s.endedNormally

/-- Byte address `n` lies in the word at physical address `a`. -/
def inWord (n : Nat) (a : Word) : Prop := n / 4 = a.toNat

/-- The engine takes the next step: the machine is running, its parameters are admitted, it is started, and no host event is
due at this boundary (R130). -/
def State.EngineTurn (s : State) : Prop :=
  s.halted = none ∧ s.cfg.ok = true ∧ s.started = true ∧ ∀ i turns, s.schedule ≠ .interrupt i :: turns

/-- The host's turn is used up. -/
def State.takeTurn (s : State) : State := { s with schedule := s.schedule.tail }

/-- The word on top of the current process's stack. -/
def State.top (s : State) : Word := s.mem.readWord s.regs.sp.toNat

/-- SP passes the check of a pop (R137). -/
def State.canPop (s : State) : Prop := s.allows s.regs.sp = true

/-- After a pop: SP one word up, clamped (R137). -/
def State.popped (s : State) : State := { s with regs := s.regs.raiseSp }

/-- The decremented, clamped SP passes the check of a push (R136). -/
def State.canPush (s : State) : Prop := s.allows s.regs.lowerSp.sp = true

/-- After a push of `v`: SP one word down, clamped, and `v` stored there (R136). -/
def State.pushed (s : State) (v : Word) : State :=
  { s with regs := s.regs.lowerSp, mem := s.mem.writeWord s.regs.lowerSp.sp.toNat v }

/-- A process the scheduler may select: not blocked and not the idle one (R260). -/
def State.Ready (s : State) (p : PCB) : Prop := p ∈ s.procs ∧ p.block = none ∧ p.pid ≠ s.cfg.idlePid

end Sys2Proof.Machine
end

