-- ==== Sys2Proof/Certificates/Slice0/Obligations.lean ====
section
/-! DEFINITION. The statements for the provers.  Each docstring names the rules of the spec it formalises; one that ends
"Derived; rests on …" names the entries of notes/assumptions and the spec's own decisions D<n> (92_eei_decisions) it depends
on. -/

open Sys2Proof Sys2Proof.Machine

/-! ### Encoding -/

/-- R100, R102, R109: decoding the sixteen bytes of an encoded instruction, whatever follows them, gives the instruction
and the bytes after it. Derived; rests on log 3 (bytes), log 14 (the numbers of R102 and R31). -/
def Obligations.DecodeOfEncodedBytesIsTheInstruction : Prop :=
  ∀ (i : Instr) (rest : List Byte), decodeBytes ((encode i).bytes ++ rest) = .ok (i, rest)

/-- R104, R106, R108: the decoder accepts exactly the tuples with a recognised opcode and every reg field of it in 0..8.
Derived; rests on log 14 (the numbers of R102); the spec's decisions D4, D5. -/
def Obligations.DecodeAcceptsExactlyTheLegalTuples : Prop :=
  ∀ t : Tuple, (∃ i, decode t = .ok i) ↔ t.legal = true

/-- R105: tuples that differ only in ignored words decode alike, and the words a legal tuple does not ignore are the
words of the instruction it decodes to. -/
def Obligations.IgnoredWordsHaveNoEffect : Prop :=
  (∀ t u : Tuple, t.clearIgnored = u.clearIgnored → decode t = decode u) ∧
    ∀ (t : Tuple) (i : Instr), decode t = .ok i → encode i = t.clearIgnored

/-- R102, R110 and the spec's examples: some tuples written out word by word, and the assembler lines of R110. Derived;
rests on log 14 (the numbers of R102 and R31); the spec's decision D42. -/
def Obligations.ExampleTuplesDecode : Prop :=
  decode ⟨0, 0, 5, 0⟩ = .ok (.set .r0 5) ∧ decode ⟨1, 0, 1, 2⟩ = .ok (.add .r0 .r1 .r2) ∧
    decode ⟨4, 0, 1, 2⟩ = .ok (.div .r0 .r1 .r2) ∧ decode ⟨5, 4, 5, 0⟩ = .ok (.copy .r4 .pc) ∧
    decode ⟨7, 1, 2, 16⟩ = .ok (.bne .r1 .r2 16) ∧ decode ⟨8, 1, 2, 16⟩ = .ok (.blt .r1 .r2 16) ∧
    decode ⟨10, 6, 0, 0⟩ = .ok (.push .sp) ∧ decode ⟨9, 2, 0, 0⟩ = .ok (.pop .r2) ∧
    decode ⟨11, 2, 0, 0⟩ = .ok (.load .r2 .r0) ∧ decode ⟨12, 1, 0, 0⟩ = .ok (.save .r1 .r0) ∧
    decode ⟨6, 0, 9, 9⟩ = .ok (.branch 0) ∧ decode ⟨15, 123, -5, 7⟩ = .ok .trap ∧
    assemble ⟨.set, [.name .r0, .int 5, .int 0]⟩ = some ⟨0, 0, 5, 0⟩ ∧
    assemble ⟨.set, [.name .r0, .int 5]⟩ = some ⟨0, 0, 5, 0⟩ ∧ assemble ⟨.push, [.name .r4]⟩ = some ⟨10, 4, 0, 0⟩ ∧
    assemble ⟨.trap, []⟩ = some ⟨15, 0, 0, 0⟩ ∧ assemble ⟨.bne, [.name .r1, .name .r2, .int 16]⟩ = some ⟨7, 1, 2, 16⟩

/-! ### The instruction step -/

/-- R130, R132: when the engine takes the step, all four words pass the check and they decode to `i`, the step is the
body of `i` one tick later with PC advanced by 4. Derived; rests on log 7 (the host's turn); the spec's decision D22
(the tick). -/
def Obligations.StepRunsTheDecodedInstruction : Prop :=
  ∀ (s : State) (i : Instr), s.EngineTurn →
    (∀ n : Nat, n < 4 → s.allows (wrap (signed s.regs.pc + n)) = true) →
    decode ⟨s.mem.readWord s.regs.pc.toNat, s.mem.readWord (s.regs.pc.toNat + 1), s.mem.readWord (s.regs.pc.toNat + 2),
      s.mem.readWord (s.regs.pc.toNat + 3)⟩ = .ok i →
    step s = exec i { s.takeTurn with ticks := s.ticks + 1, regs := { s.regs with pc := s.regs.pc + 4 } }

/-- R131: the four words are checked lowest address first; the first that fails halts the machine with its address, PC
not advanced and nothing else changed but `ticks`. Derived; rests on log 7 (the host's turn); the spec's decisions D9,
D22, D36. -/
def Obligations.FetchFaultReportsTheFirstFailingWord : Prop :=
  ∀ (s : State) (n : Nat), s.EngineTurn → n < 4 →
    (∀ m : Nat, m < n → s.allows (wrap (signed s.regs.pc + m)) = true) →
    s.allows (wrap (signed s.regs.pc + n)) = false →
    step s = .next { s.takeTurn with
      ticks := s.ticks + 1
      out := s.out ++ [.diagnostic (.illegalMemoryAccess (wrap (signed s.regs.pc + n)))]
      halted := some (.illegalMemoryAccess (wrap (signed s.regs.pc + n))) }

/-- R106, R133: a fetched tuple that is no legal instruction halts the machine with all four words, PC already advanced,
and has no other effect. Derived; rests on log 7 (the host's turn), log 14 (the numbers of R102); the spec's decisions
D4, D5, D22, D36. -/
def Obligations.IllegalTupleHaltsWithItsFourWords : Prop :=
  ∀ (s : State) (t : Tuple), s.EngineTurn →
    (∀ n : Nat, n < 4 → s.allows (wrap (signed s.regs.pc + n)) = true) →
    t = ⟨s.mem.readWord s.regs.pc.toNat, s.mem.readWord (s.regs.pc.toNat + 1), s.mem.readWord (s.regs.pc.toNat + 2),
      s.mem.readWord (s.regs.pc.toNat + 3)⟩ → t.legal = false →
    step s = .next { s.takeTurn with
      ticks := s.ticks + 1
      regs := { s.regs with pc := s.regs.pc + 4 }
      out := s.out ++ [.diagnostic (.illegalInstruction t)]
      halted := some (.illegalInstruction t) }

/-- R44: a halted machine takes no further step of any kind, whatever the host has scheduled; the machine is running at
reset. Derived; rests on the spec's decisions D13, D36. -/
def Obligations.HaltedMachineTakesNoStep : Prop :=
  (∀ (s : State) (h : HaltReason), s.halted = some h → step s = .fault (.machineHalted h)) ∧
    ∀ p : Config.Params, (State.resetWith p).halted = none

/-! ### Arithmetic -/

/-- R150: SET decodes from opcode 0 with any third argument, is illegal with a destination outside 0..8, and writes its
immediate to the destination, changing nothing else. -/
def Obligations.SetWritesItsImmediate : Prop :=
  (∀ (d : Reg) (k x : Word), decode ⟨0, d.index, k, x⟩ = .ok (.set d k)) ∧
  (∀ w1 k x : Word, regField w1 = false → ∃ e, decode ⟨0, w1, k, x⟩ = .error e) ∧
  ∀ (d : Reg) (k : Word) (s : State), ∃ t, exec (.set d k) s = .next t ∧ t.reg d = k ∧
    (∀ r, r ≠ d → t.reg r = s.reg r) ∧ t = { s with regs := t.regs }

/-- R151, R156: ADD writes the sum of its two sources modulo 2^32 and changes nothing else. Derived; rests on log 14
(the numbers of R102), log 15 (the word laws of R156); the spec's decision D2. -/
def Obligations.AddWritesTheWrappedSum : Prop :=
  (∀ d a b : Reg, decode ⟨1, d.index, a.index, b.index⟩ = .ok (.add d a b)) ∧
  (∀ w1 w2 w3 : Word, ¬(regField w1 = true ∧ regField w2 = true ∧ regField w3 = true) →
    ∃ e, decode ⟨1, w1, w2, w3⟩ = .error e) ∧
  ∀ (d a b : Reg) (s : State), ∃ t, exec (.add d a b) s = .next t ∧
    t.reg d = wrap (signed (s.reg a) + signed (s.reg b)) ∧
    (∀ r, r ≠ d → t.reg r = s.reg r) ∧ t = { s with regs := t.regs }

/-- R152, R156: SUB writes the first source minus the second modulo 2^32 and changes nothing else. Derived; rests on log
14 (the numbers of R102), log 15 (the word laws of R156); the spec's decision D2. -/
def Obligations.SubWritesTheWrappedDifference : Prop :=
  (∀ d a b : Reg, decode ⟨2, d.index, a.index, b.index⟩ = .ok (.sub d a b)) ∧
  (∀ w1 w2 w3 : Word, ¬(regField w1 = true ∧ regField w2 = true ∧ regField w3 = true) →
    ∃ e, decode ⟨2, w1, w2, w3⟩ = .error e) ∧
  ∀ (d a b : Reg) (s : State), ∃ t, exec (.sub d a b) s = .next t ∧
    t.reg d = wrap (signed (s.reg a) - signed (s.reg b)) ∧
    (∀ r, r ≠ d → t.reg r = s.reg r) ∧ t = { s with regs := t.regs }

/-- R153, R156: MUL writes the low 32 bits of the signed product and changes nothing else. Derived; rests on log 14 (the
numbers of R102), log 15 (the word laws of R156); the spec's decision D2. -/
def Obligations.MulWritesTheWrappedProduct : Prop :=
  (∀ d a b : Reg, decode ⟨3, d.index, a.index, b.index⟩ = .ok (.mul d a b)) ∧
  (∀ w1 w2 w3 : Word, ¬(regField w1 = true ∧ regField w2 = true ∧ regField w3 = true) →
    ∃ e, decode ⟨3, w1, w2, w3⟩ = .error e) ∧
  ∀ (d a b : Reg) (s : State), ∃ t, exec (.mul d a b) s = .next t ∧
    t.reg d = wrap (signed (s.reg a) * signed (s.reg b)) ∧
    (∀ r, r ≠ d → t.reg r = s.reg r) ∧ t = { s with regs := t.regs }

/-- R154: DIV with a zero divisor raises the divide-by-zero fault and writes no register; with any other divisor it
writes the wrapped quotient truncated toward zero and changes nothing else. Derived; rests on log 14 (the numbers of
R102), log 15 (the word laws of R156); the spec's decision D2. -/
def Obligations.DivWritesTheQuotientOrHalts : Prop :=
  (∀ d a b : Reg, decode ⟨4, d.index, a.index, b.index⟩ = .ok (.div d a b)) ∧
  (∀ w1 w2 w3 : Word, ¬(regField w1 = true ∧ regField w2 = true ∧ regField w3 = true) →
    ∃ e, decode ⟨4, w1, w2, w3⟩ = .error e) ∧
  (∀ (d a b : Reg) (s : State), s.reg b = 0 → exec (.div d a b) s =
    .next { s with out := s.out ++ [.diagnostic .divideByZero], halted := some .divideByZero }) ∧
  ∀ (d a b : Reg) (s : State), s.reg b ≠ 0 → ∃ t, exec (.div d a b) s = .next t ∧
    t.reg d = wrap (Int.tdiv (signed (s.reg a)) (signed (s.reg b))) ∧
    (∀ r, r ≠ d → t.reg r = s.reg r) ∧ t = { s with regs := t.regs }

/-- R157: at every sign combination the quotient is `sign(n) * sign(d) * floor(|n| / |d|)`, exactly, but for the one
quotient that does not fit. Derived; rests on log 15 (the word laws of R156), which the spec derives in R157. -/
def Obligations.DivQuotientAtEverySignCombination : Prop :=
  ∀ (d a b : Reg) (s : State), s.reg b ≠ 0 → ∃ t, exec (.div d a b) s = .next t ∧
    signed (t.reg d) =
      if signed (s.reg a) = -2147483648 ∧ signed (s.reg b) = -1 then -2147483648
      else (signed (s.reg a)).sign * (signed (s.reg b)).sign *
        (((signed (s.reg a)).natAbs / (signed (s.reg b)).natAbs : Nat) : Int)

/-- R155: COPY writes the source's word to the destination and changes nothing else. -/
def Obligations.CopyWritesItsSource : Prop :=
  (∀ (d a : Reg) (x : Word), decode ⟨5, d.index, a.index, x⟩ = .ok (.copy d a)) ∧
  (∀ w1 w2 x : Word, ¬(regField w1 = true ∧ regField w2 = true) → ∃ e, decode ⟨5, w1, w2, x⟩ = .error e) ∧
  ∀ (d a : Reg) (s : State), ∃ t, exec (.copy d a) s = .next t ∧ t.reg d = s.reg a ∧
    (∀ r, r ≠ d → t.reg r = s.reg r) ∧ t = { s with regs := t.regs }

/-! ### The check and control transfer -/

/-- R73: `Check(a)` passes exactly when `BASE ≤ a ≤ LIM` and `0 ≤ a < MEM_SIZE`, signed; otherwise it halts with the
offending address and changes nothing else. Derived; rests on the spec's decisions D10, D36. -/
def Obligations.CheckIsTheWindowAndMemoryTest : Prop :=
  ∀ (a : Word) (s : State),
    ((signed s.regs.base ≤ signed a ∧ signed a ≤ signed s.regs.lim ∧ 0 ≤ signed a ∧ signed a < s.cfg.memSize) →
      check a s = .go () s) ∧
    (¬(signed s.regs.base ≤ signed a ∧ signed a ≤ signed s.regs.lim ∧ 0 ≤ signed a ∧ signed a < s.cfg.memSize) →
      check a s = .stop (.next { s with out := s.out ++ [.diagnostic (.illegalMemoryAccess a)],
                                        halted := some (.illegalMemoryAccess a) }))

/-- R170: BRANCH goes to `wrap(BASE + k)` when that passes the check, else halts with it and leaves PC as it was
advanced. -/
def Obligations.BranchGoesToItsCheckedTarget : Prop :=
  (∀ k x y : Word, decode ⟨6, k, x, y⟩ = .ok (.branch k)) ∧
  ∀ (k a : Word) (s : State), a = wrap (signed s.regs.base + signed k) →
    (s.allows a = true → exec (.branch k) s = .next { s with regs := { s.regs with pc := a } }) ∧
    (s.allows a = false → exec (.branch k) s =
      .next { s with out := s.out ++ [.diagnostic (.illegalMemoryAccess a)], halted := some (.illegalMemoryAccess a) })

/-- R171: BNE branches when the two full words differ; when they are equal it changes nothing and checks nothing. -/
def Obligations.BneBranchesWhenTheWordsDiffer : Prop :=
  (∀ (r q : Reg) (k : Word), decode ⟨7, r.index, q.index, k⟩ = .ok (.bne r q k)) ∧
  (∀ w1 w2 k : Word, ¬(regField w1 = true ∧ regField w2 = true) → ∃ e, decode ⟨7, w1, w2, k⟩ = .error e) ∧
  ∀ (r q : Reg) (k a : Word) (s : State), a = wrap (signed s.regs.base + signed k) →
    (s.reg r = s.reg q → exec (.bne r q k) s = .next s) ∧
    (s.reg r ≠ s.reg q → s.allows a = true →
      exec (.bne r q k) s = .next { s with regs := { s.regs with pc := a } }) ∧
    (s.reg r ≠ s.reg q → s.allows a = false → exec (.bne r q k) s =
      .next { s with out := s.out ++ [.diagnostic (.illegalMemoryAccess a)], halted := some (.illegalMemoryAccess a) })

/-- R172: BLT branches when the first register is less than the second, signed; else it changes nothing and checks
nothing. Derived; rests on log 14 (the numbers of R102 and the signed word); the spec's decision D1. -/
def Obligations.BltBranchesWhenSignedLess : Prop :=
  (∀ (r q : Reg) (k : Word), decode ⟨8, r.index, q.index, k⟩ = .ok (.blt r q k)) ∧
  (∀ w1 w2 k : Word, ¬(regField w1 = true ∧ regField w2 = true) → ∃ e, decode ⟨8, w1, w2, k⟩ = .error e) ∧
  ∀ (r q : Reg) (k a : Word) (s : State), a = wrap (signed s.regs.base + signed k) →
    (¬ signed (s.reg r) < signed (s.reg q) → exec (.blt r q k) s = .next s) ∧
    (signed (s.reg r) < signed (s.reg q) → s.allows a = true →
      exec (.blt r q k) s = .next { s with regs := { s.regs with pc := a } }) ∧
    (signed (s.reg r) < signed (s.reg q) → s.allows a = false → exec (.blt r q k) s =
      .next { s with out := s.out ++ [.diagnostic (.illegalMemoryAccess a)], halted := some (.illegalMemoryAccess a) })

/-! ### Stack and memory -/

/-- R190, R136: PUSH moves SP down one word unless it is at (or below) BASE, checks it, and stores there the word its
source held before SP moved; when the check fails the machine halts with SP's move kept and memory not written. Derived;
rests on log 14 (the numbers of R102); the spec's decisions D6, D7, D8. -/
def Obligations.PushStoresAtTheClampedStackPointer : Prop :=
  (∀ (r : Reg) (x y : Word), decode ⟨10, r.index, x, y⟩ = .ok (.push r)) ∧
  (∀ w1 x y : Word, regField w1 = false → ∃ e, decode ⟨10, w1, x, y⟩ = .error e) ∧
  ∀ (r : Reg) (a : Word) (s : State), a = (if signed s.regs.base < signed s.regs.sp then s.regs.sp - 1 else s.regs.sp) →
    (s.allows a = true → ∃ t, exec (.push r) s = .next t ∧ t.regs = { s.regs with sp := a } ∧
      (s.mem.wf = true → t.mem.readWord a.toNat = s.reg r) ∧
      (∀ n, ¬ inWord n a → t.mem.readByte n = s.mem.readByte n) ∧
      t = { s with regs := t.regs, mem := t.mem }) ∧
    (s.allows a = false → exec (.push r) s =
      .next { s with regs := { s.regs with sp := a }, out := s.out ++ [.diagnostic (.illegalMemoryAccess a)],
                     halted := some (.illegalMemoryAccess a) })

/-- R191, R137: POP checks SP, moves it up one word unless it is at (or above) LIM, then writes the word it pointed at
to the destination; when the check fails the machine halts and nothing else changes. Derived; rests on log 14 (the
numbers of R102); the spec's decisions D6, D7, D8. -/
def Obligations.PopReadsThenRaisesTheStackPointer : Prop :=
  (∀ (d : Reg) (x y : Word), decode ⟨9, d.index, x, y⟩ = .ok (.pop d)) ∧
  (∀ w1 x y : Word, regField w1 = false → ∃ e, decode ⟨9, w1, x, y⟩ = .error e) ∧
  ∀ (d : Reg) (s : State),
    (s.allows s.regs.sp = true → ∃ t, exec (.pop d) s = .next t ∧ t.reg d = s.mem.readWord s.regs.sp.toNat ∧
      (d ≠ .sp → t.regs.sp = if signed s.regs.sp < signed s.regs.lim then s.regs.sp + 1 else s.regs.sp) ∧
      (∀ r, r ≠ d → r ≠ .sp → t.reg r = s.reg r) ∧ t = { s with regs := t.regs }) ∧
    (s.allows s.regs.sp = false → exec (.pop d) s =
      .next { s with out := s.out ++ [.diagnostic (.illegalMemoryAccess s.regs.sp)],
                     halted := some (.illegalMemoryAccess s.regs.sp) })

/-- R192: LOAD reads the word at `wrap(BASE + x[o])` into the destination when that address passes the check, else halts
with it and writes no register. -/
def Obligations.LoadReadsTheCheckedWord : Prop :=
  (∀ (d o : Reg) (x : Word), decode ⟨11, d.index, o.index, x⟩ = .ok (.load d o)) ∧
  (∀ w1 w2 x : Word, ¬(regField w1 = true ∧ regField w2 = true) → ∃ e, decode ⟨11, w1, w2, x⟩ = .error e) ∧
  ∀ (d o : Reg) (a : Word) (s : State), a = wrap (signed s.regs.base + signed (s.reg o)) →
    (s.allows a = true → ∃ t, exec (.load d o) s = .next t ∧ t.reg d = s.mem.readWord a.toNat ∧
      (∀ r, r ≠ d → t.reg r = s.reg r) ∧ t = { s with regs := t.regs }) ∧
    (s.allows a = false → exec (.load d o) s =
      .next { s with out := s.out ++ [.diagnostic (.illegalMemoryAccess a)], halted := some (.illegalMemoryAccess a) })

/-- R193: SAVE stores its source at `wrap(BASE + x[o])` when that address passes the check, every other byte and every
register being kept; else it halts and writes nothing. -/
def Obligations.SaveWritesTheCheckedWord : Prop :=
  (∀ (r o : Reg) (x : Word), decode ⟨12, r.index, o.index, x⟩ = .ok (.save r o)) ∧
  (∀ w1 w2 x : Word, ¬(regField w1 = true ∧ regField w2 = true) → ∃ e, decode ⟨12, w1, w2, x⟩ = .error e) ∧
  ∀ (r o : Reg) (a : Word) (s : State), a = wrap (signed s.regs.base + signed (s.reg o)) →
    (s.allows a = true → ∃ t, exec (.save r o) s = .next t ∧ (s.mem.wf = true → t.mem.readWord a.toNat = s.reg r) ∧
      (∀ n, ¬ inWord n a → t.mem.readByte n = s.mem.readByte n) ∧ t = { s with mem := t.mem }) ∧
    (s.allows a = false → exec (.save r o) s =
      .next { s with out := s.out ++ [.diagnostic (.illegalMemoryAccess a)], halted := some (.illegalMemoryAccess a) })

/-- R138: a PCB-scoped push onto a process that is not current works on its saved registers and window, and touches
neither the live registers nor the ticks; onto the current one it is the engine's push. Derived; rests on the spec's
decision D43. -/
def Obligations.PcbPushUsesTheSavedRegisters : Prop :=
  ∀ (s : State) (p : PCB) (x : Regs) (v a : Word), s.findPcb p.ref = some p →
    (s.cur = some p.ref → pcbPush p.ref v s = push v s) ∧
    (s.cur ≠ some p.ref → p.regs = some x →
      a = (if signed x.base < signed x.sp then x.sp - 1 else x.sp) →
      ((signed x.base ≤ signed a ∧ signed a ≤ signed x.lim ∧ 0 ≤ signed a ∧ signed a < s.cfg.memSize) →
        ∃ t, pcbPush p.ref v s = .go () t ∧ t = { s with mem := t.mem, procs := t.procs } ∧
          t.findPcb p.ref = some { p with regs := some { x with sp := a } } ∧
          (∀ r, r ≠ p.ref → t.findPcb r = s.findPcb r) ∧
          (s.mem.wf = true → t.mem.readWord a.toNat = v) ∧
          (∀ n, ¬ inWord n a → t.mem.readByte n = s.mem.readByte n)) ∧
      (¬(signed x.base ≤ signed a ∧ signed a ≤ signed x.lim ∧ 0 ≤ signed a ∧ signed a < s.cfg.memSize) →
        ∃ t, pcbPush p.ref v s = .stop (.next t) ∧ t.mem = s.mem ∧ t.regs = s.regs ∧ t.ticks = s.ticks ∧
          t.halted = some (.illegalMemoryAccess a)))

/-- R139: a push or pop keeps SP inside `[BASE, LIM]`; a PUSH then a POP gives the pushed word back, with SP restored
when it was above BASE; at BASE the word at BASE is overwritten and the POP leaves SP one above it. Derived; rests on
the spec's decision D7 and its derivation in R139. -/
def Obligations.StackPointerStaysInTheWindow : Prop :=
  (∀ (v : Word) (s t : State), push v s = .go () t → signed s.regs.base ≤ signed s.regs.sp →
    signed s.regs.sp ≤ signed s.regs.lim →
    signed t.regs.base ≤ signed t.regs.sp ∧ signed t.regs.sp ≤ signed t.regs.lim) ∧
  (∀ (v : Word) (s t : State), pop s = .go v t → signed s.regs.base ≤ signed s.regs.sp →
    signed s.regs.sp ≤ signed s.regs.lim →
    signed t.regs.base ≤ signed t.regs.sp ∧ signed t.regs.sp ≤ signed t.regs.lim) ∧
  (∀ (r d : Reg) (s : State), s.mem.wf = true → signed s.regs.base < signed s.regs.sp →
    signed s.regs.sp ≤ signed s.regs.lim → 0 ≤ signed s.regs.base → signed s.regs.lim < s.cfg.memSize →
    ∃ t u, exec (.push r) s = .next t ∧ exec (.pop d) t = .next u ∧ u.reg d = s.reg r ∧
      (d ≠ .sp → u.regs.sp = s.regs.sp)) ∧
  (∀ (r d : Reg) (s : State), s.mem.wf = true → s.regs.sp = s.regs.base → signed s.regs.base < signed s.regs.lim →
    0 ≤ signed s.regs.base → signed s.regs.lim < s.cfg.memSize →
    ∃ t u, exec (.push r) s = .next t ∧ t.mem.readWord s.regs.base.toNat = s.reg r ∧ exec (.pop d) t = .next u ∧
      u.reg d = s.reg r ∧ (d ≠ .sp → u.regs.sp = s.regs.base + 1))

/-- R84, R86: after a SAVE every word of memory is the stored one at the stored address and unchanged at any other, and
a LOAD that runs next reads it so; after any sequence of word stores, first store first, a word is the one the last
store to its address left, or as before when there is none. Derived; rests on the spec's decision D39 and its derivation
in R86. -/
def Obligations.StoredWordIsReadBack : Prop :=
  (∀ (r o : Reg) (s : State), s.mem.wf = true → s.allows (s.physical (s.reg o)) = true →
    ∃ t, exec (.save r o) s = .next t ∧
      (∀ n : Nat, t.mem.readWord n = if n = (s.physical (s.reg o)).toNat then s.reg r else s.mem.readWord n) ∧
      ∀ d o' : Reg, s.allows (s.physical (s.reg o')) = true → ∃ u, exec (.load d o') t = .next u ∧
        u.reg d = if s.physical (s.reg o') = s.physical (s.reg o) then s.reg r
          else s.mem.readWord (s.physical (s.reg o')).toNat) ∧
  ∀ (m : Memory) (stores : List (Nat × Word)) (n : Nat), m.wf = true →
    (stores.foldl (fun m w => m.writeWord w.1 w.2) m).readWord n =
      match stores.reverse.find? (fun w => w.1 == n) with
      | some w => w.2
      | none => m.readWord n

/-! ### Frames -/

/-- R150–R155, R170–R172, R191, R192: an instruction that stores nothing leaves every byte of memory, and everything but
the live registers, as it was, or halts the machine with the registers as they were; the only registers it writes are
its destination, PC, and SP for POP. Derived; rests on the frame each rule leaves by naming what it writes. -/
def Obligations.NonStoringInstructionsFrame : Prop :=
  ∀ (i : Instr) (dest : Option Reg) (s t : State),
    ((∃ d k, i = .set d k ∧ dest = some d) ∨ (∃ d a b, i = .add d a b ∧ dest = some d) ∨
      (∃ d a b, i = .sub d a b ∧ dest = some d) ∨ (∃ d a b, i = .mul d a b ∧ dest = some d) ∨
      (∃ d a b, i = .div d a b ∧ dest = some d) ∨ (∃ d a, i = .copy d a ∧ dest = some d) ∨
      (∃ k, i = .branch k ∧ dest = none) ∨ (∃ a b k, i = .bne a b k ∧ dest = none) ∨
      (∃ a b k, i = .blt a b k ∧ dest = none) ∨ (∃ d, i = .pop d ∧ dest = some d) ∨
      (∃ d o, i = .load d o ∧ dest = some d)) →
    exec i s = .next t →
    (∀ n, t.mem.readByte n = s.mem.readByte n) ∧
    (∀ r : Reg, r ≠ .pc → dest ≠ some r → ((∃ d, i = .pop d) → r ≠ .sp) → t.reg r = s.reg r) ∧
    (t = { s with regs := t.regs } ∨
      ∃ h, t = { s with out := s.out ++ [.diagnostic h], halted := some h })

/-- R190, R193: PUSH and SAVE leave every byte outside the word they store to, every register but PUSH's SP, and
everything else as it was, unless they halt, and then every byte stays. Derived; rests on the frame each rule leaves by
naming what it writes. -/
def Obligations.StoringInstructionsFrame : Prop :=
  (∀ (r : Reg) (s t : State), exec (.push r) s = .next t →
    (∀ n, ¬ inWord n (if signed s.regs.base < signed s.regs.sp then s.regs.sp - 1 else s.regs.sp) →
      t.mem.readByte n = s.mem.readByte n) ∧
    (∀ q : Reg, q ≠ .sp → t.reg q = s.reg q) ∧
    (t = { s with regs := t.regs, mem := t.mem } ∨
      ∃ h, t = { s with regs := t.regs, out := s.out ++ [.diagnostic h], halted := some h })) ∧
  (∀ (r o : Reg) (s t : State), exec (.save r o) s = .next t →
    (∀ n, ¬ inWord n (s.physical (s.reg o)) → t.mem.readByte n = s.mem.readByte n) ∧
    (t = { s with mem := t.mem } ∨
      ∃ h, t = { s with out := s.out ++ [.diagnostic h], halted := some h }))

/-- R48 item 3, R74: no instruction but a system call changes a byte outside the window `[BASE, LIM]` or outside memory.
Derived; rests on the spec's decisions D9, D43. -/
def Obligations.NoInstructionWritesOutsideItsWindow : Prop :=
  ∀ (i : Instr) (s t : State) (n : Nat), i ≠ .trap → exec i s = .next t → t.mem.readByte n ≠ s.mem.readByte n →
    signed s.regs.base ≤ ((n / 4 : Nat) : Int) ∧ ((n / 4 : Nat) : Int) ≤ signed s.regs.lim ∧ n / 4 < s.cfg.memSize

/-! ### Whole-machine rules -/

/-- R75, R323, R45: in one step events are only added; a diagnostic is added exactly when the step halts the machine,
once, last, and with the halt's reason. Derived; rests on log 9 (the Diagnostic of every halt); the spec's decision
D36. -/
def Obligations.DiagnosticExactlyAtTheHalt : Prop :=
  ∀ s t : State, step s = .next t →
    ∃ es : List Event, (∀ e ∈ es, ∀ h, e ≠ .diagnostic h) ∧
      t.out = s.out ++ es ++ (match t.halted with
        | none => []
        | some h => [.diagnostic h])

/-- R39, R367: an instruction step adds one tick and some number of save-or-restore costs, any other step only such
costs; nothing decreases the count, and no step changes the parameters. Derived; rests on log 7 (the host's turn); the
spec's decisions D13, D22, D41. -/
def Obligations.TicksCountStepsAndSwitches : Prop :=
  ∀ s t : State, step s = .next t → t.cfg = s.cfg ∧
    (s.EngineTurn → ∃ k : Nat, t.ticks = s.ticks + 1 + k * s.cfg.saveLoadTime) ∧
    (¬ s.EngineTurn → ∃ k : Nat, t.ticks = s.ticks + k * s.cfg.saveLoadTime)

/-- R43, R255: neither the next process id nor the load cursor ever decreases, and a process of the new table that was
not in the old one has the idle id or an id the old next id had not yet passed and the new one has. Derived; rests on
log 10 (the identity of a PCB); the spec's decisions D13, D14, D21. -/
def Obligations.IdsAndCursorOnlyGrow : Prop :=
  ∀ s t : State, step s = .next t →
    s.nextPid ≤ t.nextPid ∧ s.loadCursor ≤ t.loadCursor ∧
    ∀ p ∈ t.procs, (∃ q ∈ s.procs, q.ref = p.ref ∧ q.pid = p.pid) ∨ p.pid = s.cfg.idlePid ∨
      (s.nextPid ≤ p.pid ∧ p.pid < t.nextPid)

/-- R48, R262, R41, R43, R46, R71: every step keeps the invariant. Derived; rests on log 3 and log 10 (the memory list,
the identity of a PCB), log 16 (where it says less than R48 and R264). -/
def Obligations.EveryStepKeepsTheInvariant : Prop :=
  ∀ s t : State, s.Inv → step s = .next t → t.Inv

/-- R48, R360: the reset state, for any parameters, meets the invariant. Derived; rests on log 2 and log 4 (what reset
lists, the parameters); the spec's decision D13. -/
def Obligations.ResetMeetsTheInvariant : Prop :=
  ∀ p : Config.Params, (State.resetWith p).Inv

/-- R130, R340, R322: a running machine with admitted parameters that meets the invariant never gets stuck: its next
step exists, unless it would give a process the reserved idle id. Derived; rests on log 5 (what is refused), log 12
(what is stuck). -/
def Obligations.RunningMachineAlwaysSteps : Prop :=
  ∀ s : State, s.Inv → s.halted = none → s.cfg.ok = true → s.nextPid ≠ s.cfg.idlePid → ∃ t, step s = .next t

/-! ### System calls -/

/-- R210, R211, R214, R222: TRAP decodes whatever its argument words; it pops the syscall number, and halts with SP
where that fails the check; a number outside 0..9 is popped and nothing else changes. Derived; rests on log 14 (the
number 15 of R102); the spec's decision D29. -/
def Obligations.TrapPopsItsNumberOrHalts : Prop :=
  (∀ x y z : Word, decode ⟨15, x, y, z⟩ = .ok .trap) ∧
  (∀ s : State, s.allows s.regs.sp = false → exec .trap s =
    .next { s with out := s.out ++ [.diagnostic (.illegalMemoryAccess s.regs.sp)],
                   halted := some (.illegalMemoryAccess s.regs.sp) }) ∧
  ∀ s : State, s.canPop → ¬(0 ≤ signed s.top ∧ signed s.top ≤ 9) → exec .trap s = .next s.popped

/-- R216: OUTPUT pops one word and emits it; when that pop's check fails the machine halts with SP and emits no word. -/
def Obligations.OutputEmitsThePoppedWord : Prop :=
  ∀ s : State, s.canPop → s.top = 1 →
    (s.popped.canPop → exec .trap s = .next { s.popped.popped with out := s.out ++ [.output s.popped.top] }) ∧
    (¬ s.popped.canPop → exec .trap s =
      .next { s.popped with out := s.out ++ [.diagnostic (.illegalMemoryAccess s.popped.regs.sp)],
                            halted := some (.illegalMemoryAccess s.popped.regs.sp) })

/-- R217: GETPID pushes the caller's process id, and changes SP and that one word; when the push's check fails the
machine halts with the address. (Of an id of 2^31 or more, which is no word, nothing is said: log 11.) -/
def Obligations.GetpidPushesTheProcessId : Prop :=
  ∀ (s : State) (c : PCB), s.canPop → s.top = 2 → s.curPcb = some c →
    (s.popped.canPush → ∃ t, exec .trap s = .next t ∧
      (s.mem.wf = true → c.pid < 2147483648 → signed t.top = c.pid) ∧
      t.regs = s.popped.regs.lowerSp ∧ (∀ n, ¬ inWord n t.regs.sp → t.mem.readByte n = s.mem.readByte n) ∧
      t = { s with regs := t.regs, mem := t.mem }) ∧
    (¬ s.popped.canPush → exec .trap s =
      .next { s with regs := s.popped.regs.lowerSp,
                     out := s.out ++ [.diagnostic (.illegalMemoryAccess s.popped.regs.lowerSp.sp)],
                     halted := some (.illegalMemoryAccess s.popped.regs.lowerSp.sp) })

/-- R215, R260, R257, R323: EXIT removes the caller, leaves no process current and runs the scheduler, whatever the
other processes wait for; of the only process it halts the machine with NoProcesses; with another ready process it
removes the caller and runs the most starved of them from its saved registers for one restore cost; memory, the devices'
open sets and the load cursor stay as they are. Derived; rests on log 9 (the Diagnostic of NoProcesses); the spec's
decisions D20, D22, D33, D36. -/
def Obligations.ExitRunsTheMostStarvedProcessOrEndsTheRun : Prop :=
  (∀ (s : State) (c : PCB), s.canPop → s.top = 0 → s.curPcb = some c →
    exec .trap s = (schedule { s.popped with procs := s.procs.filter (fun q => q.ref != c.ref), cur := none }).finish) ∧
  (∀ (s : State) (c : PCB), s.canPop → s.top = 0 → s.curPcb = some c → s.procs = [c] →
    exec .trap s = .next { s.popped with procs := [], cur := none, out := s.out ++ [.diagnostic .noProcesses],
                                         halted := some .noProcesses }) ∧
  ∀ (s : State) (c p : PCB), s.Inv → s.halted = none → s.canPop → s.top = 0 → s.curPcb = some c → s.Ready p →
    p.ref ≠ c.ref →
    ∃ t b, exec .trap s = .next t ∧ s.Ready b ∧ b.ref ≠ c.ref ∧
      (∀ q, s.Ready q → q.ref ≠ c.ref → q.avgStarve ≤ b.avgStarve) ∧ b.regs = some t.regs ∧ t.cur = some b.ref ∧
      t.ticks = s.ticks + s.cfg.saveLoadTime ∧ (∀ q ∈ t.procs, q.ref ≠ c.ref) ∧ t.mem = s.mem ∧ t.devs = s.devs ∧
      t.loadCursor = s.loadCursor ∧ t.out = s.out ∧ t.halted = none

/-- R220, R261: YIELD pops its number and runs the scheduler, which alone decides who runs next; a YIELD of a ready
process that no other ready process beats by more than the bonus continues at once: only the number is popped. Derived;
rests on the spec's decisions D20, D45. -/
def Obligations.YieldWithoutAMoreStarvedProcessContinues : Prop :=
  (∀ s : State, s.canPop → s.top = 8 → exec .trap s = (schedule s.popped).finish) ∧
  ∀ (s : State) (c : PCB), s.canPop → s.top = 8 → s.curPcb = some c → s.Ready c →
    (∀ q, s.Ready q → q.avgStarve ≤ c.avgStarve + 200) → exec .trap s = .next s.popped

/-- R221, R215: COREDUMP emits the registers as they are after the number was popped and three popped words, then
removes the caller, leaves no process current and runs the scheduler; of the only process it ends the run. Derived;
rests on log 9 (the Diagnostic of NoProcesses); the spec's decisions D32, D36. -/
def Obligations.CoredumpEmitsRegistersAndThreeWords : Prop :=
  (∀ (s u : State) (c : PCB), s.canPop → s.top = 9 → s.curPcb = some c → s.popped.canPop → s.popped.popped.canPop →
    s.popped.popped.popped.canPop → u = s.popped.popped.popped.popped →
    exec .trap s = (schedule { u with
      procs := s.procs.filter (fun q => q.ref != c.ref)
      cur := none
      out := s.out ++
        [.coreDump s.popped.regs s.popped.top s.popped.popped.top s.popped.popped.popped.top] }).finish) ∧
  ∀ (s : State) (c : PCB), s.canPop → s.top = 9 → s.curPcb = some c → s.procs = [c] → s.popped.canPop →
    s.popped.popped.canPop → s.popped.popped.popped.canPop →
    exec .trap s = .next { s.popped.popped.popped.popped with
      procs := []
      cur := none
      out := s.out ++ [.coreDump s.popped.regs s.popped.top s.popped.popped.top s.popped.popped.popped.top,
        .diagnostic .noProcesses]
      halted := some .noProcesses }

/-- R219, R253, R254, R256: EXEC halts with NoPrograms when none is registered; else, when every program fits, it loads
one with the least count: the count rises, the caller is saved as it stands after its TRAP, and the new process runs
from the first word of its window with its program copied; and each least used program is its choice for some value of
the draws. Derived; rests on log 5 and log 6 (the refused id, the draws); the spec's decisions D14 to D18, D22. -/
def Obligations.ExecLoadsAnyLeastUsedProgram : Prop :=
  (∀ s : State, s.canPop → s.top = 7 → s.progs = [] → exec .trap s =
    .next { s.popped with out := s.out ++ [.diagnostic .noPrograms], halted := some .noPrograms }) ∧
  (∀ (s : State) (c : PCB), s.Inv → s.halted = none → s.cfg.ok = true → s.canPop → s.top = 7 → s.curPcb = some c →
    s.progs ≠ [] → s.nextPid ≠ s.cfg.idlePid → (∀ P ∈ s.progs, s.fits P P.allocSize = true) →
    ∃ t n P, exec .trap s = .next t ∧ s.progs[n]? = some P ∧ (∀ Q ∈ s.progs, P.execCount ≤ Q.execCount) ∧
      t.progs = s.progs.set n { P with execCount := P.execCount + 1 } ∧
      signed t.regs.base = s.loadCursor ∧ signed t.regs.lim = s.loadCursor + P.allocSize - 1 ∧
      t.regs.pc = t.regs.base ∧ t.regs.sp = t.regs.lim ∧
      (∀ k, k < P.words.length → t.mem.readWord (s.loadCursor + k) = P.words.getD k 0) ∧
      (∀ k, k < s.loadCursor ∨ s.loadCursor + P.words.length ≤ k → t.mem.readWord k = s.mem.readWord k) ∧
      t.loadCursor = s.loadCursor + P.allocSize + 3 ∧ t.nextPid = s.nextPid + 1 ∧
      (∃ q, t.curPcb = some q ∧ q.pid = s.nextPid ∧ q.block = none ∧ q.regs = none) ∧
      t.findPcb c.ref = some { c with regs := some s.popped.regs, lastReady := s.ticks + s.cfg.saveLoadTime,
                                      numReady := c.numReady + 1 } ∧
      t.ticks = s.ticks + s.cfg.saveLoadTime ∧ t.out = s.out ∧ t.halted = none) ∧
  ∀ (s : State) (n : Nat) (P : Program), s.canPop → s.top = 7 → s.progs[n]? = some P →
    (∀ Q ∈ s.progs, P.execCount ≤ Q.execCount) → s.fits P P.allocSize = true → s.nextPid ≠ s.cfg.idlePid →
    ∃ ds t, exec .trap { s with draws := ds } = .next t ∧
      t.progs = s.progs.set n { P with execCount := P.execCount + 1 } ∧ t.nextPid = s.nextPid + 1

/-- R253, R254: a load that fits makes the window `[c, c + n - 1]` at the cursor, sets PC, SP, BASE and LIM by it and
R0–R4 by draws, copies the program's words and no others, moves the cursor past LIM by 4 and makes the new PCB current;
one that does not fit halts with NoSpace and changes nothing else. Derived; rests on log 6 (R0 to R4 are draws); the
spec's decisions D12, D14, D15, D16, D22. -/
def Obligations.CreateProcessLaysOutTheWindow : Prop :=
  (∀ (s : State) (P : Program) (n id : Nat), ¬(1 ≤ n ∧ P.words.length ≤ n ∧ s.loadCursor + n ≤ s.cfg.memSize) →
    createProcess P n id s = .stop (.next { s with out := s.out ++ [.diagnostic .noSpace], halted := some .noSpace })) ∧
  ∀ (s : State) (P : Program) (n id : Nat), 1 ≤ n ∧ P.words.length ≤ n ∧ s.loadCursor + n ≤ s.cfg.memSize →
    s.cfg.ok = true → s.mem.wf = true →
    ∃ t, createProcess P n id s = .go () t ∧
      signed t.regs.base = s.loadCursor ∧ signed t.regs.lim = s.loadCursor + n - 1 ∧ t.regs.sp = t.regs.lim ∧
      t.regs.pc = t.regs.base ∧
      (∀ d0 d1 d2 d3 d4 ds, s.draws = d0 :: d1 :: d2 :: d3 :: d4 :: ds →
        t.regs.r0 = BitVec.ofNat 32 d0 ∧ t.regs.r1 = BitVec.ofNat 32 d1 ∧ t.regs.r2 = BitVec.ofNat 32 d2 ∧
        t.regs.r3 = BitVec.ofNat 32 d3 ∧ t.regs.r4 = BitVec.ofNat 32 d4 ∧ t.draws = ds) ∧
      (∀ k, k < P.words.length → t.mem.readWord (s.loadCursor + k) = P.words.getD k 0) ∧
      (∀ k, k < s.loadCursor ∨ s.loadCursor + P.words.length ≤ k → t.mem.readWord k = s.mem.readWord k) ∧
      t.loadCursor = s.loadCursor + n - 1 + 4 ∧
      (∃ l, t.procs = l ++ [PCB.new s.nextRef id] ∧ l.map (fun p => p.ref) = s.procs.map (fun p => p.ref)) ∧
      t.cur = some s.nextRef ∧ t.nextPid = (if id = s.cfg.idlePid then s.nextPid else s.nextPid + 1) ∧
      t.ticks = s.ticks + if s.cur = none then 0 else s.cfg.saveLoadTime

/-! ### Context switch and scheduler -/

/-- R256, R257, R259: a save followed by a restore of the same process gives all nine registers back, leaves memory
alone, costs two save-or-restore times, and records one starve interval of one such time. Derived; rests on the spec's
decisions D22, D23, D41. -/
def Obligations.SaveThenRestoreGivesTheRegistersBack : Prop :=
  ∀ (s : State) (c : PCB), s.curPcb = some c →
    ∃ t, restoreContext c.ref (saveContext c.ref s) = .go () t ∧ t.regs = s.regs ∧ t.mem = s.mem ∧
      t.ticks = s.ticks + 2 * s.cfg.saveLoadTime ∧
      t.findPcb c.ref = some { c with
        regs := some s.regs
        lastReady := s.ticks + s.cfg.saveLoadTime
        numReady := c.numReady + 1
        maxStarve := max c.maxStarve s.cfg.saveLoadTime
        avgStarve := c.avgStarve + ((s.cfg.saveLoadTime : Rat) - c.avgStarve) / ((c.numReady + 1 : Nat) : Rat) } ∧
      (∀ r, r ≠ c.ref → t.findPcb r = s.findPcb r) ∧ t = { s with ticks := t.ticks, procs := t.procs }

/-- R258: after `n` ready-to-running transitions the running average is exactly the mean of the `n` starve intervals,
and the maximum their maximum. Derived; rests on the spec's decisions D23, D41 and its derivation in R258. -/
def Obligations.AverageStarveIsTheExactMean : Prop :=
  ∀ (ref pid : Nat) (x : Regs) (intervals : List Nat) (p : PCB), intervals ≠ [] →
    p = intervals.foldl (fun q n => (q.makeReady x 0).addStarve n) (PCB.new ref pid) →
    p.avgStarve = (intervals.sum : Rat) / (intervals.length : Rat) ∧ p.maxStarve = intervals.foldr max 0

/-- R261: `select` answers a candidate with the greatest score, the current process counting 200 more; on a tie the
current process if it is among the tied, else the tied one first in table order; and it answers one whenever there is a
candidate. Derived; rests on the spec's decision D20 (the tie-break). -/
def Obligations.SelectPicksTheMostStarved : Prop :=
  ∀ (s : State) (C : List PCB) (score : PCB → Rat),
    score = (fun p => p.avgStarve + if s.cur = some p.ref then 200 else 0) →
    (C ≠ [] → ∃ b, s.select C = some b) ∧
    ∀ b, s.select C = some b → b ∈ C ∧ (∀ q ∈ C, score q ≤ score b) ∧
      ((∃ q ∈ C, s.cur = some q.ref ∧ score q = score b) → s.cur = some b.ref) ∧
      (s.cur ≠ some b.ref → ∃ l r, C = l ++ b :: r ∧ ∀ q ∈ l, score q < score b)

/-- R260, R264, R256, R257, R332, R323: the scheduler, which is also the clock interrupt. With an empty table it emits
Diagnostic and halts with NoProcesses; with no ready process it keeps idling or makes the idle process; else it
continues a process with the greatest score: at no cost if that is the current one, else from its saved registers, the
old current process being saved, or removed if it is the idle one. Derived; rests on log 9 (the Diagnostic of
NoProcesses); the spec's decisions D20 to D23, D34, D36. -/
def Obligations.SchedulerSwitchesToTheBestReadyProcess : Prop :=
  (∀ s : State, deliver .clock s = schedule s) ∧
  (∀ s : State, s.procs = [] → schedule s =
    .stop (.next { s with out := s.out ++ [.diagnostic .noProcesses], halted := some .noProcesses })) ∧
  (∀ s : State, s.procs ≠ [] → (∀ p, ¬ s.Ready p) →
    (s.idling = true → schedule s = .go () s) ∧
    (s.idling = false → schedule s = createProcess idleProgram 8 s.cfg.idlePid s)) ∧
  ∀ (s : State) (p : PCB) (score : PCB → Rat), (s.procs.map fun q => q.ref).Nodup →
    (∀ q ∈ s.procs, s.cur ≠ some q.ref → q.Saved) → s.Ready p →
    score = (fun p => p.avgStarve + if s.cur = some p.ref then 200 else 0) →
    ∃ t b, schedule s = .go () t ∧ s.Ready b ∧ (∀ q, s.Ready q → score q ≤ score b) ∧ t.cur = some b.ref ∧
      (s.cur = some b.ref → t = s) ∧
      (s.cur ≠ some b.ref → b.regs = some t.regs ∧ t.mem = s.mem ∧ t.out = s.out ∧
        (s.cur = none → t.ticks = s.ticks + s.cfg.saveLoadTime) ∧
        (∀ c, s.curPcb = some c → c.pid = s.cfg.idlePid →
          t.ticks = s.ticks + s.cfg.saveLoadTime ∧ ∀ q ∈ t.procs, q.ref ≠ c.ref) ∧
        (∀ c, s.curPcb = some c → c.pid ≠ s.cfg.idlePid →
          t.ticks = s.ticks + 2 * s.cfg.saveLoadTime ∧
          t.findPcb c.ref = some { c with regs := some s.regs, lastReady := s.ticks + s.cfg.saveLoadTime,
                                          numReady := c.numReady + 1 }))

/-- R263, R265: with no ready process and room for eight words, the scheduler installs the idle process, without using
up a process id; and the idle process executes `BRANCH 0` to itself: from then on, at every tick count, an engine step
changes nothing but the ticks. Derived; rests on log 7 and log 14 (the empty schedule, the number of BRANCH); the spec's
decision D21. -/
def Obligations.IdleProcessIsInstalledAndLoops : Prop :=
  ∀ s : State, s.mem.wf = true → (∀ p ∈ s.procs, p.ref < s.nextRef) → s.halted = none → s.started = true →
    s.cfg.ok = true → s.procs ≠ [] → (∀ p, ¬ s.Ready p) → s.idling = false → s.loadCursor + 8 ≤ s.cfg.memSize →
    ∃ t, schedule s = .go () t ∧ t.idling = true ∧ t.nextPid = s.nextPid ∧ signed t.regs.pc = s.loadCursor ∧
      t.regs.base = t.regs.pc ∧ signed t.regs.lim = s.loadCursor + 7 ∧
      ({ t with schedule := [] }).EngineTurn ∧
      ∀ n : Nat, step { t with schedule := [], ticks := n } = .next { t with schedule := [], ticks := n + 1 }

/-! ### Devices -/

/-- R293: OPEN pushes `E_OPEN` for an unknown or already open device; opens a sharable or unused one and pushes 0; else
adds the caller to the open set, pushes 0, blocks the caller and runs the scheduler. Derived; rests on the spec's
decisions D26, D28; the stack faults of the rule are not restated. -/
def Obligations.OpenGrantsBlocksOrFails : Prop :=
  ∀ (s u : State) (c : PCB) (id : Int), s.canPop → s.top = 3 → s.popped.canPop → u = s.popped.popped → u.canPush →
    s.curPcb = some c → id = signed s.popped.top →
    ((s.findDev id = none ∨ ∃ d, s.findDev id = some d ∧ c.pid ∈ d.openSet) →
      exec .trap s = .next (u.pushed s.cfg.eOpen)) ∧
    (∀ d, s.findDev id = some d → c.pid ∉ d.openSet → (d.dev.isSharable = true ∨ d.openSet = []) →
      ∃ t, exec .trap s = .next t ∧ t = { u.pushed 0 with devs := t.devs } ∧
        t.findDev id = some { d with openSet := d.openSet ++ [c.pid] } ∧ ∀ j, j ≠ id → t.findDev j = s.findDev j) ∧
    (∀ d, s.findDev id = some d → c.pid ∉ d.openSet → d.dev.isSharable = false → d.openSet ≠ [] →
      ∃ v, exec .trap s = (schedule v).finish ∧ v = { u.pushed 0 with devs := v.devs, procs := v.procs } ∧
        v.findDev id = some { d with openSet := d.openSet ++ [c.pid] } ∧ (∀ j, j ≠ id → v.findDev j = s.findDev j) ∧
        v.findPcb c.ref = some { c with block := some ⟨id, .opening, 0⟩ } ∧
        ∀ r, r ≠ c.ref → v.findPcb r = s.findPcb r)

/-- R294, R292: CLOSE pushes `E_CLOSE` for a device the caller does not hold; else removes the caller from the open set,
wakes the first process in table order that is blocked opening the device, and no other, and pushes 0; the caller keeps
running. Derived; rests on the rules read as they stand; the stack faults of R294 are not restated. -/
def Obligations.CloseWakesExactlyTheFirstOpener : Prop :=
  ∀ (s u : State) (c : PCB) (id : Int), s.Inv → s.canPop → s.top = 4 → s.popped.canPop → u = s.popped.popped →
    u.canPush → s.curPcb = some c → id = signed s.popped.top →
    ((∀ d, s.findDev id = some d → c.pid ∉ d.openSet) → exec .trap s = .next (u.pushed s.cfg.eClose)) ∧
    ∀ d, s.findDev id = some d → c.pid ∈ d.openSet →
      ∃ t, exec .trap s = .next t ∧ t = { u.pushed 0 with devs := t.devs, procs := t.procs } ∧
        t.findDev id = some { d with openSet := d.openSet.filter (fun q => q != c.pid) } ∧
        (∀ j, j ≠ id → t.findDev j = s.findDev j) ∧
        ((∀ p ∈ s.procs, ∀ a, p.block ≠ some ⟨id, .opening, a⟩) → t.procs = s.procs) ∧
        ∀ l w r a, s.procs = l ++ w :: r → w.block = some ⟨id, .opening, a⟩ →
          (∀ p ∈ l, ∀ a', p.block ≠ some ⟨id, .opening, a'⟩) → t.procs = l ++ { w with block := none } :: r

/-- R296, R297, R295: READ and WRITE push their error code when the device is unknown, not open by the caller, or not
readable or writable, with the arguments popped and nothing else changed. Derived; rests on the spec's decisions D25,
D28. -/
def Obligations.ReadAndWriteErrorsAreNotFaults : Prop :=
  (∀ (s u : State) (c : PCB) (id : Int), s.canPop → s.top = 5 → s.popped.canPop → s.popped.popped.canPop →
    u = s.popped.popped.popped → u.canPush → s.curPcb = some c → id = signed s.popped.top →
    (∀ d, s.findDev id = some d → c.pid ∈ d.openSet → d.dev.isReadable = false) →
    exec .trap s = .next (u.pushed s.cfg.eRead)) ∧
  (∀ (s u : State) (c : PCB) (id : Int), s.canPop → s.top = 6 → s.popped.canPop → s.popped.popped.canPop →
    s.popped.popped.popped.canPop → u = s.popped.popped.popped.popped → u.canPush → s.curPcb = some c →
    id = signed s.popped.top →
    (∀ d, s.findDev id = some d → c.pid ∈ d.openSet → d.dev.isWriteable = false) →
    exec .trap s = .next (u.pushed s.cfg.eWrite))

/-- R296, R297, R292: READ or WRITE of an open, able device that the host says is available emits the device request,
blocks the caller on the device, the operation and the address, and runs the scheduler; nothing is pushed. Derived;
rests on log 6 (the host's answers); the spec's decisions D25, D40. -/
def Obligations.ReadAndWriteIssueAndBlock : Prop :=
  (∀ (s u : State) (c : PCB) (d : DeviceInfo) (id : Int) (addr : Word) (bs : List Bool), s.canPop → s.top = 5 →
    s.popped.canPop → s.popped.popped.canPop → u = s.popped.popped.popped → s.curPcb = some c →
    id = signed s.popped.top → addr = s.popped.popped.top → s.findDev id = some d → c.pid ∈ d.openSet →
    d.dev.isReadable = true → s.answers = true :: bs →
    ∃ v, exec .trap s = (schedule v).finish ∧
      v = { u with answers := bs, out := s.out ++ [.devRead id addr], procs := v.procs } ∧
      v.findPcb c.ref = some { c with block := some ⟨id, .reading, addr⟩ } ∧
      ∀ r, r ≠ c.ref → v.findPcb r = s.findPcb r) ∧
  (∀ (s u : State) (c : PCB) (d : DeviceInfo) (id : Int) (addr data : Word) (bs : List Bool), s.canPop → s.top = 6 →
    s.popped.canPop → s.popped.popped.canPop → s.popped.popped.popped.canPop → u = s.popped.popped.popped.popped →
    s.curPcb = some c → id = signed s.popped.top → addr = s.popped.popped.top → data = s.popped.popped.popped.top →
    s.findDev id = some d → c.pid ∈ d.openSet → d.dev.isWriteable = true → s.answers = true :: bs →
    ∃ v, exec .trap s = (schedule v).finish ∧
      v = { u with answers := bs, out := s.out ++ [.devWrite id addr data], procs := v.procs } ∧
      v.findPcb c.ref = some { c with block := some ⟨id, .writing, addr⟩ } ∧
      ∀ r, r ≠ c.ref → v.findPcb r = s.findPcb r)

/-- R298: READ or WRITE of a device that is not available puts PC back at the TRAP, pushes the popped words again,
deepest first and the number on top, and runs the scheduler; with its words on the stack (none of them repeated by the
clamp) that leaves registers, memory, ticks and events exactly as if the TRAP had never run, but for PC, before the
scheduler; and with no other process to switch to the caller runs on so. Derived; rests on log 6 (the host's answers);
the spec's decisions D20, D27. -/
def Obligations.UnavailableDeviceRetriesTheTrap : Prop :=
  (∀ (s u v : State) (c : PCB) (d : DeviceInfo) (id addr : Word) (bs : List Bool), s.canPop → s.top = 5 →
    s.popped.canPop → s.popped.popped.canPop →
    u = s.popped.popped.popped → v = { u with regs := { u.regs with pc := s.regs.pc - 4 }, answers := bs } →
    id = s.popped.top → addr = s.popped.popped.top → s.curPcb = some c →
    s.findDev (signed id) = some d → c.pid ∈ d.openSet → d.dev.isReadable = true → s.answers = false :: bs →
    v.canPush → (v.pushed addr).canPush → ((v.pushed addr).pushed id).canPush →
    exec .trap s = (schedule (((v.pushed addr).pushed id).pushed 5)).finish) ∧
  (∀ (s v : State) (c : PCB) (d : DeviceInfo) (bs : List Bool), s.mem.wf = true → signed s.regs.base ≤ signed s.regs.sp →
    signed s.regs.sp + 3 ≤ signed s.regs.lim → 0 ≤ signed s.regs.base → signed s.regs.lim < s.cfg.memSize →
    s.top = 5 → s.curPcb = some c → s.findDev (signed s.popped.top) = some d → c.pid ∈ d.openSet →
    d.dev.isReadable = true → s.answers = false :: bs →
    v = { s with regs := { s.regs with pc := s.regs.pc - 4 }, answers := bs } →
    exec .trap s = (schedule v).finish ∧
      (s.Ready c → (∀ q, s.Ready q → q.avgStarve ≤ c.avgStarve + 200) → exec .trap s = .next v)) ∧
  (∀ (s u v : State) (c : PCB) (d : DeviceInfo) (id addr data : Word) (bs : List Bool), s.canPop → s.top = 6 →
    s.popped.canPop → s.popped.popped.canPop → s.popped.popped.popped.canPop →
    u = s.popped.popped.popped.popped → v = { u with regs := { u.regs with pc := s.regs.pc - 4 }, answers := bs } →
    id = s.popped.top → addr = s.popped.popped.top → data = s.popped.popped.popped.top → s.curPcb = some c →
    s.findDev (signed id) = some d → c.pid ∈ d.openSet → d.dev.isWriteable = true → s.answers = false :: bs →
    v.canPush → (v.pushed data).canPush → ((v.pushed data).pushed addr).canPush →
    (((v.pushed data).pushed addr).pushed id).canPush →
    exec .trap s = (schedule ((((v.pushed data).pushed addr).pushed id).pushed 6)).finish) ∧
  (∀ (s v : State) (c : PCB) (d : DeviceInfo) (bs : List Bool), s.mem.wf = true → signed s.regs.base ≤ signed s.regs.sp →
    signed s.regs.sp + 4 ≤ signed s.regs.lim → 0 ≤ signed s.regs.base → signed s.regs.lim < s.cfg.memSize →
    s.top = 6 → s.curPcb = some c → s.findDev (signed s.popped.top) = some d → c.pid ∈ d.openSet →
    d.dev.isWriteable = true → s.answers = false :: bs →
    v = { s with regs := { s.regs with pc := s.regs.pc - 4 }, answers := bs } →
    exec .trap s = (schedule v).finish ∧
      (s.Ready c → (∀ q, s.Ready q → q.avgStarve ≤ c.avgStarve + 200) → exec .trap s = .next v))

/-! ### Interrupts -/

/-- R330, R300, R301: when an interrupt is due at the boundary of a started, running machine, the step is its handler
and no instruction runs; a completion for an unknown device, or that no blocked process matches, has no effect. Derived;
rests on log 7 (the host's turn); the spec's decisions D30, D34. -/
def Obligations.InterruptIsDeliveredAtTheBoundary : Prop :=
  (∀ (s : State) (i : Interrupt) (turns : List HostTurn), s.halted = none → s.cfg.ok = true → s.started = true →
    s.schedule = .interrupt i :: turns → step s = (deliver i { s with schedule := turns }).finish) ∧
  ∀ (s : State) (dev : Int) (addr data : Word),
    ((s.findDev dev = none ∨ ∀ p ∈ s.procs, p.block ≠ some ⟨dev, .reading, addr⟩) →
      deliver (.readComplete dev addr data) s = .go () s) ∧
    ((s.findDev dev = none ∨ ∀ p ∈ s.procs, p.block ≠ some ⟨dev, .writing, addr⟩) →
      deliver (.writeComplete dev addr) s = .go () s)

/-- R300, R302: a read completion wakes the first process blocked on exactly its key and pushes the data and then 0 onto
that process's own stack; no tick passes; a real current process keeps running, and when the idle process is current the
scheduler runs. Derived; rests on the spec's decisions D21, D30, D43. -/
def Obligations.ReadCompletionDeliversToTheWaiter : Prop :=
  ∀ (s : State) (dev : Int) (addr data : Word) (d : DeviceInfo) (w : PCB) (x : Regs), s.Inv →
    s.findDev dev = some d → s.procs.find? (fun p => decide (p.block = some ⟨dev, .reading, addr⟩)) = some w →
    s.cur ≠ some w.ref → w.regs = some x → signed x.base + 2 ≤ signed x.sp → signed x.sp ≤ signed x.lim →
    0 ≤ signed x.base → signed x.lim < s.cfg.memSize →
    ∃ t, deliver (.readComplete dev addr data) s = (if s.idling = true then schedule t else .go () t) ∧
      t = { s with mem := t.mem, procs := t.procs } ∧
      t.findPcb w.ref = some { w with block := none, regs := some { x with sp := x.sp - 2 } } ∧
      (∀ r, r ≠ w.ref → t.findPcb r = s.findPcb r) ∧ t.mem.readWord (x.sp - 1).toNat = data ∧
      t.mem.readWord (x.sp - 2).toNat = 0 ∧
      ∀ n, ¬ inWord n (x.sp - 1) → ¬ inWord n (x.sp - 2) → t.mem.readByte n = s.mem.readByte n

/-- R302, R300, R301: a completion that finds the idle process current, with every other process blocked, removes the
idle process and runs the woken one: after a read with the data and 0 on its stack, after a write, whose double switch
comes first, with 0. Derived; rests on the spec's decisions D21, D22, D23, D30, D31, D43. -/
def Obligations.CompletionLeavesTheIdleProcess : Prop :=
  (∀ (s : State) (dev : Int) (addr data : Word) (d : DeviceInfo) (w i : PCB) (x : Regs), s.Inv →
    s.findDev dev = some d → s.procs.find? (fun p => decide (p.block = some ⟨dev, .reading, addr⟩)) = some w →
    s.cur ≠ some w.ref → w.pid ≠ s.cfg.idlePid → w.regs = some x → signed x.base + 2 ≤ signed x.sp →
    signed x.sp ≤ signed x.lim → 0 ≤ signed x.base → signed x.lim < s.cfg.memSize → s.curPcb = some i →
    i.pid = s.cfg.idlePid → (∀ p, ¬ s.Ready p) →
    ∃ t, deliver (.readComplete dev addr data) s = .go () t ∧ t.cur = some w.ref ∧
      t.regs = { x with sp := x.sp - 2 } ∧ t.mem.readWord (x.sp - 1).toNat = data ∧ t.top = 0 ∧
      t.ticks = s.ticks + s.cfg.saveLoadTime ∧ ∀ p ∈ t.procs, p.ref ≠ i.ref) ∧
  ∀ (s : State) (dev : Int) (addr : Word) (d : DeviceInfo) (w i : PCB) (x : Regs), s.Inv →
    s.findDev dev = some d → s.procs.find? (fun p => decide (p.block = some ⟨dev, .writing, addr⟩)) = some w →
    s.cur ≠ some w.ref → w.pid ≠ s.cfg.idlePid → w.regs = some x → signed x.base < signed x.sp →
    signed x.sp ≤ signed x.lim → 0 ≤ signed x.base → signed x.lim < s.cfg.memSize → s.curPcb = some i →
    i.pid = s.cfg.idlePid → (∀ p, ¬ s.Ready p) →
    ∃ t, deliver (.writeComplete dev addr) s = .go () t ∧ t.cur = some w.ref ∧
      t.regs = { x with sp := x.sp - 1 } ∧ t.top = 0 ∧ t.ticks = s.ticks + 5 * s.cfg.saveLoadTime ∧
      ∀ p ∈ t.procs, p.ref ≠ i.ref

/-- R301, R302: a write completion pushes 0 on the waiter's stack by a double context switch: four save-or-restore times
pass, both PCBs record a save and a restore, and the process that was running is current again with its registers as
they were; if it is the idle process the scheduler then runs. Derived; rests on the spec's decisions D21, D22, D23, D30,
D31 and its derivation in R301. -/
def Obligations.WriteCompletionIsADoubleSwitch : Prop :=
  ∀ (s : State) (dev : Int) (addr : Word) (d : DeviceInfo) (w o : PCB) (x : Regs), s.Inv →
    s.findDev dev = some d → s.procs.find? (fun p => decide (p.block = some ⟨dev, .writing, addr⟩)) = some w →
    s.curPcb = some o → w.ref ≠ o.ref → w.regs = some x →
    signed x.base < signed x.sp → signed x.sp ≤ signed x.lim → 0 ≤ signed x.base → signed x.lim < s.cfg.memSize →
    ∃ t, deliver (.writeComplete dev addr) s = (if o.pid = s.cfg.idlePid then schedule t else .go () t) ∧
      t = { s with mem := t.mem, procs := t.procs, ticks := s.ticks + 4 * s.cfg.saveLoadTime } ∧
      t.mem.readWord (x.sp - 1).toNat = 0 ∧ (∀ n, ¬ inWord n (x.sp - 1) → t.mem.readByte n = s.mem.readByte n) ∧
      t.findPcb w.ref = some { w with
        block := none
        regs := some { x with sp := x.sp - 1 }
        lastReady := s.ticks + 3 * s.cfg.saveLoadTime
        numReady := w.numReady + 1
        maxStarve := max w.maxStarve (s.ticks + 2 * s.cfg.saveLoadTime - w.lastReady)
        avgStarve := w.avgStarve +
          (((s.ticks + 2 * s.cfg.saveLoadTime - w.lastReady : Nat) : Rat) - w.avgStarve) / (w.numReady : Rat) } ∧
      t.findPcb o.ref = some { o with
        regs := some s.regs
        lastReady := s.ticks + s.cfg.saveLoadTime
        numReady := o.numReady + 1
        maxStarve := max o.maxStarve (3 * s.cfg.saveLoadTime)
        avgStarve := o.avgStarve +
          (((3 * s.cfg.saveLoadTime : Nat) : Rat) - o.avgStarve) / ((o.numReady + 1 : Nat) : Rat) } ∧
      ∀ r, r ≠ w.ref → r ≠ o.ref → t.findPcb r = s.findPcb r

/-! ### Reset and boot -/

/-- R360, R43, R39: what reset leaves, for any parameters: no process, no device, no program, no event, tick 0, the
first process id 1001 and the load cursor 0, running and not started. (The register and memory contents are the model's
choice, log 1 and log 2, and nothing is said of them here.) Derived; rests on log 4 (the parameters); the spec's
decision D13. -/
def Obligations.ResetLeavesAnEmptyKernel : Prop :=
  ∀ (p : Config.Params) (s : State), s = State.resetWith p →
    s.ticks = 0 ∧ s.procs = [] ∧ s.cur = none ∧ s.nextPid = 1001 ∧ s.loadCursor = 0 ∧ s.halted = none ∧ s.out = [] ∧
      s.devs = [] ∧ s.progs = [] ∧ s.started = false ∧ s.cfg = p

/-- R362, R363, R291, R47: before the start the host registers devices, each with an empty open set, then programs, each
with count 0, then loads programs as processes, one a step; then the machine starts, and halts at once with NoProcesses
if there is none. Derived; rests on log 5, log 8 and log 9 (the refused id, the boot plan, the Diagnostic of
NoProcesses); the spec's decisions D13, D38, D47. -/
def Obligations.BootRegistersLoadsAndStarts : Prop :=
  ∀ s : State, s.halted = none → s.cfg.ok = true → s.started = false →
    (∀ id dev ds, s.boot.devices = (id, dev) :: ds → step s =
      .next { s with boot := { s.boot with devices := ds }, devs := s.devs ++ [⟨id, dev, []⟩] }) ∧
    (∀ P Ps, s.boot.devices = [] → s.boot.programs = P :: Ps → step s =
      .next { s with boot := { s.boot with programs := Ps }, progs := s.progs ++ [{ P with execCount := 0 }] }) ∧
    (∀ P Ps, s.boot.devices = [] → s.boot.programs = [] → s.boot.loads = P :: Ps → s.nextPid ≠ s.cfg.idlePid → step s =
      (createProcess P P.allocSize s.nextPid { s with boot := { s.boot with loads := Ps } }).finish) ∧
    (s.boot = BootPlan.empty → s.procs ≠ [] → step s = .next { s with started := true }) ∧
    (s.boot = BootPlan.empty → s.procs = [] → step s =
      .next { s with started := true, out := s.out ++ [.diagnostic .noProcesses], halted := some .noProcesses })
end

