-- ==== Sys2Proof/Laws/Word.lean ====
section
/-! SUPPORT. The word laws: `wrap` and `signed`, the ALU against bit-vector arithmetic, bytes against words. -/

namespace Sys2Proof.Laws

open Sys2Proof.Machine

@[simp] theorem wrap_signed (w : Word) : wrap (signed w) = w := by
  simp [wrap, signed, BitVec.ofInt_toInt]

theorem signed_lo (w : Word) : -2147483648 ≤ signed w := by
  have := BitVec.le_toInt w; simpa [signed] using this

theorem signed_hi (w : Word) : signed w < 2147483648 := by
  have := BitVec.toInt_lt (x := w); simpa [signed] using this

theorem signed_wrap (v : Int) (lo : -2147483648 ≤ v) (hi : v < 2147483648) : signed (wrap v) = v := by
  simp only [signed, wrap, BitVec.toInt_ofInt]
  rw [Int.bmod_eq_of_le] <;> omega

theorem signed_inj {a b : Word} : signed a = signed b ↔ a = b := BitVec.toInt_inj

theorem signed_nonneg_toNat {a : Word} (h : 0 ≤ signed a) : (a.toNat : Int) = signed a := by
  have := BitVec.toInt_eq_toNat_cond a
  simp only [signed] at *
  have h2 := a.isLt
  split at this <;> omega

theorem aluAdd_eq (a b : Word) : aluAdd a b = a + b := by
  simp [aluAdd, wrap, signed, BitVec.ofInt_add, BitVec.ofInt_toInt]

theorem aluSub_eq (a b : Word) : aluSub a b = a - b := by
  simp only [aluSub, wrap, signed]
  apply BitVec.eq_of_toInt_eq
  simp [BitVec.toInt_ofInt, BitVec.toInt_sub]

theorem aluMul_eq (a b : Word) : aluMul a b = a * b := by
  simp [aluMul, wrap, signed, BitVec.ofInt_mul, BitVec.ofInt_toInt]

/-- SP moves one word up or down without wrapping inside the clamp. -/
theorem signed_sub_one {b a : Word} (h : signed b < signed a) : signed (a - 1) = signed a - 1 := by
  have hb := signed_lo b
  have ha := signed_hi a
  rw [← aluSub_eq, aluSub]
  have h1 : signed (1 : Word) = 1 := by decide
  rw [h1, signed_wrap] <;> omega

theorem signed_add_one {a b : Word} (h : signed a < signed b) : signed (a + 1) = signed a + 1 := by
  have hb := signed_hi b
  have ha := signed_lo a
  rw [← aluAdd_eq, aluAdd]
  have h1 : signed (1 : Word) = 1 := by decide
  rw [h1, signed_wrap] <;> omega

theorem signed_ofNat {n : Nat} (h : n < 2147483648) : signed (BitVec.ofNat 32 n) = n := by
  have h1 : (BitVec.ofNat 32 n) = wrap (n : Int) := by simp [wrap]
  rw [h1, signed_wrap] <;> omega

theorem toNat_ofNat_word {n : Nat} (h : n < 4294967296) : (BitVec.ofNat 32 n).toNat = n := by
  simp [BitVec.toNat_ofNat]; omega

theorem wordOfBytes_wordBytes (w : Word) :
    wordOfBytes (w.extractLsb' 0 8) (w.extractLsb' 8 8) (w.extractLsb' 16 8) (w.extractLsb' 24 8) = w := by
  apply BitVec.eq_of_getLsbD_eq
  intro i hi
  simp only [wordOfBytes, BitVec.getLsbD_append, BitVec.getLsbD_extractLsb']
  split
  · rename_i h; simp [h]
  · split
    · rename_i h1 h2; simp [h2]; congr 1; omega
    · split
      · rename_i h1 h2 h3; simp [h3]; congr 1; omega
      · rename_i h1 h2 h3
        have : i - 8 - 8 - 8 < 8 := by omega
        simp [this]; congr 1; omega

theorem extract_wordOfBytes (b0 b1 b2 b3 : Byte) :
    (wordOfBytes b0 b1 b2 b3).extractLsb' 0 8 = b0 ∧ (wordOfBytes b0 b1 b2 b3).extractLsb' 8 8 = b1 ∧
      (wordOfBytes b0 b1 b2 b3).extractLsb' 16 8 = b2 ∧ (wordOfBytes b0 b1 b2 b3).extractLsb' 24 8 = b3 := by
  refine ⟨?_, ?_, ?_, ?_⟩ <;>
  · apply BitVec.eq_of_getLsbD_eq
    intro i hi
    simp only [wordOfBytes, BitVec.getLsbD_append, BitVec.getLsbD_extractLsb', hi, decide_true, Bool.true_and]
    repeat' split
    all_goals first | omega | (congr 1; omega)

end Sys2Proof.Laws
end

