-- ==== Sys2Proof/Laws/Decode.lean ====
section
/-! SUPPORT. The register fields, the bytes of a tuple, and when a tuple decodes. -/

namespace Sys2Proof.Laws

open Sys2Proof.Machine

@[simp] theorem ofWord_index (r : Reg) : Reg.ofWord r.index = some r := by cases r <;> rfl

theorem index_of_ofWord {w : Word} {r : Reg} (h : Reg.ofWord w = some r) : r.index = w := by
  unfold Reg.ofWord at h
  split at h <;>
  first
  | (rename_i e; simp at h; subst h; apply BitVec.eq_of_toNat_eq; simp only [e]; rfl)
  | simp at h

theorem regField_iff (w : Word) : regField w = true ↔ w.toNat ≤ 8 := by
  simp only [regField, Bool.and_eq_true, decide_eq_true_eq]
  unfold signed
  have := BitVec.toInt_eq_toNat_cond w
  have h2 := w.isLt
  split at this <;> omega

/-- A reg field is in 0..8 exactly when it selects a register (R104). -/
theorem ofWord_isSome (w : Word) : (Reg.ofWord w).isSome = regField w := by
  rw [Bool.eq_iff_iff, regField_iff]
  unfold Reg.ofWord
  constructor
  · intro h
    split at h <;> first | omega | simp at h
  · intro h
    obtain e | e | e | e | e | e | e | e | e : w.toNat = 0 ∨ w.toNat = 1 ∨ w.toNat = 2 ∨ w.toNat = 3 ∨ w.toNat = 4 ∨
        w.toNat = 5 ∨ w.toNat = 6 ∨ w.toNat = 7 ∨ w.toNat = 8 := by omega
    all_goals rw [e]; rfl

theorem regOperand_ok {f : Nat} {w : Word} {r : Reg} : regOperand f w = .ok r ↔ w = r.index := by
  unfold regOperand
  constructor
  · intro h
    split at h
    · rename_i r' e
      simp at h; subst h
      exact (index_of_ofWord e).symm
    · simp at h
  · intro h; subst h; simp

@[simp] theorem regOperand_index (f : Nat) (r : Reg) : regOperand f r.index = .ok r := regOperand_ok.2 rfl

theorem regField_index (r : Reg) : regField r.index = true := by cases r <;> decide

theorem regOperand_cases (f : Nat) (w : Word) :
    (∃ r, regOperand f w = .ok r ∧ w = r.index ∧ regField w = true) ∨
      (∃ e, regOperand f w = .error e ∧ regField w = false) := by
  cases h : Reg.ofWord w with
  | some r =>
    have e := (index_of_ofWord h).symm
    exact .inl ⟨r, by simp [regOperand, h], e, by rw [e]; exact regField_index r⟩
  | none =>
    refine .inr ⟨.registerOutOfRange f w, by simp only [regOperand, h], ?_⟩
    rw [← ofWord_isSome, h]; rfl

theorem decode1_cases (t : Tuple) (mk : Reg → Instr) :
    (∃ a, t.w1 = a.index ∧ decode1 t mk = .ok (mk a) ∧ regField t.w1 = true) ∨
      (∃ e, decode1 t mk = .error e ∧ regField t.w1 = false) := by
  rcases regOperand_cases 1 t.w1 with ⟨a, h, e, hf⟩ | ⟨e, h, hf⟩
  · exact .inl ⟨a, e, by simp [decode1, h], hf⟩
  · exact .inr ⟨e, by simp [decode1, h], hf⟩

theorem decode2_cases (t : Tuple) (mk : Reg → Reg → Instr) :
    (∃ a b, t.w1 = a.index ∧ t.w2 = b.index ∧ decode2 t mk = .ok (mk a b) ∧
      (regField t.w1 && regField t.w2) = true) ∨
      (∃ e, decode2 t mk = .error e ∧ (regField t.w1 && regField t.w2) = false) := by
  rcases regOperand_cases 1 t.w1 with ⟨a, h, e, hf⟩ | ⟨e, h, hf⟩
  · rcases regOperand_cases 2 t.w2 with ⟨b, h', e', hf'⟩ | ⟨e', h', hf'⟩
    · exact .inl ⟨a, b, e, e', by simp [decode2, h, h'], by simp [hf, hf']⟩
    · exact .inr ⟨e', by simp [decode2, h, h'], by simp [hf']⟩
  · exact .inr ⟨e, by simp [decode2, h], by simp [hf]⟩

theorem decode3_cases (t : Tuple) (mk : Reg → Reg → Reg → Instr) :
    (∃ a b c, t.w1 = a.index ∧ t.w2 = b.index ∧ t.w3 = c.index ∧ decode3 t mk = .ok (mk a b c) ∧
      (regField t.w1 && regField t.w2 && regField t.w3) = true) ∨
      (∃ e, decode3 t mk = .error e ∧ (regField t.w1 && regField t.w2 && regField t.w3) = false) := by
  rcases regOperand_cases 1 t.w1 with ⟨a, h, e, hf⟩ | ⟨e, h, hf⟩
  · rcases regOperand_cases 2 t.w2 with ⟨b, h', e', hf'⟩ | ⟨e', h', hf'⟩
    · rcases regOperand_cases 3 t.w3 with ⟨c, h3, e3, hf3⟩ | ⟨e3, h3, hf3⟩
      · exact .inl ⟨a, b, c, e, e', e3, by simp [decode3, h, h', h3], by simp [hf, hf', hf3]⟩
      · exact .inr ⟨e3, by simp [decode3, h, h', h3], by simp [hf3]⟩
    · exact .inr ⟨e', by simp [decode3, h, h'], by simp [hf']⟩
  · exact .inr ⟨e, by simp [decode3, h], by simp [hf]⟩

/-- The sixteen bytes of a tuple, followed by anything, decode as the tuple does. -/
theorem decodeBytes_bytes (t : Tuple) (rest : List Byte) :
    decodeBytes (t.bytes ++ rest) = (match decode t with
      | .ok i => .ok (i, rest)
      | .error e => .error e) := by
  obtain ⟨a, b, c, d⟩ := t
  cases h : decode ⟨a, b, c, d⟩ <;> simp [Tuple.bytes, wordBytes, decodeBytes, wordOfBytes_wordBytes, h]

theorem decodeTableWord_eq (nbits w : Nat) : decodeTableWord nbits w = (decode (tupleOfBits nbits w)).toOption := by
  have := decodeBytes_bytes (tupleOfBits nbits w) []
  rw [List.append_nil] at this
  unfold decodeTableWord
  rw [this]
  cases decode (tupleOfBits nbits w) <;> rfl

end Sys2Proof.Laws
end

