-- ==== Sys2Proof/Laws/Memory.lean ====
section
/-! SUPPORT. The memory laws: a read after a write, other addresses, the canonical form and its uniqueness, the bound. -/

namespace Sys2Proof.Laws

open Sys2Proof.Machine

theorem readByte_of_lt {m : Memory} : ∀ {lo n : Nat}, m.wfFrom lo = true → n < lo → m.readByte n = unlistedByte := by
  induction m with
  | nil => intros; rfl
  | cons c m ih =>
    obtain ⟨k, v⟩ := c
    intro lo n h hn
    simp only [Memory.wfFrom, Bool.and_eq_true, decide_eq_true_eq] at h
    have hk : n ≠ k := by omega
    simp only [Memory.readByte, hk, if_false]
    exact ih h.2 (by omega)

theorem readByte_writeByte_other (m : Memory) {n n' : Nat} (b : Byte) (h : n' ≠ n) :
    (m.writeByte n b).readByte n' = m.readByte n' := by
  induction m with
  | nil => simp only [Memory.writeByte]; split <;> simp [Memory.readByte, h]
  | cons c m ih =>
    obtain ⟨k, v⟩ := c
    simp only [Memory.writeByte]
    split
    · split <;> simp [Memory.readByte, h]
    · split
      · rename_i hk; subst hk
        split <;> simp [Memory.readByte, h]
      · simp only [Memory.readByte, ih]

theorem readByte_writeByte_same {m : Memory} : ∀ {lo : Nat} (n : Nat) (b : Byte), m.wfFrom lo = true →
    (m.writeByte n b).readByte n = b := by
  induction m with
  | nil =>
    intro lo n b _
    simp only [Memory.writeByte]
    split
    · rename_i h; simp [Memory.readByte, h]
    · simp [Memory.readByte]
  | cons c m ih =>
    obtain ⟨k, v⟩ := c
    intro lo n b h
    simp only [Memory.wfFrom, Bool.and_eq_true, decide_eq_true_eq] at h
    simp only [Memory.writeByte]
    split
    · rename_i hk
      split
      · rename_i hb; subst hb
        have : n ≠ k := by omega
        simp only [Memory.readByte, this, if_false]
        exact readByte_of_lt h.2 (by omega)
      · simp [Memory.readByte]
    · split
      · rename_i hk; subst hk
        split
        · rename_i hb; subst hb; exact readByte_of_lt h.2 (by omega)
        · simp [Memory.readByte]
      · rename_i h1 h2
        simp only [Memory.readByte, h2, if_false]
        exact ih n b h.2

theorem wfFrom_mono {m : Memory} {lo lo' : Nat} (h : m.wfFrom lo = true) (hl : lo' ≤ lo) : m.wfFrom lo' = true := by
  cases m with
  | nil => rfl
  | cons c m =>
    simp only [Memory.wfFrom, Bool.and_eq_true, decide_eq_true_eq] at h ⊢
    exact ⟨⟨by omega, h.1.2⟩, h.2⟩

theorem wfFrom_writeByte {m : Memory} : ∀ {lo n : Nat} (b : Byte), m.wfFrom lo = true → lo ≤ n →
    (m.writeByte n b).wfFrom lo = true := by
  induction m with
  | nil =>
    intro lo n b _ hn
    simp only [Memory.writeByte]
    split
    · rfl
    · rename_i hb; simp [Memory.wfFrom, hn, hb]
  | cons c m ih =>
    obtain ⟨k, v⟩ := c
    intro lo n b h hn
    have h' := h
    simp only [Memory.wfFrom, Bool.and_eq_true, decide_eq_true_eq] at h
    simp only [Memory.writeByte]
    split
    · rename_i hk
      split
      · exact h'
      · rename_i hb
        simp only [Memory.wfFrom, Bool.and_eq_true, decide_eq_true_eq]
        exact ⟨⟨hn, hb⟩, ⟨by omega, h.1.2⟩, h.2⟩
    · split
      · rename_i hk; subst hk
        split
        · exact wfFrom_mono h.2 (by omega)
        · rename_i hb
          simp only [Memory.wfFrom, Bool.and_eq_true, decide_eq_true_eq]
          exact ⟨⟨hn, hb⟩, h.2⟩
      · rename_i h1 h2
        simp only [Memory.wfFrom, Bool.and_eq_true, decide_eq_true_eq]
        exact ⟨h.1, ih b h.2 (by omega)⟩

theorem wf_writeByte {m : Memory} (n : Nat) (b : Byte) (h : m.wf = true) : (m.writeByte n b).wf = true :=
  wfFrom_writeByte b h (Nat.zero_le n)

theorem wf_writeWord {m : Memory} (a : Nat) (v : Word) (h : m.wf = true) : (m.writeWord a v).wf = true := by
  simp only [Memory.writeWord]
  exact wf_writeByte _ _ (wf_writeByte _ _ (wf_writeByte _ _ (wf_writeByte _ _ h)))

theorem wf_writeWords (ws : List Word) : ∀ {m : Memory} (a : Nat), m.wf = true → (m.writeWords a ws).wf = true := by
  induction ws with
  | nil => intro m a h; exact h
  | cons w ws ih => intro m a h; exact ih _ (wf_writeWord a w h)

theorem readByte_writeWord_other (m : Memory) {a n : Nat} (v : Word) (h : n / 4 ≠ a) :
    (m.writeWord a v).readByte n = m.readByte n := by
  simp only [Memory.writeWord]
  rw [readByte_writeByte_other, readByte_writeByte_other, readByte_writeByte_other, readByte_writeByte_other] <;> omega

theorem readWord_writeWord_same {m : Memory} (a : Nat) (v : Word) (h : m.wf = true) :
    (m.writeWord a v).readWord a = v := by
  have h0 := wf_writeByte (4 * a) (v.extractLsb' 0 8) h
  have h1 := wf_writeByte (4 * a + 1) (v.extractLsb' 8 8) h0
  have h2 := wf_writeByte (4 * a + 2) (v.extractLsb' 16 8) h1
  simp only [Memory.readWord, Memory.writeWord]
  rw [readByte_writeByte_other _ _ (by omega : 4 * a ≠ 4 * a + 3), readByte_writeByte_other _ _ (by omega : 4 * a ≠ 4 * a + 2),
    readByte_writeByte_other _ _ (by omega : 4 * a ≠ 4 * a + 1), readByte_writeByte_same _ _ h,
    readByte_writeByte_other _ _ (by omega : 4 * a + 1 ≠ 4 * a + 3),
    readByte_writeByte_other _ _ (by omega : 4 * a + 1 ≠ 4 * a + 2), readByte_writeByte_same _ _ h0,
    readByte_writeByte_other _ _ (by omega : 4 * a + 2 ≠ 4 * a + 3), readByte_writeByte_same _ _ h1,
    readByte_writeByte_same _ _ h2, wordOfBytes_wordBytes]

theorem readWord_writeWord_other (m : Memory) {a a' : Nat} (v : Word) (h : a' ≠ a) :
    (m.writeWord a v).readWord a' = m.readWord a' := by
  simp only [Memory.readWord]
  rw [readByte_writeWord_other, readByte_writeWord_other, readByte_writeWord_other, readByte_writeWord_other] <;> omega

theorem readWord_writeWord {m : Memory} (a a' : Nat) (v : Word) (h : m.wf = true) :
    (m.writeWord a v).readWord a' = if a' = a then v else m.readWord a' := by
  split
  · rename_i e; subst e; exact readWord_writeWord_same _ _ h
  · rename_i e; exact readWord_writeWord_other _ _ e

theorem readByte_writeWords_other (ws : List Word) : ∀ (m : Memory) {a n : Nat},
    n / 4 < a ∨ a + ws.length ≤ n / 4 → (m.writeWords a ws).readByte n = m.readByte n := by
  induction ws with
  | nil => intros; rfl
  | cons w ws ih =>
    intro m a n h
    simp only [List.length_cons] at h
    simp only [Memory.writeWords]
    rw [ih _ (by omega), readByte_writeWord_other _ _ (by omega)]

theorem readWord_writeWords_other (ws : List Word) (m : Memory) {a n : Nat}
    (h : n < a ∨ a + ws.length ≤ n) : (m.writeWords a ws).readWord n = m.readWord n := by
  simp only [Memory.readWord]
  rw [readByte_writeWords_other, readByte_writeWords_other, readByte_writeWords_other, readByte_writeWords_other] <;> omega

theorem readWord_writeWords (ws : List Word) : ∀ {m : Memory} (a i : Nat), m.wf = true → i < ws.length →
    (m.writeWords a ws).readWord (a + i) = ws.getD i 0 := by
  induction ws with
  | nil => intro m a i _ h; simp at h
  | cons w ws ih =>
    intro m a i h hi
    simp only [Memory.writeWords]
    cases i with
    | zero =>
      rw [readWord_writeWords_other _ _ (by omega)]
      simpa using readWord_writeWord_same a w h
    | succ i =>
      simp only [List.length_cons] at hi
      have := ih (m := m.writeWord a w) (a + 1) i (wf_writeWord a w h) (by omega)
      rw [show a + (i + 1) = a + 1 + i by omega, this]
      simp

theorem within_writeByte {m : Memory} {words n : Nat} (b : Byte) (h : m.within words = true) (hn : n < 4 * words) :
    (m.writeByte n b).within words = true := by
  induction m with
  | nil =>
    simp only [Memory.writeByte]
    split <;> simp [Memory.within, hn]
  | cons c m ih =>
    obtain ⟨k, v⟩ := c
    simp only [Memory.within, List.all_cons, Bool.and_eq_true, decide_eq_true_eq] at h ih
    simp only [Memory.writeByte]
    repeat' split
    all_goals simp only [Memory.within, List.all_cons, Bool.and_eq_true, decide_eq_true_eq]
    all_goals first | exact ⟨h.1, h.2⟩ | exact ⟨hn, h.1, h.2⟩ | exact h.2 | exact ⟨hn, h.2⟩ | exact ⟨h.1, ih h.2⟩

theorem within_writeWord {m : Memory} {words a : Nat} (v : Word) (h : m.within words = true) (ha : a < words) :
    (m.writeWord a v).within words = true := by
  simp only [Memory.writeWord]
  refine within_writeByte _ (within_writeByte _ (within_writeByte _ (within_writeByte _ h ?_) ?_) ?_) ?_ <;> omega

theorem within_writeWords (ws : List Word) : ∀ {m : Memory} {words a : Nat}, m.within words = true →
    a + ws.length ≤ words → (m.writeWords a ws).within words = true := by
  induction ws with
  | nil => intro m words a h _; exact h
  | cons w ws ih =>
    intro m words a h ha
    simp only [List.length_cons] at ha
    exact ih (within_writeWord w h (by omega)) (by omega)

/-- Canonical memories are equal when every byte reads alike. -/
theorem memory_ext : ∀ {m m' : Memory} {lo : Nat}, m.wfFrom lo = true → m'.wfFrom lo = true →
    (∀ n, m.readByte n = m'.readByte n) → m = m' := by
  intro m
  induction m with
  | nil =>
    intro m' lo _ h' e
    cases m' with
    | nil => rfl
    | cons c m' =>
      obtain ⟨k, v⟩ := c
      simp only [Memory.wfFrom, Bool.and_eq_true, decide_eq_true_eq] at h'
      have := e k
      simp only [Memory.readByte, if_true] at this
      exact absurd this.symm h'.1.2
  | cons c m ih =>
    obtain ⟨k, v⟩ := c
    intro m' lo h h' e
    simp only [Memory.wfFrom, Bool.and_eq_true, decide_eq_true_eq] at h
    cases m' with
    | nil =>
      have := e k
      simp only [Memory.readByte, if_true] at this
      exact absurd this h.1.2
    | cons c' m' =>
      obtain ⟨k', v'⟩ := c'
      simp only [Memory.wfFrom, Bool.and_eq_true, decide_eq_true_eq] at h'
      have ek := e k
      have ek' := e k'
      simp only [Memory.readByte, if_true] at ek ek'
      have hk : k = k' := by
        by_contra hne
        rcases Nat.lt_or_gt_of_ne hne with hlt | hlt
        · rw [if_neg hne, readByte_of_lt h'.2 (by omega)] at ek; exact h.1.2 ek
        · rw [if_neg (Ne.symm hne), readByte_of_lt h.2 (by omega)] at ek'; exact h'.1.2 ek'.symm
      subst hk
      simp only [if_true] at ek
      subst ek
      congr 1
      refine ih h.2 h'.2 fun n => ?_
      by_cases hn : n = k
      · subst hn; rw [readByte_of_lt h.2 (by omega), readByte_of_lt h'.2 (by omega)]
      · have := e n
        simpa only [Memory.readByte, hn, if_false] using this

/-- Writing the word that is there already changes nothing. -/
theorem writeWord_readWord {m : Memory} (h : m.wf = true) (a : Nat) : m.writeWord a (m.readWord a) = m := by
  refine memory_ext (lo := 0) (wf_writeWord a _ h) h fun n => ?_
  by_cases hn : n / 4 = a
  · have e : (m.writeWord a (m.readWord a)).readWord a = m.readWord a := readWord_writeWord_same _ _ h
    have hb := extract_wordOfBytes (m.readByte (4 * a)) (m.readByte (4 * a + 1)) (m.readByte (4 * a + 2))
      (m.readByte (4 * a + 3))
    have hb' := extract_wordOfBytes ((m.writeWord a (m.readWord a)).readByte (4 * a))
      ((m.writeWord a (m.readWord a)).readByte (4 * a + 1)) ((m.writeWord a (m.readWord a)).readByte (4 * a + 2))
      ((m.writeWord a (m.readWord a)).readByte (4 * a + 3))
    change (m.readWord a).extractLsb' 0 8 = _ ∧ (m.readWord a).extractLsb' 8 8 = _ ∧
      (m.readWord a).extractLsb' 16 8 = _ ∧ (m.readWord a).extractLsb' 24 8 = _ at hb
    change ((m.writeWord a (m.readWord a)).readWord a).extractLsb' 0 8 = _ ∧
      ((m.writeWord a (m.readWord a)).readWord a).extractLsb' 8 8 = _ ∧
      ((m.writeWord a (m.readWord a)).readWord a).extractLsb' 16 8 = _ ∧
      ((m.writeWord a (m.readWord a)).readWord a).extractLsb' 24 8 = _ at hb'
    rw [e] at hb'
    rcases (by omega : n = 4 * a ∨ n = 4 * a + 1 ∨ n = 4 * a + 2 ∨ n = 4 * a + 3) with h | h | h | h <;> subst h
    · exact hb'.1.symm.trans hb.1
    · exact hb'.2.1.symm.trans hb.2.1
    · exact hb'.2.2.1.symm.trans hb.2.2.1
    · exact hb'.2.2.2.symm.trans hb.2.2.2
  · exact readByte_writeWord_other _ _ hn

end Sys2Proof.Laws
end

