-- ==== Sys2Proof/Laws/State.lean ====
section
/-! SUPPORT. What each named update of the state does to each field, true by rfl, so that no later proof unfolds a record
update; and the same for the free values. -/

namespace Sys2Proof.Laws

open Sys2Proof.Machine

variable (s : State)

@[simp] theorem setReg_cfg (i : Reg) (v : Word) : (s.setReg i v).cfg = s.cfg := rfl
@[simp] theorem setReg_regs (i : Reg) (v : Word) : (s.setReg i v).regs = s.regs.set i v := rfl
@[simp] theorem setReg_mem (i : Reg) (v : Word) : (s.setReg i v).mem = s.mem := rfl
@[simp] theorem setReg_ticks (i : Reg) (v : Word) : (s.setReg i v).ticks = s.ticks := rfl
@[simp] theorem setReg_procs (i : Reg) (v : Word) : (s.setReg i v).procs = s.procs := rfl
@[simp] theorem setReg_cur (i : Reg) (v : Word) : (s.setReg i v).cur = s.cur := rfl
@[simp] theorem setReg_nextPid (i : Reg) (v : Word) : (s.setReg i v).nextPid = s.nextPid := rfl
@[simp] theorem setReg_loadCursor (i : Reg) (v : Word) : (s.setReg i v).loadCursor = s.loadCursor := rfl
@[simp] theorem setReg_halted (i : Reg) (v : Word) : (s.setReg i v).halted = s.halted := rfl
@[simp] theorem setReg_out (i : Reg) (v : Word) : (s.setReg i v).out = s.out := rfl
@[simp] theorem setReg_devs (i : Reg) (v : Word) : (s.setReg i v).devs = s.devs := rfl
@[simp] theorem setReg_progs (i : Reg) (v : Word) : (s.setReg i v).progs = s.progs := rfl
@[simp] theorem setReg_started (i : Reg) (v : Word) : (s.setReg i v).started = s.started := rfl
@[simp] theorem setReg_boot (i : Reg) (v : Word) : (s.setReg i v).boot = s.boot := rfl
@[simp] theorem setReg_schedule (i : Reg) (v : Word) : (s.setReg i v).schedule = s.schedule := rfl
@[simp] theorem setReg_answers (i : Reg) (v : Word) : (s.setReg i v).answers = s.answers := rfl
@[simp] theorem setReg_draws (i : Reg) (v : Word) : (s.setReg i v).draws = s.draws := rfl
@[simp] theorem setReg_drawn (i : Reg) (v : Word) : (s.setReg i v).drawn = s.drawn := rfl
@[simp] theorem setReg_nextRef (i : Reg) (v : Word) : (s.setReg i v).nextRef = s.nextRef := rfl

@[simp] theorem emit_cfg (e : Event) : (s.emit e).cfg = s.cfg := rfl
@[simp] theorem emit_regs (e : Event) : (s.emit e).regs = s.regs := rfl
@[simp] theorem emit_mem (e : Event) : (s.emit e).mem = s.mem := rfl
@[simp] theorem emit_ticks (e : Event) : (s.emit e).ticks = s.ticks := rfl
@[simp] theorem emit_procs (e : Event) : (s.emit e).procs = s.procs := rfl
@[simp] theorem emit_cur (e : Event) : (s.emit e).cur = s.cur := rfl
@[simp] theorem emit_nextPid (e : Event) : (s.emit e).nextPid = s.nextPid := rfl
@[simp] theorem emit_loadCursor (e : Event) : (s.emit e).loadCursor = s.loadCursor := rfl
@[simp] theorem emit_halted (e : Event) : (s.emit e).halted = s.halted := rfl
@[simp] theorem emit_out (e : Event) : (s.emit e).out = s.out ++ [e] := rfl
@[simp] theorem emit_devs (e : Event) : (s.emit e).devs = s.devs := rfl
@[simp] theorem emit_progs (e : Event) : (s.emit e).progs = s.progs := rfl
@[simp] theorem emit_started (e : Event) : (s.emit e).started = s.started := rfl
@[simp] theorem emit_boot (e : Event) : (s.emit e).boot = s.boot := rfl
@[simp] theorem emit_schedule (e : Event) : (s.emit e).schedule = s.schedule := rfl
@[simp] theorem emit_answers (e : Event) : (s.emit e).answers = s.answers := rfl
@[simp] theorem emit_draws (e : Event) : (s.emit e).draws = s.draws := rfl
@[simp] theorem emit_drawn (e : Event) : (s.emit e).drawn = s.drawn := rfl
@[simp] theorem emit_nextRef (e : Event) : (s.emit e).nextRef = s.nextRef := rfl

@[simp] theorem halt_cfg (h : HaltReason) : (s.halt h).cfg = s.cfg := rfl
@[simp] theorem halt_regs (h : HaltReason) : (s.halt h).regs = s.regs := rfl
@[simp] theorem halt_mem (h : HaltReason) : (s.halt h).mem = s.mem := rfl
@[simp] theorem halt_ticks (h : HaltReason) : (s.halt h).ticks = s.ticks := rfl
@[simp] theorem halt_procs (h : HaltReason) : (s.halt h).procs = s.procs := rfl
@[simp] theorem halt_cur (h : HaltReason) : (s.halt h).cur = s.cur := rfl
@[simp] theorem halt_nextPid (h : HaltReason) : (s.halt h).nextPid = s.nextPid := rfl
@[simp] theorem halt_loadCursor (h : HaltReason) : (s.halt h).loadCursor = s.loadCursor := rfl
@[simp] theorem halt_halted (h : HaltReason) : (s.halt h).halted = some h := rfl
@[simp] theorem halt_out (h : HaltReason) : (s.halt h).out = s.out ++ [.diagnostic h] := rfl
@[simp] theorem halt_devs (h : HaltReason) : (s.halt h).devs = s.devs := rfl
@[simp] theorem halt_progs (h : HaltReason) : (s.halt h).progs = s.progs := rfl
@[simp] theorem halt_started (h : HaltReason) : (s.halt h).started = s.started := rfl
@[simp] theorem halt_boot (h : HaltReason) : (s.halt h).boot = s.boot := rfl
@[simp] theorem halt_schedule (h : HaltReason) : (s.halt h).schedule = s.schedule := rfl
@[simp] theorem halt_answers (h : HaltReason) : (s.halt h).answers = s.answers := rfl
@[simp] theorem halt_draws (h : HaltReason) : (s.halt h).draws = s.draws := rfl
@[simp] theorem halt_drawn (h : HaltReason) : (s.halt h).drawn = s.drawn := rfl
@[simp] theorem halt_nextRef (h : HaltReason) : (s.halt h).nextRef = s.nextRef := rfl

@[simp] theorem addTicks_cfg (n : Nat) : (s.addTicks n).cfg = s.cfg := rfl
@[simp] theorem addTicks_regs (n : Nat) : (s.addTicks n).regs = s.regs := rfl
@[simp] theorem addTicks_mem (n : Nat) : (s.addTicks n).mem = s.mem := rfl
@[simp] theorem addTicks_ticks (n : Nat) : (s.addTicks n).ticks = s.ticks + n := rfl
@[simp] theorem addTicks_procs (n : Nat) : (s.addTicks n).procs = s.procs := rfl
@[simp] theorem addTicks_cur (n : Nat) : (s.addTicks n).cur = s.cur := rfl
@[simp] theorem addTicks_nextPid (n : Nat) : (s.addTicks n).nextPid = s.nextPid := rfl
@[simp] theorem addTicks_loadCursor (n : Nat) : (s.addTicks n).loadCursor = s.loadCursor := rfl
@[simp] theorem addTicks_halted (n : Nat) : (s.addTicks n).halted = s.halted := rfl
@[simp] theorem addTicks_out (n : Nat) : (s.addTicks n).out = s.out := rfl
@[simp] theorem addTicks_devs (n : Nat) : (s.addTicks n).devs = s.devs := rfl
@[simp] theorem addTicks_progs (n : Nat) : (s.addTicks n).progs = s.progs := rfl
@[simp] theorem addTicks_started (n : Nat) : (s.addTicks n).started = s.started := rfl
@[simp] theorem addTicks_boot (n : Nat) : (s.addTicks n).boot = s.boot := rfl
@[simp] theorem addTicks_schedule (n : Nat) : (s.addTicks n).schedule = s.schedule := rfl
@[simp] theorem addTicks_answers (n : Nat) : (s.addTicks n).answers = s.answers := rfl
@[simp] theorem addTicks_draws (n : Nat) : (s.addTicks n).draws = s.draws := rfl
@[simp] theorem addTicks_drawn (n : Nat) : (s.addTicks n).drawn = s.drawn := rfl
@[simp] theorem addTicks_nextRef (n : Nat) : (s.addTicks n).nextRef = s.nextRef := rfl

@[simp] theorem memWrite_cfg (a v : Word) : (s.memWrite a v).cfg = s.cfg := rfl
@[simp] theorem memWrite_regs (a v : Word) : (s.memWrite a v).regs = s.regs := rfl
@[simp] theorem memWrite_mem (a v : Word) : (s.memWrite a v).mem = s.mem.writeWord a.toNat v := rfl
@[simp] theorem memWrite_ticks (a v : Word) : (s.memWrite a v).ticks = s.ticks := rfl
@[simp] theorem memWrite_procs (a v : Word) : (s.memWrite a v).procs = s.procs := rfl
@[simp] theorem memWrite_cur (a v : Word) : (s.memWrite a v).cur = s.cur := rfl
@[simp] theorem memWrite_nextPid (a v : Word) : (s.memWrite a v).nextPid = s.nextPid := rfl
@[simp] theorem memWrite_loadCursor (a v : Word) : (s.memWrite a v).loadCursor = s.loadCursor := rfl
@[simp] theorem memWrite_halted (a v : Word) : (s.memWrite a v).halted = s.halted := rfl
@[simp] theorem memWrite_out (a v : Word) : (s.memWrite a v).out = s.out := rfl
@[simp] theorem memWrite_devs (a v : Word) : (s.memWrite a v).devs = s.devs := rfl
@[simp] theorem memWrite_progs (a v : Word) : (s.memWrite a v).progs = s.progs := rfl
@[simp] theorem memWrite_started (a v : Word) : (s.memWrite a v).started = s.started := rfl
@[simp] theorem memWrite_boot (a v : Word) : (s.memWrite a v).boot = s.boot := rfl
@[simp] theorem memWrite_schedule (a v : Word) : (s.memWrite a v).schedule = s.schedule := rfl
@[simp] theorem memWrite_answers (a v : Word) : (s.memWrite a v).answers = s.answers := rfl
@[simp] theorem memWrite_draws (a v : Word) : (s.memWrite a v).draws = s.draws := rfl
@[simp] theorem memWrite_drawn (a v : Word) : (s.memWrite a v).drawn = s.drawn := rfl
@[simp] theorem memWrite_nextRef (a v : Word) : (s.memWrite a v).nextRef = s.nextRef := rfl

@[simp] theorem advancePc_cfg : (s.advancePc).cfg = s.cfg := rfl
@[simp] theorem advancePc_regs : (s.advancePc).regs = s.regs.set .pc (wrap (signed s.regs.pc + Config.instrSize)) := rfl
@[simp] theorem advancePc_mem : (s.advancePc).mem = s.mem := rfl
@[simp] theorem advancePc_ticks : (s.advancePc).ticks = s.ticks := rfl
@[simp] theorem advancePc_procs : (s.advancePc).procs = s.procs := rfl
@[simp] theorem advancePc_cur : (s.advancePc).cur = s.cur := rfl
@[simp] theorem advancePc_nextPid : (s.advancePc).nextPid = s.nextPid := rfl
@[simp] theorem advancePc_loadCursor : (s.advancePc).loadCursor = s.loadCursor := rfl
@[simp] theorem advancePc_halted : (s.advancePc).halted = s.halted := rfl
@[simp] theorem advancePc_out : (s.advancePc).out = s.out := rfl
@[simp] theorem advancePc_devs : (s.advancePc).devs = s.devs := rfl
@[simp] theorem advancePc_progs : (s.advancePc).progs = s.progs := rfl
@[simp] theorem advancePc_started : (s.advancePc).started = s.started := rfl
@[simp] theorem advancePc_boot : (s.advancePc).boot = s.boot := rfl
@[simp] theorem advancePc_schedule : (s.advancePc).schedule = s.schedule := rfl
@[simp] theorem advancePc_answers : (s.advancePc).answers = s.answers := rfl
@[simp] theorem advancePc_draws : (s.advancePc).draws = s.draws := rfl
@[simp] theorem advancePc_drawn : (s.advancePc).drawn = s.drawn := rfl
@[simp] theorem advancePc_nextRef : (s.advancePc).nextRef = s.nextRef := rfl

@[simp] theorem rewindPc_cfg : (s.rewindPc).cfg = s.cfg := rfl
@[simp] theorem rewindPc_regs : (s.rewindPc).regs = s.regs.set .pc (wrap (signed s.regs.pc - Config.instrSize)) := rfl
@[simp] theorem rewindPc_mem : (s.rewindPc).mem = s.mem := rfl
@[simp] theorem rewindPc_ticks : (s.rewindPc).ticks = s.ticks := rfl
@[simp] theorem rewindPc_procs : (s.rewindPc).procs = s.procs := rfl
@[simp] theorem rewindPc_cur : (s.rewindPc).cur = s.cur := rfl
@[simp] theorem rewindPc_nextPid : (s.rewindPc).nextPid = s.nextPid := rfl
@[simp] theorem rewindPc_loadCursor : (s.rewindPc).loadCursor = s.loadCursor := rfl
@[simp] theorem rewindPc_halted : (s.rewindPc).halted = s.halted := rfl
@[simp] theorem rewindPc_out : (s.rewindPc).out = s.out := rfl
@[simp] theorem rewindPc_devs : (s.rewindPc).devs = s.devs := rfl
@[simp] theorem rewindPc_progs : (s.rewindPc).progs = s.progs := rfl
@[simp] theorem rewindPc_started : (s.rewindPc).started = s.started := rfl
@[simp] theorem rewindPc_boot : (s.rewindPc).boot = s.boot := rfl
@[simp] theorem rewindPc_schedule : (s.rewindPc).schedule = s.schedule := rfl
@[simp] theorem rewindPc_answers : (s.rewindPc).answers = s.answers := rfl
@[simp] theorem rewindPc_draws : (s.rewindPc).draws = s.draws := rfl
@[simp] theorem rewindPc_drawn : (s.rewindPc).drawn = s.drawn := rfl
@[simp] theorem rewindPc_nextRef : (s.rewindPc).nextRef = s.nextRef := rfl

@[simp] theorem updatePcb_cfg (r : Nat) (f : PCB → PCB) : (s.updatePcb r f).cfg = s.cfg := rfl
@[simp] theorem updatePcb_regs (r : Nat) (f : PCB → PCB) : (s.updatePcb r f).regs = s.regs := rfl
@[simp] theorem updatePcb_mem (r : Nat) (f : PCB → PCB) : (s.updatePcb r f).mem = s.mem := rfl
@[simp] theorem updatePcb_ticks (r : Nat) (f : PCB → PCB) : (s.updatePcb r f).ticks = s.ticks := rfl
@[simp] theorem updatePcb_procs (r : Nat) (f : PCB → PCB) : (s.updatePcb r f).procs = updateFirst (fun p => p.ref == r) f s.procs := rfl
@[simp] theorem updatePcb_cur (r : Nat) (f : PCB → PCB) : (s.updatePcb r f).cur = s.cur := rfl
@[simp] theorem updatePcb_nextPid (r : Nat) (f : PCB → PCB) : (s.updatePcb r f).nextPid = s.nextPid := rfl
@[simp] theorem updatePcb_loadCursor (r : Nat) (f : PCB → PCB) : (s.updatePcb r f).loadCursor = s.loadCursor := rfl
@[simp] theorem updatePcb_halted (r : Nat) (f : PCB → PCB) : (s.updatePcb r f).halted = s.halted := rfl
@[simp] theorem updatePcb_out (r : Nat) (f : PCB → PCB) : (s.updatePcb r f).out = s.out := rfl
@[simp] theorem updatePcb_devs (r : Nat) (f : PCB → PCB) : (s.updatePcb r f).devs = s.devs := rfl
@[simp] theorem updatePcb_progs (r : Nat) (f : PCB → PCB) : (s.updatePcb r f).progs = s.progs := rfl
@[simp] theorem updatePcb_started (r : Nat) (f : PCB → PCB) : (s.updatePcb r f).started = s.started := rfl
@[simp] theorem updatePcb_boot (r : Nat) (f : PCB → PCB) : (s.updatePcb r f).boot = s.boot := rfl
@[simp] theorem updatePcb_schedule (r : Nat) (f : PCB → PCB) : (s.updatePcb r f).schedule = s.schedule := rfl
@[simp] theorem updatePcb_answers (r : Nat) (f : PCB → PCB) : (s.updatePcb r f).answers = s.answers := rfl
@[simp] theorem updatePcb_draws (r : Nat) (f : PCB → PCB) : (s.updatePcb r f).draws = s.draws := rfl
@[simp] theorem updatePcb_drawn (r : Nat) (f : PCB → PCB) : (s.updatePcb r f).drawn = s.drawn := rfl
@[simp] theorem updatePcb_nextRef (r : Nat) (f : PCB → PCB) : (s.updatePcb r f).nextRef = s.nextRef := rfl

@[simp] theorem setBlock_cfg (r : Nat) (k : Option BlockKey) : (s.setBlock r k).cfg = s.cfg := rfl
@[simp] theorem setBlock_regs (r : Nat) (k : Option BlockKey) : (s.setBlock r k).regs = s.regs := rfl
@[simp] theorem setBlock_mem (r : Nat) (k : Option BlockKey) : (s.setBlock r k).mem = s.mem := rfl
@[simp] theorem setBlock_ticks (r : Nat) (k : Option BlockKey) : (s.setBlock r k).ticks = s.ticks := rfl
@[simp] theorem setBlock_procs (r : Nat) (k : Option BlockKey) : (s.setBlock r k).procs = updateFirst (fun p => p.ref == r) (fun p => { p with block := k }) s.procs := rfl
@[simp] theorem setBlock_cur (r : Nat) (k : Option BlockKey) : (s.setBlock r k).cur = s.cur := rfl
@[simp] theorem setBlock_nextPid (r : Nat) (k : Option BlockKey) : (s.setBlock r k).nextPid = s.nextPid := rfl
@[simp] theorem setBlock_loadCursor (r : Nat) (k : Option BlockKey) : (s.setBlock r k).loadCursor = s.loadCursor := rfl
@[simp] theorem setBlock_halted (r : Nat) (k : Option BlockKey) : (s.setBlock r k).halted = s.halted := rfl
@[simp] theorem setBlock_out (r : Nat) (k : Option BlockKey) : (s.setBlock r k).out = s.out := rfl
@[simp] theorem setBlock_devs (r : Nat) (k : Option BlockKey) : (s.setBlock r k).devs = s.devs := rfl
@[simp] theorem setBlock_progs (r : Nat) (k : Option BlockKey) : (s.setBlock r k).progs = s.progs := rfl
@[simp] theorem setBlock_started (r : Nat) (k : Option BlockKey) : (s.setBlock r k).started = s.started := rfl
@[simp] theorem setBlock_boot (r : Nat) (k : Option BlockKey) : (s.setBlock r k).boot = s.boot := rfl
@[simp] theorem setBlock_schedule (r : Nat) (k : Option BlockKey) : (s.setBlock r k).schedule = s.schedule := rfl
@[simp] theorem setBlock_answers (r : Nat) (k : Option BlockKey) : (s.setBlock r k).answers = s.answers := rfl
@[simp] theorem setBlock_draws (r : Nat) (k : Option BlockKey) : (s.setBlock r k).draws = s.draws := rfl
@[simp] theorem setBlock_drawn (r : Nat) (k : Option BlockKey) : (s.setBlock r k).drawn = s.drawn := rfl
@[simp] theorem setBlock_nextRef (r : Nat) (k : Option BlockKey) : (s.setBlock r k).nextRef = s.nextRef := rfl

@[simp] theorem saveContext_cfg (r : Nat) : (saveContext r s).cfg = s.cfg := rfl
@[simp] theorem saveContext_regs (r : Nat) : (saveContext r s).regs = s.regs := rfl
@[simp] theorem saveContext_mem (r : Nat) : (saveContext r s).mem = s.mem := rfl
@[simp] theorem saveContext_ticks (r : Nat) : (saveContext r s).ticks = s.ticks + s.cfg.saveLoadTime := rfl
@[simp] theorem saveContext_cur (r : Nat) : (saveContext r s).cur = s.cur := rfl
@[simp] theorem saveContext_nextPid (r : Nat) : (saveContext r s).nextPid = s.nextPid := rfl
@[simp] theorem saveContext_loadCursor (r : Nat) : (saveContext r s).loadCursor = s.loadCursor := rfl
@[simp] theorem saveContext_halted (r : Nat) : (saveContext r s).halted = s.halted := rfl
@[simp] theorem saveContext_out (r : Nat) : (saveContext r s).out = s.out := rfl
@[simp] theorem saveContext_devs (r : Nat) : (saveContext r s).devs = s.devs := rfl
@[simp] theorem saveContext_progs (r : Nat) : (saveContext r s).progs = s.progs := rfl
@[simp] theorem saveContext_started (r : Nat) : (saveContext r s).started = s.started := rfl
@[simp] theorem saveContext_boot (r : Nat) : (saveContext r s).boot = s.boot := rfl
@[simp] theorem saveContext_schedule (r : Nat) : (saveContext r s).schedule = s.schedule := rfl
@[simp] theorem saveContext_answers (r : Nat) : (saveContext r s).answers = s.answers := rfl
@[simp] theorem saveContext_draws (r : Nat) : (saveContext r s).draws = s.draws := rfl
@[simp] theorem saveContext_drawn (r : Nat) : (saveContext r s).drawn = s.drawn := rfl
@[simp] theorem saveContext_nextRef (r : Nat) : (saveContext r s).nextRef = s.nextRef := rfl

@[simp] theorem updateOpenSet_cfg (d : Int) (f : List Nat → List Nat) : (s.updateOpenSet d f).cfg = s.cfg := rfl
@[simp] theorem updateOpenSet_regs (d : Int) (f : List Nat → List Nat) : (s.updateOpenSet d f).regs = s.regs := rfl
@[simp] theorem updateOpenSet_mem (d : Int) (f : List Nat → List Nat) : (s.updateOpenSet d f).mem = s.mem := rfl
@[simp] theorem updateOpenSet_ticks (d : Int) (f : List Nat → List Nat) : (s.updateOpenSet d f).ticks = s.ticks := rfl
@[simp] theorem updateOpenSet_procs (d : Int) (f : List Nat → List Nat) : (s.updateOpenSet d f).procs = s.procs := rfl
@[simp] theorem updateOpenSet_cur (d : Int) (f : List Nat → List Nat) : (s.updateOpenSet d f).cur = s.cur := rfl
@[simp] theorem updateOpenSet_nextPid (d : Int) (f : List Nat → List Nat) : (s.updateOpenSet d f).nextPid = s.nextPid := rfl
@[simp] theorem updateOpenSet_loadCursor (d : Int) (f : List Nat → List Nat) : (s.updateOpenSet d f).loadCursor = s.loadCursor := rfl
@[simp] theorem updateOpenSet_halted (d : Int) (f : List Nat → List Nat) : (s.updateOpenSet d f).halted = s.halted := rfl
@[simp] theorem updateOpenSet_out (d : Int) (f : List Nat → List Nat) : (s.updateOpenSet d f).out = s.out := rfl
@[simp] theorem updateOpenSet_progs (d : Int) (f : List Nat → List Nat) : (s.updateOpenSet d f).progs = s.progs := rfl
@[simp] theorem updateOpenSet_started (d : Int) (f : List Nat → List Nat) : (s.updateOpenSet d f).started = s.started := rfl
@[simp] theorem updateOpenSet_boot (d : Int) (f : List Nat → List Nat) : (s.updateOpenSet d f).boot = s.boot := rfl
@[simp] theorem updateOpenSet_schedule (d : Int) (f : List Nat → List Nat) : (s.updateOpenSet d f).schedule = s.schedule := rfl
@[simp] theorem updateOpenSet_answers (d : Int) (f : List Nat → List Nat) : (s.updateOpenSet d f).answers = s.answers := rfl
@[simp] theorem updateOpenSet_draws (d : Int) (f : List Nat → List Nat) : (s.updateOpenSet d f).draws = s.draws := rfl
@[simp] theorem updateOpenSet_drawn (d : Int) (f : List Nat → List Nat) : (s.updateOpenSet d f).drawn = s.drawn := rfl
@[simp] theorem updateOpenSet_nextRef (d : Int) (f : List Nat → List Nat) : (s.updateOpenSet d f).nextRef = s.nextRef := rfl

@[simp] theorem countExec_cfg (n : Nat) : (s.countExec n).cfg = s.cfg := rfl
@[simp] theorem countExec_regs (n : Nat) : (s.countExec n).regs = s.regs := rfl
@[simp] theorem countExec_mem (n : Nat) : (s.countExec n).mem = s.mem := rfl
@[simp] theorem countExec_ticks (n : Nat) : (s.countExec n).ticks = s.ticks := rfl
@[simp] theorem countExec_procs (n : Nat) : (s.countExec n).procs = s.procs := rfl
@[simp] theorem countExec_cur (n : Nat) : (s.countExec n).cur = s.cur := rfl
@[simp] theorem countExec_nextPid (n : Nat) : (s.countExec n).nextPid = s.nextPid := rfl
@[simp] theorem countExec_loadCursor (n : Nat) : (s.countExec n).loadCursor = s.loadCursor := rfl
@[simp] theorem countExec_halted (n : Nat) : (s.countExec n).halted = s.halted := rfl
@[simp] theorem countExec_out (n : Nat) : (s.countExec n).out = s.out := rfl
@[simp] theorem countExec_devs (n : Nat) : (s.countExec n).devs = s.devs := rfl
@[simp] theorem countExec_started (n : Nat) : (s.countExec n).started = s.started := rfl
@[simp] theorem countExec_boot (n : Nat) : (s.countExec n).boot = s.boot := rfl
@[simp] theorem countExec_schedule (n : Nat) : (s.countExec n).schedule = s.schedule := rfl
@[simp] theorem countExec_answers (n : Nat) : (s.countExec n).answers = s.answers := rfl
@[simp] theorem countExec_draws (n : Nat) : (s.countExec n).draws = s.draws := rfl
@[simp] theorem countExec_drawn (n : Nat) : (s.countExec n).drawn = s.drawn := rfl
@[simp] theorem countExec_nextRef (n : Nat) : (s.countExec n).nextRef = s.nextRef := rfl

@[simp] theorem registerDevice_cfg (d : Int) (c : Device) : (s.registerDevice d c).cfg = s.cfg := rfl
@[simp] theorem registerDevice_regs (d : Int) (c : Device) : (s.registerDevice d c).regs = s.regs := rfl
@[simp] theorem registerDevice_mem (d : Int) (c : Device) : (s.registerDevice d c).mem = s.mem := rfl
@[simp] theorem registerDevice_ticks (d : Int) (c : Device) : (s.registerDevice d c).ticks = s.ticks := rfl
@[simp] theorem registerDevice_procs (d : Int) (c : Device) : (s.registerDevice d c).procs = s.procs := rfl
@[simp] theorem registerDevice_cur (d : Int) (c : Device) : (s.registerDevice d c).cur = s.cur := rfl
@[simp] theorem registerDevice_nextPid (d : Int) (c : Device) : (s.registerDevice d c).nextPid = s.nextPid := rfl
@[simp] theorem registerDevice_loadCursor (d : Int) (c : Device) : (s.registerDevice d c).loadCursor = s.loadCursor := rfl
@[simp] theorem registerDevice_halted (d : Int) (c : Device) : (s.registerDevice d c).halted = s.halted := rfl
@[simp] theorem registerDevice_out (d : Int) (c : Device) : (s.registerDevice d c).out = s.out := rfl
@[simp] theorem registerDevice_progs (d : Int) (c : Device) : (s.registerDevice d c).progs = s.progs := rfl
@[simp] theorem registerDevice_started (d : Int) (c : Device) : (s.registerDevice d c).started = s.started := rfl
@[simp] theorem registerDevice_boot (d : Int) (c : Device) : (s.registerDevice d c).boot = s.boot := rfl
@[simp] theorem registerDevice_schedule (d : Int) (c : Device) : (s.registerDevice d c).schedule = s.schedule := rfl
@[simp] theorem registerDevice_answers (d : Int) (c : Device) : (s.registerDevice d c).answers = s.answers := rfl
@[simp] theorem registerDevice_draws (d : Int) (c : Device) : (s.registerDevice d c).draws = s.draws := rfl
@[simp] theorem registerDevice_drawn (d : Int) (c : Device) : (s.registerDevice d c).drawn = s.drawn := rfl
@[simp] theorem registerDevice_nextRef (d : Int) (c : Device) : (s.registerDevice d c).nextRef = s.nextRef := rfl

@[simp] theorem registerProgram_cfg (P : Program) : (s.registerProgram P).cfg = s.cfg := rfl
@[simp] theorem registerProgram_regs (P : Program) : (s.registerProgram P).regs = s.regs := rfl
@[simp] theorem registerProgram_mem (P : Program) : (s.registerProgram P).mem = s.mem := rfl
@[simp] theorem registerProgram_ticks (P : Program) : (s.registerProgram P).ticks = s.ticks := rfl
@[simp] theorem registerProgram_procs (P : Program) : (s.registerProgram P).procs = s.procs := rfl
@[simp] theorem registerProgram_cur (P : Program) : (s.registerProgram P).cur = s.cur := rfl
@[simp] theorem registerProgram_nextPid (P : Program) : (s.registerProgram P).nextPid = s.nextPid := rfl
@[simp] theorem registerProgram_loadCursor (P : Program) : (s.registerProgram P).loadCursor = s.loadCursor := rfl
@[simp] theorem registerProgram_halted (P : Program) : (s.registerProgram P).halted = s.halted := rfl
@[simp] theorem registerProgram_out (P : Program) : (s.registerProgram P).out = s.out := rfl
@[simp] theorem registerProgram_devs (P : Program) : (s.registerProgram P).devs = s.devs := rfl
@[simp] theorem registerProgram_started (P : Program) : (s.registerProgram P).started = s.started := rfl
@[simp] theorem registerProgram_boot (P : Program) : (s.registerProgram P).boot = s.boot := rfl
@[simp] theorem registerProgram_schedule (P : Program) : (s.registerProgram P).schedule = s.schedule := rfl
@[simp] theorem registerProgram_answers (P : Program) : (s.registerProgram P).answers = s.answers := rfl
@[simp] theorem registerProgram_draws (P : Program) : (s.registerProgram P).draws = s.draws := rfl
@[simp] theorem registerProgram_drawn (P : Program) : (s.registerProgram P).drawn = s.drawn := rfl
@[simp] theorem registerProgram_nextRef (P : Program) : (s.registerProgram P).nextRef = s.nextRef := rfl

@[simp] theorem appendPcb_cfg (i : Nat) : (s.appendPcb i).cfg = s.cfg := rfl
@[simp] theorem appendPcb_regs (i : Nat) : (s.appendPcb i).regs = s.regs := rfl
@[simp] theorem appendPcb_mem (i : Nat) : (s.appendPcb i).mem = s.mem := rfl
@[simp] theorem appendPcb_ticks (i : Nat) : (s.appendPcb i).ticks = s.ticks := rfl
@[simp] theorem appendPcb_procs (i : Nat) : (s.appendPcb i).procs = s.procs ++ [PCB.new s.nextRef i] := rfl
@[simp] theorem appendPcb_cur (i : Nat) : (s.appendPcb i).cur = some s.nextRef := rfl
@[simp] theorem appendPcb_loadCursor (i : Nat) : (s.appendPcb i).loadCursor = s.loadCursor := rfl
@[simp] theorem appendPcb_halted (i : Nat) : (s.appendPcb i).halted = s.halted := rfl
@[simp] theorem appendPcb_out (i : Nat) : (s.appendPcb i).out = s.out := rfl
@[simp] theorem appendPcb_devs (i : Nat) : (s.appendPcb i).devs = s.devs := rfl
@[simp] theorem appendPcb_progs (i : Nat) : (s.appendPcb i).progs = s.progs := rfl
@[simp] theorem appendPcb_started (i : Nat) : (s.appendPcb i).started = s.started := rfl
@[simp] theorem appendPcb_boot (i : Nat) : (s.appendPcb i).boot = s.boot := rfl
@[simp] theorem appendPcb_schedule (i : Nat) : (s.appendPcb i).schedule = s.schedule := rfl
@[simp] theorem appendPcb_answers (i : Nat) : (s.appendPcb i).answers = s.answers := rfl
@[simp] theorem appendPcb_draws (i : Nat) : (s.appendPcb i).draws = s.draws := rfl
@[simp] theorem appendPcb_drawn (i : Nat) : (s.appendPcb i).drawn = s.drawn := rfl
@[simp] theorem appendPcb_nextRef (i : Nat) : (s.appendPcb i).nextRef = s.nextRef + 1 := rfl

@[simp] theorem draw_cfg : (s.draw).2.cfg = s.cfg := by
  unfold State.draw; split <;> rfl
@[simp] theorem draw_regs : (s.draw).2.regs = s.regs := by
  unfold State.draw; split <;> rfl
@[simp] theorem draw_mem : (s.draw).2.mem = s.mem := by
  unfold State.draw; split <;> rfl
@[simp] theorem draw_ticks : (s.draw).2.ticks = s.ticks := by
  unfold State.draw; split <;> rfl
@[simp] theorem draw_procs : (s.draw).2.procs = s.procs := by
  unfold State.draw; split <;> rfl
@[simp] theorem draw_cur : (s.draw).2.cur = s.cur := by
  unfold State.draw; split <;> rfl
@[simp] theorem draw_nextPid : (s.draw).2.nextPid = s.nextPid := by
  unfold State.draw; split <;> rfl
@[simp] theorem draw_loadCursor : (s.draw).2.loadCursor = s.loadCursor := by
  unfold State.draw; split <;> rfl
@[simp] theorem draw_halted : (s.draw).2.halted = s.halted := by
  unfold State.draw; split <;> rfl
@[simp] theorem draw_out : (s.draw).2.out = s.out := by
  unfold State.draw; split <;> rfl
@[simp] theorem draw_devs : (s.draw).2.devs = s.devs := by
  unfold State.draw; split <;> rfl
@[simp] theorem draw_progs : (s.draw).2.progs = s.progs := by
  unfold State.draw; split <;> rfl
@[simp] theorem draw_started : (s.draw).2.started = s.started := by
  unfold State.draw; split <;> rfl
@[simp] theorem draw_boot : (s.draw).2.boot = s.boot := by
  unfold State.draw; split <;> rfl
@[simp] theorem draw_schedule : (s.draw).2.schedule = s.schedule := by
  unfold State.draw; split <;> rfl
@[simp] theorem draw_answers : (s.draw).2.answers = s.answers := by
  unfold State.draw; split <;> rfl
@[simp] theorem draw_nextRef : (s.draw).2.nextRef = s.nextRef := by
  unfold State.draw; split <;> rfl

@[simp] theorem askAvailable_cfg : (s.askAvailable).2.cfg = s.cfg := by
  unfold State.askAvailable; split <;> rfl
@[simp] theorem askAvailable_regs : (s.askAvailable).2.regs = s.regs := by
  unfold State.askAvailable; split <;> rfl
@[simp] theorem askAvailable_mem : (s.askAvailable).2.mem = s.mem := by
  unfold State.askAvailable; split <;> rfl
@[simp] theorem askAvailable_ticks : (s.askAvailable).2.ticks = s.ticks := by
  unfold State.askAvailable; split <;> rfl
@[simp] theorem askAvailable_procs : (s.askAvailable).2.procs = s.procs := by
  unfold State.askAvailable; split <;> rfl
@[simp] theorem askAvailable_cur : (s.askAvailable).2.cur = s.cur := by
  unfold State.askAvailable; split <;> rfl
@[simp] theorem askAvailable_nextPid : (s.askAvailable).2.nextPid = s.nextPid := by
  unfold State.askAvailable; split <;> rfl
@[simp] theorem askAvailable_loadCursor : (s.askAvailable).2.loadCursor = s.loadCursor := by
  unfold State.askAvailable; split <;> rfl
@[simp] theorem askAvailable_halted : (s.askAvailable).2.halted = s.halted := by
  unfold State.askAvailable; split <;> rfl
@[simp] theorem askAvailable_out : (s.askAvailable).2.out = s.out := by
  unfold State.askAvailable; split <;> rfl
@[simp] theorem askAvailable_devs : (s.askAvailable).2.devs = s.devs := by
  unfold State.askAvailable; split <;> rfl
@[simp] theorem askAvailable_progs : (s.askAvailable).2.progs = s.progs := by
  unfold State.askAvailable; split <;> rfl
@[simp] theorem askAvailable_started : (s.askAvailable).2.started = s.started := by
  unfold State.askAvailable; split <;> rfl
@[simp] theorem askAvailable_boot : (s.askAvailable).2.boot = s.boot := by
  unfold State.askAvailable; split <;> rfl
@[simp] theorem askAvailable_schedule : (s.askAvailable).2.schedule = s.schedule := by
  unfold State.askAvailable; split <;> rfl
@[simp] theorem askAvailable_draws : (s.askAvailable).2.draws = s.draws := by
  unfold State.askAvailable; split <;> rfl
@[simp] theorem askAvailable_nextRef : (s.askAvailable).2.nextRef = s.nextRef := by
  unfold State.askAvailable; split <;> rfl

@[simp] theorem choose_cfg (n : Nat) : (s.choose n).2.cfg = s.cfg := draw_cfg s
@[simp] theorem drawWord_cfg : (s.drawWord).2.cfg = s.cfg := draw_cfg s
@[simp] theorem choose_regs (n : Nat) : (s.choose n).2.regs = s.regs := draw_regs s
@[simp] theorem drawWord_regs : (s.drawWord).2.regs = s.regs := draw_regs s
@[simp] theorem choose_mem (n : Nat) : (s.choose n).2.mem = s.mem := draw_mem s
@[simp] theorem drawWord_mem : (s.drawWord).2.mem = s.mem := draw_mem s
@[simp] theorem choose_ticks (n : Nat) : (s.choose n).2.ticks = s.ticks := draw_ticks s
@[simp] theorem drawWord_ticks : (s.drawWord).2.ticks = s.ticks := draw_ticks s
@[simp] theorem choose_procs (n : Nat) : (s.choose n).2.procs = s.procs := draw_procs s
@[simp] theorem drawWord_procs : (s.drawWord).2.procs = s.procs := draw_procs s
@[simp] theorem choose_cur (n : Nat) : (s.choose n).2.cur = s.cur := draw_cur s
@[simp] theorem drawWord_cur : (s.drawWord).2.cur = s.cur := draw_cur s
@[simp] theorem choose_nextPid (n : Nat) : (s.choose n).2.nextPid = s.nextPid := draw_nextPid s
@[simp] theorem drawWord_nextPid : (s.drawWord).2.nextPid = s.nextPid := draw_nextPid s
@[simp] theorem choose_loadCursor (n : Nat) : (s.choose n).2.loadCursor = s.loadCursor := draw_loadCursor s
@[simp] theorem drawWord_loadCursor : (s.drawWord).2.loadCursor = s.loadCursor := draw_loadCursor s
@[simp] theorem choose_halted (n : Nat) : (s.choose n).2.halted = s.halted := draw_halted s
@[simp] theorem drawWord_halted : (s.drawWord).2.halted = s.halted := draw_halted s
@[simp] theorem choose_out (n : Nat) : (s.choose n).2.out = s.out := draw_out s
@[simp] theorem drawWord_out : (s.drawWord).2.out = s.out := draw_out s
@[simp] theorem choose_devs (n : Nat) : (s.choose n).2.devs = s.devs := draw_devs s
@[simp] theorem drawWord_devs : (s.drawWord).2.devs = s.devs := draw_devs s
@[simp] theorem choose_progs (n : Nat) : (s.choose n).2.progs = s.progs := draw_progs s
@[simp] theorem drawWord_progs : (s.drawWord).2.progs = s.progs := draw_progs s
@[simp] theorem choose_started (n : Nat) : (s.choose n).2.started = s.started := draw_started s
@[simp] theorem drawWord_started : (s.drawWord).2.started = s.started := draw_started s
@[simp] theorem choose_boot (n : Nat) : (s.choose n).2.boot = s.boot := draw_boot s
@[simp] theorem drawWord_boot : (s.drawWord).2.boot = s.boot := draw_boot s
@[simp] theorem choose_schedule (n : Nat) : (s.choose n).2.schedule = s.schedule := draw_schedule s
@[simp] theorem drawWord_schedule : (s.drawWord).2.schedule = s.schedule := draw_schedule s
@[simp] theorem choose_answers (n : Nat) : (s.choose n).2.answers = s.answers := draw_answers s
@[simp] theorem drawWord_answers : (s.drawWord).2.answers = s.answers := draw_answers s
@[simp] theorem choose_nextRef (n : Nat) : (s.choose n).2.nextRef = s.nextRef := draw_nextRef s
@[simp] theorem drawWord_nextRef : (s.drawWord).2.nextRef = s.nextRef := draw_nextRef s

end Sys2Proof.Laws
end

