-- ==== Sys2Proof/Laws/Ops.lean ====
section
/-! SUPPORT. One lemma per shared operation: everything it can do.  Callers cite these and never unfold the operation. -/

namespace Sys2Proof.Laws

open Sys2Proof.Machine

/-! ### How a block ends -/

@[simp] theorem andThen_go {α β : Type} (a : α) (s : State) (k : α → State → Flow β) :
    (Flow.go a s).andThen k = k a s := rfl

@[simp] theorem andThen_stop {α β : Type} (o : Host.Outcome State Fault Refusal) (k : α → State → Flow β) :
    (Flow.stop o : Flow α).andThen k = .stop o := rfl

@[simp] theorem andThen_raise {α β : Type} (h : HaltReason) (s : State) (k : α → State → Flow β) :
    (raise h s : Flow α).andThen k = raise h s := rfl

@[simp] theorem finish_go (s : State) : (Flow.go () s).finish = .next s := rfl

@[simp] theorem finish_stop (o : Host.Outcome State Fault Refusal) : (Flow.stop o).finish = o := rfl

@[simp] theorem finish_raise (h : HaltReason) (s : State) : (raise h s : Flow Unit).finish = .next (s.halt h) := rfl

theorem andThen_ite {α β : Type} (c : Prop) [Decidable c] (x y : Flow α) (k : α → State → Flow β) :
    (if c then x else y).andThen k = if c then x.andThen k else y.andThen k := by
  split <;> rfl

/-- What a block may do: `P` of the value and state it finishes with, `Q` of a halted state it stops with, never a fault,
and a refusal only if `R`. -/
def Sat {α : Type} (P : α → State → Prop) (Q : State → Prop) (R : Prop) : Flow α → Prop
  | .go a s => P a s
  | .stop (.next s) => Q s
  | .stop (.fault _) => False
  | .stop (.refused _) => R

theorem Sat.andThen {α β : Type} {P : α → State → Prop} {P' : β → State → Prop} {Q : State → Prop} {R : Prop}
    {x : Flow α} {k : α → State → Flow β} (h : Sat P Q R x) (hk : ∀ a s, P a s → Sat P' Q R (k a s)) :
    Sat P' Q R (x.andThen k) := by
  cases x with
  | go a s => exact hk a s h
  | stop o => cases o <;> exact h

theorem Sat.mono {α : Type} {P P' : α → State → Prop} {Q Q' : State → Prop} {R R' : Prop} {x : Flow α}
    (h : Sat P Q R x) (hP : ∀ a s, P a s → P' a s) (hQ : ∀ s, Q s → Q' s) (hR : R → R') : Sat P' Q' R' x := by
  cases x with
  | go a s => exact hP a s h
  | stop o =>
    cases o with
    | next s => exact hQ s h
    | fault f => exact h
    | refused r => exact hR h

@[simp] theorem Sat_go {α : Type} {P : α → State → Prop} {Q : State → Prop} {R : Prop} (a : α) (s : State) :
    Sat P Q R (.go a s) ↔ P a s := Iff.rfl

@[simp] theorem Sat_raise {α : Type} {P : α → State → Prop} {Q : State → Prop} {R : Prop} (h : HaltReason) (s : State) :
    Sat P Q R (raise h s) ↔ Q (s.halt h) := Iff.rfl

/-- A block that finishes or halts gives a next state of which the one or the other holds. -/
theorem Sat.finish {P : Unit → State → Prop} {Q : State → Prop} {R : Prop} {x : Flow Unit} (h : Sat P Q R x) :
    (∃ t, x.finish = .next t ∧ (P () t ∨ Q t)) ∨ (∃ r, x.finish = .refused r ∧ R) := by
  cases x with
  | go a s => exact .inl ⟨s, rfl, .inl h⟩
  | stop o =>
    cases o with
    | next s => exact .inl ⟨s, rfl, .inr h⟩
    | fault f => exact absurd h (by simp [Sat])
    | refused r => exact .inr ⟨r, rfl, h⟩

/-! ### Registers -/

@[simp] theorem get_set_same (x : Regs) (i : Reg) (v : Word) : (x.set i v).get i = v := by cases i <;> rfl

theorem get_set_other (x : Regs) {i j : Reg} (v : Word) (h : j ≠ i) : (x.set i v).get j = x.get j := by
  cases i <;> cases j <;> first | rfl | exact absurd rfl h

theorem reg_setReg (s : State) (i j : Reg) (v : Word) : (s.setReg i v).reg j = if j = i then v else s.reg j := by
  split
  · rename_i h; subst h; exact get_set_same _ _ _
  · rename_i h; exact get_set_other _ _ h

@[simp] theorem set_get (x : Regs) (i : Reg) : x.set i (x.get i) = x := by cases i <;> rfl

/-! ### The check -/

theorem windowAllows_iff (base lim : Word) (n : Nat) (a : Word) :
    windowAllows base lim n a = true ↔
      signed base ≤ signed a ∧ signed a ≤ signed lim ∧ 0 ≤ signed a ∧ signed a < n := by
  simp [windowAllows, and_assoc]

theorem allows_iff (s : State) (a : Word) :
    s.allows a = true ↔
      signed s.regs.base ≤ signed a ∧ signed a ≤ signed s.regs.lim ∧ 0 ≤ signed a ∧ signed a < s.cfg.memSize :=
  windowAllows_iff _ _ _ _

theorem windowAllows_lt {base lim : Word} {n : Nat} {a : Word} (h : windowAllows base lim n a = true) : a.toNat < n := by
  rw [windowAllows_iff] at h
  have := signed_nonneg_toNat h.2.2.1
  omega

theorem allows_lt {s : State} {a : Word} (h : s.allows a = true) : a.toNat < s.cfg.memSize := windowAllows_lt h

theorem check_ok {a : Word} {s : State} (h : s.allows a = true) : check a s = .go () s := by simp [check, h]

theorem check_bad {a : Word} {s : State} (h : s.allows a = false) : check a s = raise (.illegalMemoryAccess a) s := by
  simp [check, h]

/-! ### The stack -/

@[simp] theorem lowerSp_base (x : Regs) : x.lowerSp.base = x.base := by unfold Regs.lowerSp; split <;> rfl
@[simp] theorem lowerSp_lim (x : Regs) : x.lowerSp.lim = x.lim := by unfold Regs.lowerSp; split <;> rfl
@[simp] theorem raiseSp_base (x : Regs) : x.raiseSp.base = x.base := by unfold Regs.raiseSp; split <;> rfl
@[simp] theorem raiseSp_lim (x : Regs) : x.raiseSp.lim = x.lim := by unfold Regs.raiseSp; split <;> rfl

theorem lowerSp_get (x : Regs) {i : Reg} (h : i ≠ .sp) : x.lowerSp.get i = x.get i := by
  unfold Regs.lowerSp; split
  · cases i <;> first | rfl | exact absurd rfl h
  · rfl

theorem raiseSp_get (x : Regs) {i : Reg} (h : i ≠ .sp) : x.raiseSp.get i = x.get i := by
  unfold Regs.raiseSp; split
  · cases i <;> first | rfl | exact absurd rfl h
  · rfl

theorem lowerSp_sp (x : Regs) : x.lowerSp.sp = if signed x.base < signed x.sp then x.sp - 1 else x.sp := by
  unfold Regs.lowerSp; split <;> rfl

theorem raiseSp_sp (x : Regs) : x.raiseSp.sp = if signed x.sp < signed x.lim then x.sp + 1 else x.sp := by
  unfold Regs.raiseSp; split <;> rfl

theorem allows_lowerSp (s : State) (a : Word) : State.allows { s with regs := s.regs.lowerSp } a = s.allows a := by
  simp [State.allows]

theorem allows_raiseSp (s : State) (a : Word) : State.allows { s with regs := s.regs.raiseSp } a = s.allows a := by
  simp [State.allows]

/-- `push` (R136): it stores at the clamped, decremented SP, or halts with the decrement kept. -/
theorem push_eq (v : Word) (s : State) :
    push v s = if s.allows s.regs.lowerSp.sp
      then .go () ({ s with regs := s.regs.lowerSp }.memWrite s.regs.lowerSp.sp v)
      else raise (.illegalMemoryAccess s.regs.lowerSp.sp) { s with regs := s.regs.lowerSp } := by
  simp only [push, check, allows_lowerSp]
  split <;> rfl

/-- `pop` (R137): it answers the word at SP and moves SP up, clamped, or halts with nothing changed. -/
theorem pop_eq (s : State) :
    pop s = if s.allows s.regs.sp then .go (s.memRead s.regs.sp) { s with regs := s.regs.raiseSp }
      else raise (.illegalMemoryAccess s.regs.sp) s := by
  simp only [pop, check]
  split <;> rfl

theorem push_ok {v : Word} {s : State} (h : s.allows s.regs.lowerSp.sp = true) :
    push v s = .go () ({ s with regs := s.regs.lowerSp }.memWrite s.regs.lowerSp.sp v) := by
  rw [push_eq, if_pos h]

theorem push_bad {v : Word} {s : State} (h : s.allows s.regs.lowerSp.sp = false) :
    push v s = raise (.illegalMemoryAccess s.regs.lowerSp.sp) { s with regs := s.regs.lowerSp } := by
  rw [push_eq, h, if_neg Bool.false_ne_true]

theorem pop_ok {s : State} (h : s.allows s.regs.sp = true) :
    pop s = .go (s.memRead s.regs.sp) { s with regs := s.regs.raiseSp } := by
  rw [pop_eq, if_pos h]

theorem pop_bad {s : State} (h : s.allows s.regs.sp = false) :
    pop s = raise (.illegalMemoryAccess s.regs.sp) s := by
  rw [pop_eq, h]; rfl

/-! ### The first match of a list -/

theorem updateFirst_map {α β : Type} (p : α → Bool) (f : α → α) (g : α → β) (hg : ∀ x, g (f x) = g x) :
    ∀ l : List α, (updateFirst p f l).map g = l.map g
  | [] => rfl
  | x :: xs => by
    simp only [updateFirst]
    split
    · simp [hg]
    · simp [updateFirst_map p f g hg xs]

/-- After an update an element is an old one, or the changed first match. -/
theorem mem_updateFirst {α : Type} {p : α → Bool} {f : α → α} : ∀ {l : List α} {y : α}, y ∈ updateFirst p f l →
    y ∈ l ∨ ∃ x, l.find? p = some x ∧ y = f x
  | x :: xs, y, h => by
    simp only [updateFirst] at h
    split at h
    · rename_i hp
      rcases List.mem_cons.1 h with h | h
      · exact .inr ⟨x, by simp [hp], h⟩
      · exact .inl (List.mem_cons_of_mem _ h)
    · rename_i hp
      rcases List.mem_cons.1 h with h | h
      · exact .inl (h ▸ List.mem_cons_self)
      · rcases mem_updateFirst h with h | ⟨z, hz, e⟩
        · exact .inl (List.mem_cons_of_mem _ h)
        · exact .inr ⟨z, by simp [hp, hz], e⟩

/-- Where the references are distinct, the table after an update holds the changed PCB and every other one. -/
theorem mem_updatePcb {s : State} {r : Nat} {f : PCB → PCB} (hn : (s.procs.map fun p => p.ref).Nodup) {y : PCB} :
    y ∈ (s.updatePcb r f).procs ↔ (y ∈ s.procs ∧ y.ref ≠ r) ∨ ∃ x ∈ s.procs, x.ref = r ∧ y = f x := by
  rw [updatePcb_procs]
  generalize s.procs = l at hn
  induction l with
  | nil => simp [updateFirst]
  | cons x xs ih =>
    simp only [List.map_cons, List.nodup_cons, List.mem_map, not_exists, not_and] at hn
    simp only [updateFirst, beq_iff_eq]
    split
    · rename_i hx
      constructor
      · intro h
        rcases List.mem_cons.1 h with h | h
        · exact .inr ⟨x, List.mem_cons_self, hx, h⟩
        · exact .inl ⟨List.mem_cons_of_mem _ h, fun e => hn.1 y h (e.trans hx.symm)⟩
      · rintro (⟨h, hr⟩ | ⟨z, hz, hr, e⟩)
        · rcases List.mem_cons.1 h with h | h
          · exact absurd (h ▸ hx) hr
          · exact List.mem_cons_of_mem _ h
        · rcases List.mem_cons.1 hz with h | h
          · subst h; exact e ▸ List.mem_cons_self
          · exact absurd (hr.trans hx.symm) (hn.1 z h)
    · rename_i hx
      rw [List.mem_cons, ih hn.2]
      constructor
      · rintro (h | ⟨h, hr⟩ | ⟨z, hz, hr, e⟩)
        · subst h; exact .inl ⟨List.mem_cons_self, hx⟩
        · exact .inl ⟨List.mem_cons_of_mem _ h, hr⟩
        · exact .inr ⟨z, List.mem_cons_of_mem _ hz, hr, e⟩
      · rintro (⟨h, hr⟩ | ⟨z, hz, hr, e⟩)
        · rcases List.mem_cons.1 h with h | h
          · exact .inl h
          · exact .inr (.inl ⟨h, hr⟩)
        · rcases List.mem_cons.1 hz with h | h
          · exact absurd (h ▸ hr) hx
          · exact .inr (.inr ⟨z, h, hr, e⟩)

theorem findPcb_some {s : State} {r : Nat} {p : PCB} (h : s.findPcb r = some p) : p ∈ s.procs ∧ p.ref = r := by
  refine ⟨List.mem_of_find?_eq_some h, ?_⟩
  have := List.find?_some h
  simpa using this

theorem findPcb_exists {s : State} {p : PCB} (h : p ∈ s.procs) : ∃ q, s.findPcb p.ref = some q := by
  unfold State.findPcb
  cases e : s.procs.find? fun q => q.ref == p.ref with
  | some q => exact ⟨q, rfl⟩
  | none => exact absurd (List.find?_eq_none.1 e p h) (by simp)

/-- Where the references are distinct, finding a PCB by its reference finds it. -/
theorem findPcb_of_mem {s : State} {p : PCB} (hn : (s.procs.map fun p => p.ref).Nodup) (h : p ∈ s.procs) :
    s.findPcb p.ref = some p := by
  obtain ⟨q, hq⟩ := findPcb_exists h
  obtain ⟨hm, hr⟩ := findPcb_some hq
  rw [hq, List.inj_on_of_nodup_map hn hm h hr]

theorem curPcb_some {s : State} {c : PCB} (h : s.curPcb = some c) : c ∈ s.procs ∧ s.cur = some c.ref := by
  unfold State.curPcb at h
  cases e : s.cur with
  | none => simp [e] at h
  | some r =>
    simp only [e, Option.bind_some] at h
    obtain ⟨hm, hr⟩ := findPcb_some h
    exact ⟨hm, by rw [hr]⟩

theorem curPcb_of_mem {s : State} {c : PCB} (hn : (s.procs.map fun p => p.ref).Nodup) (h : c ∈ s.procs)
    (hc : s.cur = some c.ref) : s.curPcb = some c := by
  simp [State.curPcb, hc, findPcb_of_mem hn h]

theorem idling_iff {s : State} : s.idling = true ↔ ∃ c, s.curPcb = some c ∧ c.pid = s.cfg.idlePid := by
  unfold State.idling
  split
  · rename_i c h; simp [h]
  · rename_i h; simp [h]

end Sys2Proof.Laws
end

