-- ==== Sys2Proof/Laws/Process.lean ====
section
/-! SUPPORT. What saving, restoring, creating and selecting a process do, and that each keeps the invariant. -/

namespace Sys2Proof.Laws

open Sys2Proof.Machine

/-! ### The invariant inside a kernel operation -/

/-- The part of the invariant that also holds in the middle of a kernel operation: every PCB but the one `o` refers to is
saved. -/
structure Base (o : Option Nat) (s : State) : Prop where
  canonical : s.mem.wf = true
  within : s.mem.within s.cfg.memSize = true
  refsDistinct : (s.procs.map fun p => p.ref).Nodup
  refsUsed : ∀ p ∈ s.procs, p.ref < s.nextRef
  idsDistinct : ((s.procs.map fun p => p.pid).filter fun i => decide (i ≠ s.cfg.idlePid)).Nodup
  idsAssigned : ∀ p ∈ s.procs, p.pid = s.cfg.idlePid ∨ (Config.firstPid ≤ p.pid ∧ p.pid < s.nextPid)
  idsStart : Config.firstPid ≤ s.nextPid
  openSets : ∀ d ∈ s.devs, d.openSet.Nodup
  saved : ∀ p ∈ s.procs, o ≠ some p.ref → p.Saved

/-- The fields the stack and memory operations leave alone. -/
structure Same (s t : State) : Prop where
  cfg : t.cfg = s.cfg
  procs : t.procs = s.procs
  cur : t.cur = s.cur
  nextPid : t.nextPid = s.nextPid
  nextRef : t.nextRef = s.nextRef
  devs : t.devs = s.devs
  halted : t.halted = s.halted
  started : t.started = s.started

theorem Same.rfl' (s : State) : Same s s := ⟨rfl, rfl, rfl, rfl, rfl, rfl, rfl, rfl⟩

theorem Same.trans {s t u : State} (h : Same s t) (k : Same t u) : Same s u :=
  ⟨k.cfg.trans h.cfg, k.procs.trans h.procs, k.cur.trans h.cur, k.nextPid.trans h.nextPid, k.nextRef.trans h.nextRef,
    k.devs.trans h.devs, k.halted.trans h.halted, k.started.trans h.started⟩

theorem Base.congr {o : Option Nat} {s t : State} (h : Base o s) (hs : Same s t) (hw : t.mem.wf = true)
    (hi : t.mem.within s.cfg.memSize = true) : Base o t := by
  obtain ⟨e1, e2, -, e4, e5, e6, -, -⟩ := hs
  exact
    { canonical := hw
      within := by rw [e1]; exact hi
      refsDistinct := by rw [e2]; exact h.refsDistinct
      refsUsed := by rw [e2, e5]; exact h.refsUsed
      idsDistinct := by rw [e1, e2]; exact h.idsDistinct
      idsAssigned := by rw [e1, e2, e4]; exact h.idsAssigned
      idsStart := by rw [e4]; exact h.idsStart
      openSets := by rw [e6]; exact h.openSets
      saved := by rw [e2]; exact h.saved }

theorem Base.same {o : Option Nat} {s t : State} (h : Base o s) (hs : Same s t) (hm : t.mem = s.mem) : Base o t :=
  h.congr hs (by rw [hm]; exact h.canonical) (by rw [hm]; exact h.within)

theorem Base.weaken {o : Option Nat} {s : State} (h : Base none s) : Base o s :=
  { h with saved := fun p hp _ => h.saved p hp (by simp) }

theorem Base.memWrite {o : Option Nat} {s : State} {a v : Word} (h : Base o s) (ha : a.toNat < s.cfg.memSize) :
    Base o (s.memWrite a v) :=
  h.congr ⟨rfl, rfl, rfl, rfl, rfl, rfl, rfl, rfl⟩ (wf_writeWord _ _ h.canonical) (within_writeWord _ h.within ha)

theorem Base.regs {o : Option Nat} {s : State} (x : Regs) (h : Base o s) : Base o { s with regs := x } :=
  h.same ⟨rfl, rfl, rfl, rfl, rfl, rfl, rfl, rfl⟩ rfl

theorem Base.addTicks {o : Option Nat} {s : State} (n : Nat) (h : Base o s) : Base o (s.addTicks n) :=
  h.same ⟨rfl, rfl, rfl, rfl, rfl, rfl, rfl, rfl⟩ rfl

theorem Base.emit {o : Option Nat} {s : State} (e : Event) (h : Base o s) : Base o (s.emit e) :=
  h.same ⟨rfl, rfl, rfl, rfl, rfl, rfl, rfl, rfl⟩ rfl

theorem Base.setCur {o : Option Nat} {s : State} (c : Option Nat) (h : Base o s) : Base o { s with cur := c } :=
  ⟨h.canonical, h.within, h.refsDistinct, h.refsUsed, h.idsDistinct, h.idsAssigned, h.idsStart, h.openSets, h.saved⟩

/-- A halted state meets the whole invariant as soon as it meets the part that needs no running process. -/
theorem Base.halt {s : State} (h : Base s.cur s) (r : HaltReason) : (s.halt r).Inv :=
  { canonical := h.canonical
    within := h.within
    refsDistinct := h.refsDistinct
    refsUsed := h.refsUsed
    idsDistinct := h.idsDistinct
    idsAssigned := h.idsAssigned
    idsStart := h.idsStart
    openSets := h.openSets
    othersSaved := h.saved
    currentExists := fun e => absurd e (by simp)
    noneMeansEmpty := fun e => absurd e (by simp)
    currentListed := fun e => absurd e (by simp)
    currentUnblocked := fun e => absurd e (by simp) }

theorem base_of_inv {s : State} (h : s.Inv) : Base s.cur s :=
  { canonical := h.canonical
    within := h.within
    refsDistinct := h.refsDistinct
    refsUsed := h.refsUsed
    idsDistinct := h.idsDistinct
    idsAssigned := h.idsAssigned
    idsStart := h.idsStart
    openSets := h.openSets
    saved := h.othersSaved }

/-- A running state meets the invariant when it has a listed current process that is not blocked unless it is idle. -/
theorem inv_of_base {s : State} (h : Base s.cur s) {c : PCB} (hc : c ∈ s.procs) (hr : s.cur = some c.ref)
    (hu : c.pid ≠ s.cfg.idlePid → c.block = none) : s.Inv :=
  { canonical := h.canonical
    within := h.within
    refsDistinct := h.refsDistinct
    refsUsed := h.refsUsed
    idsDistinct := h.idsDistinct
    idsAssigned := h.idsAssigned
    idsStart := h.idsStart
    openSets := h.openSets
    othersSaved := h.saved
    currentExists := fun _ _ => by simp [hr]
    noneMeansEmpty := fun _ e => by simp [hr] at e
    currentListed := fun _ r e => ⟨c, hc, by rw [hr] at e; exact Option.some.inj e⟩
    currentUnblocked := fun _ p hp hp' hi => by
      have hpc : p = c := List.inj_on_of_nodup_map h.refsDistinct hp hc (by
        rw [hr] at hp'; exact (Option.some.inj hp').symm)
      subst hpc
      exact hu hi }

/-- A running, started state of the invariant has a current process, which is not blocked unless it is idle. -/
theorem Inv_current {s : State} (h : s.Inv) (hh : s.halted = none) (hs : s.started = true) :
    ∃ c ∈ s.procs, s.cur = some c.ref ∧ s.curPcb = some c ∧ (c.pid ≠ s.cfg.idlePid → c.block = none) := by
  cases e : s.cur with
  | none => exact absurd e (h.currentExists hh hs)
  | some r =>
    obtain ⟨p, hp, hr⟩ := h.currentListed hh r e
    refine ⟨p, hp, by rw [hr], curPcb_of_mem h.refsDistinct hp (by rw [e, hr]), fun hi => ?_⟩
    exact h.currentUnblocked hh p hp (by rw [e, hr]) hi

theorem inv_same {s t : State} (h : s.Inv) (hh : s.halted = none) (hs : s.started = true) (hst : Same s t)
    (hb : Base s.cur t) : t.Inv := by
  obtain ⟨c, hc, hr, -, hu⟩ := Inv_current h hh hs
  refine inv_of_base (c := c) (by rw [hst.cur]; exact hb) (by rw [hst.procs]; exact hc) (by rw [hst.cur]; exact hr) ?_
  rw [hst.cfg]; exact hu

/-! ### The stack operations keep it -/

theorem Base.cur_of {o : Option Nat} {s : State} (h : Base o s) (ho : o = none ∨ o = s.cur) : Base s.cur s := by
  rcases ho with e | e
  · subst e; exact h.weaken
  · exact e ▸ h

theorem check_sat {o : Option Nat} {s : State} {R : Prop} (a : Word) (h : Base o s) (ho : o = none ∨ o = s.cur) :
    Sat (fun _ t => t = s ∧ s.allows a = true) State.Inv R (check a s) := by
  cases e : s.allows a with
  | true => rw [check_ok e]; exact ⟨rfl, rfl⟩
  | false => rw [check_bad e]; exact (h.cur_of ho).halt _

theorem push_sat {o : Option Nat} {s : State} {R : Prop} (v : Word) (h : Base o s) (ho : o = none ∨ o = s.cur) :
    Sat (fun _ t => Base o t ∧ Same s t) State.Inv R (push v s) := by
  rw [push_eq]
  split
  · rename_i ha
    exact ⟨(h.regs _).memWrite (allows_lt (s := s) ha), ⟨rfl, rfl, rfl, rfl, rfl, rfl, rfl, rfl⟩⟩
  · exact ((h.regs _).cur_of (s := { s with regs := s.regs.lowerSp }) ho).halt _

theorem pop_sat {o : Option Nat} {s : State} {R : Prop} (h : Base o s) (ho : o = none ∨ o = s.cur) :
    Sat (fun _ t => Base o t ∧ Same s t) State.Inv R (pop s) := by
  rw [pop_eq]
  split
  · exact ⟨h.regs _, ⟨rfl, rfl, rfl, rfl, rfl, rfl, rfl, rfl⟩⟩
  · exact (h.cur_of ho).halt _

theorem pushAll_sat {o : Option Nat} {R : Prop} (vs : List Word) : ∀ {s : State}, Base o s → o = none ∨ o = s.cur →
    Sat (fun _ t => Base o t ∧ Same s t) State.Inv R (pushAll vs s) := by
  induction vs with
  | nil => intro s h _; exact ⟨h, Same.rfl' s⟩
  | cons v vs ih =>
    intro s h ho
    simp only [pushAll]
    refine (push_sat v h ho).andThen fun _ t ht => ?_
    refine (ih ht.1 (by rw [ht.2.cur]; exact ho)).mono (fun _ u hu => ⟨hu.1, ht.2.trans hu.2⟩) (fun _ h => h) id

/-! ### Changes of one PCB -/

/-- A change of one PCB that keeps its reference and its id, and its being saved. -/
theorem Base.updatePcb {o : Option Nat} {s : State} {f : PCB → PCB} (r : Nat) (h : Base o s)
    (hr : ∀ p, (f p).ref = p.ref) (hp : ∀ p, (f p).pid = p.pid) (hs : ∀ p, p.Saved → (f p).Saved) :
    Base o (s.updatePcb r f) :=
  { canonical := h.canonical
    within := h.within
    refsDistinct := by rw [updatePcb_procs, updateFirst_map _ _ _ hr]; exact h.refsDistinct
    refsUsed := by
      intro p hp'
      rcases mem_updateFirst hp' with h' | ⟨x, hx', e⟩
      · exact h.refsUsed p h'
      · rw [e, hr]; exact h.refsUsed x (List.mem_of_find?_eq_some hx')
    idsDistinct := by rw [updatePcb_procs, updateFirst_map _ _ _ hp]; exact h.idsDistinct
    idsAssigned := by
      intro p hp'
      rcases mem_updateFirst hp' with h' | ⟨x, hx', e⟩
      · exact h.idsAssigned p h'
      · rw [e, hp]; exact h.idsAssigned x (List.mem_of_find?_eq_some hx')
    idsStart := h.idsStart
    openSets := h.openSets
    saved := by
      intro p hp' ho
      rcases mem_updateFirst hp' with h' | ⟨x, hx', e⟩
      · exact h.saved p h' ho
      · rw [e]; rw [e, hr] at ho; exact hs x (h.saved x (List.mem_of_find?_eq_some hx') ho) }

theorem Base.setBlock {o : Option Nat} {s : State} (r : Nat) (k : Option BlockKey) (h : Base o s) :
    Base o (s.setBlock r k) :=
  h.updatePcb r (fun _ => rfl) (fun _ => rfl) (fun _ h => h)

/-- Every PCB is saved once the one that was not has been (R256). -/
theorem base_saveContext {s : State} {r : Nat} (h : Base (some r) s) : Base none (saveContext r s) := by
  have hb : Base (some r) (s.addTicks s.cfg.saveLoadTime) := h.addTicks _
  have hu := hb.updatePcb (f := fun p => p.makeReady s.regs (s.ticks + s.cfg.saveLoadTime)) r (fun _ => rfl)
    (fun _ => rfl) (fun _ _ => ⟨rfl, Nat.succ_ne_zero _⟩)
  refine { hu with saved := fun p hp _ => ?_ }
  rcases (mem_updatePcb hb.refsDistinct).1 hp with ⟨h', hr⟩ | ⟨x, -, -, e⟩
  · exact h.saved p h' (fun e => hr (Option.some.inj e).symm)
  · rw [e]; exact ⟨rfl, Nat.succ_ne_zero _⟩

theorem saveContext_procs_ne_nil {s : State} {r : Nat} (h : s.procs ≠ []) : (saveContext r s).procs ≠ [] := by
  intro e
  have : (saveContext r s).procs.map (fun p => p.ref) = s.procs.map fun p => p.ref :=
    updateFirst_map _ (fun p : PCB => p.makeReady s.regs (s.ticks + s.cfg.saveLoadTime)) _ (fun _ => rfl) _
  rw [e] at this
  simp at this
  exact h this

/-- A PCB of the table is still there after a save of `r`, itself or, if it is the saved one, with the copy. -/
theorem mem_saveContext {s : State} {r : Nat} {y : PCB} (hn : (s.procs.map fun p => p.ref).Nodup) :
    y ∈ (saveContext r s).procs ↔ (y ∈ s.procs ∧ y.ref ≠ r) ∨
      ∃ x ∈ s.procs, x.ref = r ∧ y = x.makeReady s.regs (s.ticks + s.cfg.saveLoadTime) :=
  mem_updatePcb (s := s.addTicks s.cfg.saveLoadTime) hn

/-- `restore` of a PCB that is in the table and saved finishes with its registers live and its statistics updated (R257). -/
theorem restoreContext_eq {s : State} {p : PCB} {x : Regs} (hn : (s.procs.map fun p => p.ref).Nodup) (hp : p ∈ s.procs)
    (hx : p.regs = some x) (h0 : p.numReady ≠ 0) :
    restoreContext p.ref s = .go () ({ s.addTicks s.cfg.saveLoadTime with regs := x }.updatePcb p.ref fun q =>
      q.addStarve (s.ticks + s.cfg.saveLoadTime - q.lastReady)) := by
  have hf : (s.addTicks s.cfg.saveLoadTime).findPcb p.ref = some p := findPcb_of_mem (s := s.addTicks _) hn hp
  simp only [restoreContext, hf, hx, h0, if_false]
  rfl

theorem Saved_addStarve {p : PCB} (n : Nat) (h : p.Saved) : (p.addStarve n).Saved := h

/-- `restore` of a listed PCB when all are saved: it keeps the table, and the restored PCB stays as it was but for its
statistics. -/
theorem restoreContext_sat {s : State} {r : Nat} {R : Prop} {Q : State → Prop} (h : Base none s)
    (hr : ∃ p ∈ s.procs, p.ref = r) :
    Sat (fun _ t => Base none t ∧ t.cfg = s.cfg ∧ t.cur = s.cur ∧ t.halted = s.halted ∧ t.started = s.started ∧
      t.nextPid = s.nextPid ∧ t.devs = s.devs ∧ (∀ p ∈ s.procs, ∃ q ∈ t.procs, q.ref = p.ref ∧ q.pid = p.pid ∧
        q.block = p.block)) Q R (restoreContext r s) := by
  obtain ⟨p, hp, e⟩ := hr
  subst e
  obtain ⟨hs, h0⟩ := h.saved p hp (by simp)
  obtain ⟨x, hx⟩ := Option.isSome_iff_exists.1 hs
  rw [restoreContext_eq h.refsDistinct hp hx h0]
  have hb : Base none ({ s.addTicks s.cfg.saveLoadTime with regs := x }) := (h.addTicks _).regs x
  refine ⟨hb.updatePcb _ (fun _ => rfl) (fun _ => rfl) (fun _ h => h), rfl, rfl, rfl, rfl, rfl, rfl, fun q hq => ?_⟩
  by_cases hqr : q.ref = p.ref
  · exact ⟨_, (mem_updatePcb hb.refsDistinct).2 (.inr ⟨q, hq, hqr, rfl⟩), rfl, rfl, rfl⟩
  · exact ⟨q, (mem_updatePcb hb.refsDistinct).2 (.inl ⟨hq, hqr⟩), rfl, rfl, rfl⟩

/-! ### Creation -/

theorem base_appendPcb {s : State} {id : Nat} (h : Base none s)
    (hid : id = s.cfg.idlePid ∨ id = s.nextPid ∧ id ≠ s.cfg.idlePid) : Base (some s.nextRef) (s.appendPcb id) := by
  refine
    { canonical := h.canonical, within := h.within, refsDistinct := ?_, refsUsed := ?_, idsDistinct := ?_,
      idsAssigned := ?_, idsStart := ?_, openSets := h.openSets, saved := ?_ }
  · simp only [appendPcb_procs, List.map_append, List.map_cons, List.map_nil, PCB.new]
    rw [List.nodup_append]
    refine ⟨h.refsDistinct, by simp, fun a ha b hb => ?_⟩
    obtain ⟨p, hp, e⟩ := List.mem_map.1 ha
    have := h.refsUsed p hp
    simp at hb
    omega
  · intro p hp
    simp only [appendPcb_procs, List.mem_append, List.mem_singleton] at hp
    simp only [appendPcb_nextRef]
    rcases hp with hp | hp
    · have := h.refsUsed p hp; omega
    · subst hp; simp [PCB.new]
  · simp only [appendPcb_procs, appendPcb_cfg, List.map_append, List.map_cons, List.map_nil, PCB.new, List.filter_append]
    rw [List.nodup_append]
    refine ⟨h.idsDistinct, ?_, fun a ha b hb => ?_⟩
    · rcases hid with e | ⟨-, e⟩ <;> simp [e]
    · simp only [List.mem_filter, List.mem_map] at ha hb
      obtain ⟨⟨p, hp, e⟩, hai⟩ := ha
      have hai := of_decide_eq_true hai
      have hbi := of_decide_eq_true hb.2
      have hb1 := List.mem_singleton.1 hb.1
      rcases h.idsAssigned p hp with h1 | h1
      · exact absurd (e ▸ h1) hai
      · rcases hid with h2 | ⟨h2, -⟩
        · exact absurd (hb1.trans h2) hbi
        · omega
  · intro p hp
    simp only [appendPcb_procs, List.mem_append, List.mem_singleton] at hp
    simp only [State.appendPcb]
    rcases hp with hp | hp
    · rcases h.idsAssigned p hp with h1 | h1
      · exact .inl h1
      · right; split <;> omega
    · subst hp
      rcases hid with e | ⟨e, hne⟩
      · exact .inl e
      · right; have := h.idsStart; rw [← e, if_neg hne]; exact ⟨by simpa [PCB.new, e] using this, by simp [PCB.new]⟩
  · have := h.idsStart
    simp only [State.appendPcb]; split <;> omega
  · intro p hp ho
    simp only [appendPcb_procs, List.mem_append, List.mem_singleton] at hp
    rcases hp with hp | hp
    · exact h.saved p hp (by simp)
    · subst hp; simp [PCB.new] at ho

theorem fits_iff {s : State} {P : Program} {alloc : Nat} :
    s.fits P alloc = true ↔ 1 ≤ alloc ∧ P.words.length ≤ alloc ∧ s.loadCursor + alloc ≤ s.cfg.memSize := by
  simp only [State.fits, Bool.and_eq_true, decide_eq_true_eq]
  exact and_assoc

theorem base_install {s : State} {P : Program} {alloc id : Nat} (h : Base none s) (hf : s.fits P alloc = true)
    (hid : id = s.cfg.idlePid ∨ id = s.nextPid ∧ id ≠ s.cfg.idlePid) :
    Base (some s.nextRef) (s.install P alloc id) := by
  obtain ⟨-, hf1, hf2⟩ := fits_iff.1 hf
  have hf3 : s.loadCursor + P.words.length ≤ s.cfg.memSize := by omega
  have h1 : Base none { s with mem := s.mem.writeWords s.loadCursor P.words } :=
    h.congr ⟨rfl, rfl, rfl, rfl, rfl, rfl, rfl, rfl⟩ (wf_writeWords _ _ h.canonical)
      (within_writeWords _ h.within hf3)
  have h2 : Base none (State.loadRegs { s with mem := s.mem.writeWords s.loadCursor P.words } alloc) := by
    refine h1.congr ?_ ?_ ?_
    · constructor <;> simp [State.loadRegs]
    · simpa [State.loadRegs] using h1.canonical
    · simpa [State.loadRegs] using h1.within
  have h3 := base_appendPcb (id := id) (s := { State.loadRegs { s with mem := s.mem.writeWords s.loadCursor P.words } alloc
    with loadCursor := s.loadCursor + alloc - 1 + Config.instrSize })
    (h2.same ⟨rfl, rfl, rfl, rfl, rfl, rfl, rfl, rfl⟩ rfl) (by simpa [State.loadRegs] using hid)
  simpa [State.install, State.loadRegs] using h3

@[simp] theorem loadRegs_procs (s : State) (n : Nat) : (s.loadRegs n).procs = s.procs := by simp [State.loadRegs]
@[simp] theorem loadRegs_cfg (s : State) (n : Nat) : (s.loadRegs n).cfg = s.cfg := by simp [State.loadRegs]
@[simp] theorem loadRegs_nextRef (s : State) (n : Nat) : (s.loadRegs n).nextRef = s.nextRef := by simp [State.loadRegs]
@[simp] theorem loadRegs_mem (s : State) (n : Nat) : (s.loadRegs n).mem = s.mem := by simp [State.loadRegs]
@[simp] theorem loadRegs_ticks (s : State) (n : Nat) : (s.loadRegs n).ticks = s.ticks := by simp [State.loadRegs]
@[simp] theorem loadRegs_nextPid (s : State) (n : Nat) : (s.loadRegs n).nextPid = s.nextPid := by simp [State.loadRegs]
@[simp] theorem loadRegs_out (s : State) (n : Nat) : (s.loadRegs n).out = s.out := by simp [State.loadRegs]
@[simp] theorem loadRegs_devs (s : State) (n : Nat) : (s.loadRegs n).devs = s.devs := by simp [State.loadRegs]
@[simp] theorem loadRegs_progs (s : State) (n : Nat) : (s.loadRegs n).progs = s.progs := by simp [State.loadRegs]
@[simp] theorem loadRegs_halted (s : State) (n : Nat) : (s.loadRegs n).halted = s.halted := by simp [State.loadRegs]
@[simp] theorem loadRegs_started (s : State) (n : Nat) : (s.loadRegs n).started = s.started := by simp [State.loadRegs]
@[simp] theorem loadRegs_boot (s : State) (n : Nat) : (s.loadRegs n).boot = s.boot := by simp [State.loadRegs]
@[simp] theorem loadRegs_schedule (s : State) (n : Nat) : (s.loadRegs n).schedule = s.schedule := by simp [State.loadRegs]
@[simp] theorem loadRegs_answers (s : State) (n : Nat) : (s.loadRegs n).answers = s.answers := by simp [State.loadRegs]

theorem base_saveCurrent {s : State} (h : Base s.cur s) : Base none s.saveCurrent := by
  unfold State.saveCurrent
  split
  · rename_i r e; exact base_saveContext (e ▸ h)
  · rename_i e; rw [e] at h; exact h

@[simp] theorem saveCurrent_cfg (s : State) : s.saveCurrent.cfg = s.cfg := by unfold State.saveCurrent; split <;> rfl
@[simp] theorem saveCurrent_nextPid (s : State) : s.saveCurrent.nextPid = s.nextPid := by
  unfold State.saveCurrent; split <;> rfl
@[simp] theorem saveCurrent_nextRef (s : State) : s.saveCurrent.nextRef = s.nextRef := by
  unfold State.saveCurrent; split <;> rfl
@[simp] theorem saveCurrent_loadCursor (s : State) : s.saveCurrent.loadCursor = s.loadCursor := by
  unfold State.saveCurrent; split <;> rfl
@[simp] theorem saveCurrent_mem (s : State) : s.saveCurrent.mem = s.mem := by unfold State.saveCurrent; split <;> rfl

theorem createProcess_sat {s : State} {P : Program} {alloc id : Nat} {R : Prop} (h : Base s.cur s)
    (hid : id = s.cfg.idlePid ∨ id = s.nextPid ∧ id ≠ s.cfg.idlePid) :
    Sat (fun _ t => t.Inv) State.Inv R (createProcess P alloc id s) := by
  unfold createProcess
  split
  · rename_i hf
    have hb := base_install (P := P) (alloc := alloc) (id := id) (base_saveCurrent h)
      (by simpa [State.fits] using hf) (by simpa using hid)
    refine inv_of_base (c := PCB.new s.nextRef id) ?_ ?_ ?_ (fun _ => rfl)
    · simpa [State.install] using hb
    · simp [State.install]
    · simp [State.install, PCB.new]
  · exact h.halt _

theorem createUserProcess_sat {s : State} {P : Program} (h : Base s.cur s) :
    Sat (fun _ t => t.Inv) State.Inv (s.nextPid = s.cfg.idlePid) (createUserProcess P s) := by
  unfold createUserProcess
  split
  · rename_i hc
    simp only [Bool.and_eq_true, decide_eq_true_eq] at hc
    exact hc.2
  · rename_i hc
    by_cases he : s.nextPid = s.cfg.idlePid
    · exact createProcess_sat h (.inl he)
    · exact createProcess_sat h (.inr ⟨rfl, he⟩)

/-! ### Selection -/

theorem firstBest_mem (s : State) : ∀ {C : List PCB} {b : PCB}, s.firstBest C = some b → b ∈ C
  | p :: ps, b, h => by
    simp only [State.firstBest] at h
    split at h
    · simp at h; subst h; exact List.mem_cons_self
    · rename_i q hq
      split at h
      · simp at h; subst h; exact List.mem_cons_self
      · simp at h; subst h; exact List.mem_cons_of_mem _ (firstBest_mem s hq)

theorem firstBest_none (s : State) : ∀ {C : List PCB}, s.firstBest C = none → C = []
  | [], _ => rfl
  | p :: ps, h => by
    simp only [State.firstBest] at h
    split at h
    · simp at h
    · split at h <;> simp at h

theorem firstBest_max (s : State) : ∀ {C : List PCB} {b : PCB}, s.firstBest C = some b →
    ∀ q ∈ C, s.score q ≤ s.score b
  | p :: ps, b, h, q, hq => by
    simp only [State.firstBest] at h
    split at h
    · rename_i hn
      have := firstBest_none s hn
      subst this
      simp at h hq
      subst h; subst hq; exact le_refl _
    · rename_i r hr
      have ih := firstBest_max s hr
      split at h
      · rename_i hle
        simp at h; subst h
        rcases List.mem_cons.1 hq with e | e
        · subst e; exact le_refl _
        · exact le_trans (ih q e) hle
      · rename_i hle
        simp at h; subst h
        rcases List.mem_cons.1 hq with e | e
        · subst e; exact le_of_lt (not_le.1 hle)
        · exact ih q e

/-- Everything before the first best scores strictly less. -/
theorem firstBest_first (s : State) : ∀ {C : List PCB} {b : PCB}, s.firstBest C = some b →
    ∃ l r, C = l ++ b :: r ∧ ∀ q ∈ l, s.score q < s.score b
  | p :: ps, b, h => by
    simp only [State.firstBest] at h
    split at h
    · rename_i hn
      simp at h; subst h
      exact ⟨[], ps, rfl, by simp⟩
    · rename_i r hr
      split at h
      · simp at h; subst h; exact ⟨[], ps, rfl, by simp⟩
      · rename_i hle
        simp at h; subst h
        obtain ⟨l, r', e, hl⟩ := firstBest_first s hr
        refine ⟨p :: l, r', by rw [e]; rfl, fun q hq => ?_⟩
        rcases List.mem_cons.1 hq with e' | e'
        · subst e'; exact not_le.1 hle
        · exact hl q e'

/-- What `select` answers (R261): a candidate with the greatest score; the current process when it is among the tied. -/
theorem select_some {s : State} {C : List PCB} {b : PCB} (h : s.select C = some b) :
    b ∈ C ∧ (∀ q ∈ C, s.score q ≤ s.score b) ∧
      (s.cur = some b.ref ∨ ((∀ q ∈ C, s.cur = some q.ref → s.score q < s.score b) ∧ s.firstBest C = some b)) := by
  unfold State.select at h
  split at h
  · simp at h
  · rename_i f hf
    split at h
    · rename_i c hc
      simp at h; subst h
      have hm := List.mem_of_find?_eq_some hc
      have hp := List.find?_some hc
      simp only [Bool.and_eq_true, decide_eq_true_eq] at hp
      exact ⟨hm, fun q hq => hp.2 ▸ firstBest_max s hf q hq, .inl hp.1⟩
    · rename_i hc
      simp at h; subst h
      refine ⟨firstBest_mem s hf, firstBest_max s hf, .inr ⟨fun q hq e => ?_, hf⟩⟩
      have := List.find?_eq_none.1 hc q hq
      simp only [Bool.and_eq_true, decide_eq_true_eq, not_and] at this
      exact lt_of_le_of_ne (firstBest_max s hf q hq) (this e)

theorem select_none {s : State} {C : List PCB} (h : s.select C = none) : C = [] := by
  unfold State.select at h
  split at h
  · rename_i hf; exact firstBest_none s hf
  · split at h <;> simp at h

theorem mem_candidates {s : State} {p : PCB} :
    p ∈ s.candidates ↔ p ∈ s.procs ∧ p.block = none ∧ p.pid ≠ s.cfg.idlePid := by
  simp [State.candidates, List.mem_filter, Option.isNone_iff_eq_none]

/-! ### The scheduler -/

@[simp] theorem leaveCurrent_cfg (s : State) : s.leaveCurrent.cfg = s.cfg := by
  unfold State.leaveCurrent; split
  · rfl
  · split <;> rfl
@[simp] theorem leaveCurrent_halted (s : State) : s.leaveCurrent.halted = s.halted := by
  unfold State.leaveCurrent; split
  · rfl
  · split <;> rfl
@[simp] theorem leaveCurrent_started (s : State) : s.leaveCurrent.started = s.started := by
  unfold State.leaveCurrent; split
  · rfl
  · split <;> rfl
@[simp] theorem leaveCurrent_cur (s : State) : s.leaveCurrent.cur = s.cur := by
  unfold State.leaveCurrent; split
  · rfl
  · split <;> rfl

/-- Removing PCBs keeps the base. -/
theorem Base.removePcbs {o : Option Nat} {s : State} (keep : PCB → Bool) (h : Base o s) :
    Base o { s with procs := s.procs.filter keep } := by
  have hsub : (s.procs.filter keep).Sublist s.procs := List.filter_sublist
  exact
    { canonical := h.canonical
      within := h.within
      refsDistinct := h.refsDistinct.sublist (hsub.map _)
      refsUsed := fun p hp => h.refsUsed p (List.mem_filter.1 hp).1
      idsDistinct := h.idsDistinct.sublist ((hsub.map _).filter _)
      idsAssigned := fun p hp => h.idsAssigned p (List.mem_filter.1 hp).1
      idsStart := h.idsStart
      openSets := h.openSets
      saved := fun p hp => h.saved p (List.mem_filter.1 hp).1 }

theorem leaveCurrent_sat {s : State} (h : Base s.cur s) :
    Base none s.leaveCurrent ∧ ∀ p ∈ s.procs, s.cur ≠ some p.ref → p ∈ s.leaveCurrent.procs := by
  unfold State.leaveCurrent
  split
  · rename_i e; rw [e] at h; exact ⟨h, fun p hp _ => hp⟩
  · rename_i r e
    rw [e] at h
    split
    · have h' := h.removePcbs fun p => p.ref != r
      refine ⟨{ h' with saved := fun p hp _ => ?_ }, fun p hp hne => ?_⟩
      · have hm := List.mem_filter.1 hp
        simp only [bne_iff_ne, ne_eq] at hm
        exact h.saved p hm.1 fun e' => hm.2 (Option.some.inj e').symm
      · refine List.mem_filter.2 ⟨hp, ?_⟩
        simp only [bne_iff_ne, ne_eq]
        intro e'
        exact hne (by rw [e, e'])
    · exact ⟨base_saveContext h, fun p hp hne => (mem_saveContext h.refsDistinct).2 (.inl ⟨hp, fun e' => hne (by rw [e, e'])⟩)⟩

theorem schedule_sat {s : State} {R : Prop} (h : Base s.cur s) :
    Sat (fun _ t => t.Inv) State.Inv R (schedule s) := by
  unfold schedule
  split
  · exact h.halt _
  · split
    · rename_i hs
      split
      · rename_i hi
        obtain ⟨c, hc, he⟩ := idling_iff.1 hi
        obtain ⟨hm, hr⟩ := curPcb_some hc
        exact inv_of_base h hm hr fun hne => absurd he hne
      · exact createProcess_sat h (.inl rfl)
    · rename_i b hb
      obtain ⟨hbC, -, -⟩ := select_some hb
      obtain ⟨hbm, hbb, hbi⟩ := mem_candidates.1 hbC
      split
      · rename_i hc
        exact inv_of_base h hbm hc fun _ => hbb
      · rename_i hc
        obtain ⟨hlb, hlm⟩ := leaveCurrent_sat h
        refine (restoreContext_sat hlb ⟨b, hlm b hbm hc, rfl⟩).andThen fun _ t ht => ?_
        obtain ⟨htb, hcfg, -, -, -, -, -, hk⟩ := ht
        obtain ⟨q, hq, e1, e2, e3⟩ := hk b (hlm b hbm hc)
        refine inv_of_base (s := { t with cur := some b.ref }) (c := q)
          (htb.weaken.setCur _) hq (by simp [e1])
          fun _ => by rw [e3]; exact hbb

end Sys2Proof.Laws
end

