-- ==== Sys2Proof/Laws/Kernel.lean ====
section
/-! SUPPORT. Every system call, interrupt, boot duty and instruction keeps the invariant, and none of them gets stuck in a
running state that meets it. -/

namespace Sys2Proof.Laws

open Sys2Proof.Machine

/-- A started, running machine that meets the invariant. -/
structure Run (s : State) : Prop where
  inv : s.Inv
  running : s.halted = none
  started : s.started = true

theorem Run.same {s t : State} (h : Run s) (hs : Same s t) (hb : Base s.cur t) : Run t :=
  ⟨inv_same h.inv h.running h.started hs hb, hs.halted.trans h.running, hs.started.trans h.started⟩

theorem Run.base {s : State} (h : Run s) : Base s.cur s := base_of_inv h.inv

theorem Run.regs {s : State} (x : Regs) (h : Run s) : Run { s with regs := x } :=
  h.same ⟨rfl, rfl, rfl, rfl, rfl, rfl, rfl, rfl⟩ (h.base.regs x)

theorem Run.setReg {s : State} (i : Reg) (v : Word) (h : Run s) : Run (s.setReg i v) := h.regs _

theorem Run.addTicks {s : State} (n : Nat) (h : Run s) : Run (s.addTicks n) :=
  h.same ⟨rfl, rfl, rfl, rfl, rfl, rfl, rfl, rfl⟩ (h.base.addTicks n)

theorem Run.emit {s : State} (e : Event) (h : Run s) : Run (s.emit e) :=
  h.same ⟨rfl, rfl, rfl, rfl, rfl, rfl, rfl, rfl⟩ (h.base.emit e)

theorem Run.halt {s : State} (r : HaltReason) (h : Run s) : (s.halt r).Inv := h.base.halt r

theorem Run.askAvailable {s : State} (h : Run s) : Run s.askAvailable.2 := by
  refine h.same ?_ (h.base.same ?_ (by simp)) <;> constructor <;> simp

theorem check_run {s : State} {R : Prop} (a : Word) (h : Run s) :
    Sat (fun _ t => t = s ∧ s.allows a = true) State.Inv R (check a s) := check_sat a h.base (.inr rfl)

theorem push_run {s : State} {R : Prop} (v : Word) (h : Run s) :
    Sat (fun _ t => Run t ∧ Same s t) State.Inv R (push v s) :=
  (push_sat v h.base (.inr rfl)).mono (fun _ _ k => ⟨h.same k.2 k.1, k.2⟩) (fun _ k => k) id

theorem pop_run {s : State} {R : Prop} (h : Run s) :
    Sat (fun _ t => Run t ∧ Same s t) State.Inv R (pop s) :=
  (pop_sat h.base (.inr rfl)).mono (fun _ _ k => ⟨h.same k.2 k.1, k.2⟩) (fun _ k => k) id

theorem push_inv {s : State} {R : Prop} (v : Word) (h : Run s) :
    Sat (fun _ t => t.Inv) State.Inv R (push v s) :=
  (push_run v h).mono (fun _ _ k => k.1.inv) (fun _ k => k) id

theorem schedule_run {s : State} {R : Prop} (h : Run s) : Sat (fun _ t => t.Inv) State.Inv R (schedule s) :=
  schedule_sat h.base

/-- A running state has a current PCB. -/
theorem withCurrent_run {α : Type} {s : State} {P : α → State → Prop} {Q : State → Prop} {R : Prop} {k : PCB → Flow α}
    (h : Run s) (hk : ∀ c ∈ s.procs, s.cur = some c.ref → Sat P Q R (k c)) : Sat P Q R (withCurrent s k) := by
  obtain ⟨c, hc, hr, he, -⟩ := Inv_current h.inv h.running h.started
  simp only [withCurrent, he]
  exact hk c hc hr

/-! ### The device registry -/

theorem Inv_setDevs {s : State} {ds : List DeviceInfo} (h : s.Inv) (hd : ∀ d ∈ ds, d.openSet.Nodup) :
    State.Inv { s with devs := ds } :=
  ⟨h.canonical, h.within, h.refsDistinct, h.refsUsed, h.idsDistinct, h.idsAssigned, h.idsStart, hd, h.othersSaved,
    h.currentExists, h.noneMeansEmpty, h.currentListed, h.currentUnblocked⟩

theorem Run.updateOpenSet {s : State} {id : Int} {f : List Nat → List Nat} (h : Run s)
    (hf : ∀ d, s.findDev id = some d → (f d.openSet).Nodup) : Run (s.updateOpenSet id f) := by
  refine ⟨Inv_setDevs h.inv fun d hd => ?_, h.running, h.started⟩
  rcases mem_updateFirst hd with hd | ⟨x, hx, e⟩
  · exact h.inv.openSets d hd
  · subst e; exact hf x hx

theorem findDev_mem {s : State} {id : Int} {d : DeviceInfo} (h : s.findDev id = some d) : d ∈ s.devs :=
  List.mem_of_find?_eq_some h

/-- Unblocking a process keeps the invariant. -/
theorem Run.updatePcb {s : State} {f : PCB → PCB} (r : Nat) (h : Run s) (hr : ∀ p, (f p).ref = p.ref)
    (hp : ∀ p, (f p).pid = p.pid) (hs : ∀ p, p.Saved → (f p).Saved) (hb : ∀ p, p.block = none → (f p).block = none) :
    Run (s.updatePcb r f) := by
  obtain ⟨c, hc, hcr, -, hu⟩ := Inv_current h.inv h.running h.started
  refine ⟨?_, h.running, h.started⟩
  have hB := h.base.updatePcb r hr hp hs
  by_cases hcr' : c.ref = r
  · exact inv_of_base hB (c := f c) ((mem_updatePcb h.inv.refsDistinct).2 (.inr ⟨c, hc, hcr', rfl⟩))
      (by simp [hcr, hr]) fun hi => hb _ (hu (by simpa [hp] using hi))
  · exact inv_of_base hB (c := c) ((mem_updatePcb h.inv.refsDistinct).2 (.inl ⟨hc, hcr'⟩)) (by simp [hcr])
      fun hi => hu (by simpa using hi)

theorem Run.unblock {s : State} (r : Nat) (h : Run s) : Run (s.setBlock r none) :=
  h.updatePcb r (fun _ => rfl) (fun _ => rfl) (fun _ h => h) (fun _ _ => rfl)

theorem blockOn_run {s : State} {R : Prop} (r : Nat) (k : BlockKey) (h : Run s) :
    Sat (fun _ t => t.Inv) State.Inv R (blockOn r k s) :=
  schedule_sat (h.base.setBlock r (some k))

theorem retry_run {s : State} {R : Prop} (n : Word) (vs : List Word) (h : Run s) :
    Sat (fun _ t => t.Inv) State.Inv R (retry n vs s) := by
  unfold retry
  have hr : Run s.rewindPc := h.setReg _ _
  refine (pushAll_sat (vs ++ [n]) hr.base (.inr rfl)).andThen fun _ t ht => ?_
  exact schedule_run (hr.same ht.2 ht.1)

theorem waiter_some {s : State} {m : BlockKey → Bool} {w : PCB} (h : s.waiter m = some w) :
    w ∈ s.procs ∧ ∃ k, w.block = some k ∧ m k = true := by
  refine ⟨List.mem_of_find?_eq_some h, ?_⟩
  have := List.find?_some h
  split at this
  · rename_i k hk; exact ⟨k, hk, this⟩
  · simp at this

theorem openDevice_run {s : State} {R : Prop} {c : PCB} (id : Int) (h : Run s) :
    Sat (fun _ t => t.Inv) State.Inv R (openDevice c id s) := by
  unfold openDevice
  split
  · exact push_inv _ h
  · rename_i d hd
    split
    · exact push_inv _ h
    · rename_i hc
      have h1 : Run (s.updateOpenSet id fun o => o ++ [c.pid]) := h.updateOpenSet fun d' hd' => by
        rw [hd] at hd'
        have := Option.some.inj hd'
        subst this
        rw [List.nodup_append]
        exact ⟨h.inv.openSets d (findDev_mem hd), by simp, fun a ha b hb => by simp at hb; subst hb; exact fun e => hc (e ▸ ha)⟩
      dsimp only
      split
      · exact push_inv _ h1
      · have hb := h1.base.setBlock c.ref (some ⟨id, .opening, 0⟩)
        refine (push_sat Config.success hb (.inr rfl)).andThen fun _ t ht => schedule_sat ?_
        rw [ht.2.cur]; exact ht.1

theorem closeDevice_run {s : State} {R : Prop} {c : PCB} (id : Int) (h : Run s) :
    Sat (fun _ t => t.Inv) State.Inv R (closeDevice c id s) := by
  unfold closeDevice
  split
  · exact push_inv _ h
  · rename_i d hd
    split
    · have h1 : Run (s.updateOpenSet id fun o => o.filter fun q => q != c.pid) := h.updateOpenSet fun d' hd' =>
        (h.inv.openSets d' (findDev_mem hd')).filter _
      dsimp only
      split
      · exact push_inv _ h1
      · exact push_inv _ (h1.unblock _)
    · exact push_inv _ h

theorem readDevice_run {s : State} {R : Prop} {c : PCB} (id addr : Word) (h : Run s) :
    Sat (fun _ t => t.Inv) State.Inv R (readDevice c id addr s) := by
  unfold readDevice
  split
  · exact push_inv _ h
  · split
    · split
      · exact blockOn_run _ _ (h.askAvailable.emit _)
      · exact retry_run _ _ h.askAvailable
    · exact push_inv _ h

theorem writeDevice_run {s : State} {R : Prop} {c : PCB} (id addr data : Word) (h : Run s) :
    Sat (fun _ t => t.Inv) State.Inv R (writeDevice c id addr data s) := by
  unfold writeDevice
  split
  · exact push_inv _ h
  · split
    · split
      · exact blockOn_run _ _ (h.askAvailable.emit _)
      · exact retry_run _ _ h.askAvailable
    · exact push_inv _ h

/-! ### System calls -/

theorem sysExit_run {s : State} {R : Prop} (h : Run s) : Sat (fun _ t => t.Inv) State.Inv R (sysExit s) := by
  refine withCurrent_run h fun c _ hr => schedule_sat ?_
  have hb := (h.base.removePcbs fun p => p.ref != c.ref).setCur none
  refine { hb with saved := fun p hp _ => hb.saved p hp ?_ }
  have hm := List.mem_filter.1 hp
  simp only [bne_iff_ne, ne_eq] at hm
  rw [hr]
  exact fun e => hm.2 (Option.some.inj e).symm

theorem leastUsed_eq_nil {progs : List Program} (h : leastUsed progs = []) : progs = [] := by
  by_contra hne
  obtain ⟨P, hP, hmin⟩ : ∃ P ∈ progs, ∀ Q ∈ progs, P.execCount ≤ Q.execCount := by
    clear h
    induction progs with
    | nil => exact absurd rfl hne
    | cons p ps ih =>
      by_cases hps : ps = []
      · subst hps; exact ⟨p, by simp, by simp⟩
      · obtain ⟨P, hP, hm⟩ := ih hps
        by_cases hle : P.execCount ≤ p.execCount
        · exact ⟨P, by simp [hP], by simpa [hle] using hm⟩
        · refine ⟨p, by simp, ?_⟩
          intro Q hQ
          rcases List.mem_cons.1 hQ with e | e
          · subst e; exact le_refl _
          · have := hm Q e; omega
  obtain ⟨i, hi, e⟩ := List.mem_iff_getElem.1 hP
  have : (P, i) ∈ leastUsed progs := by
    simp only [leastUsed, List.mem_filter, List.all_eq_true, decide_eq_true_eq]
    refine ⟨?_, hmin⟩
    rw [List.mem_zipIdx_iff_getElem?]
    simp [hi, e]
  rw [h] at this
  simp at this

theorem sysExec_run {s : State} (h : Run s) :
    Sat (fun _ t => t.Inv) State.Inv (s.nextPid = s.cfg.idlePid) (sysExec s) := by
  unfold sysExec
  split
  · exact h.halt _
  · rename_i P Ps _
    have hb : Base s.cur (s.choose (Ps.length + 1)).2 := h.base.same (by constructor <;> simp) (by simp)
    have hb2 : ∀ n, Base ((s.choose (Ps.length + 1)).2.countExec n).cur ((s.choose (Ps.length + 1)).2.countExec n) := by
      intro n
      have := hb.same (t := (s.choose (Ps.length + 1)).2.countExec n) ⟨rfl, rfl, rfl, rfl, rfl, rfl, rfl, rfl⟩ rfl
      simpa using this
    exact (createUserProcess_sat (hb2 _)).mono (fun _ _ k => k) (fun _ k => k) (fun e => by simpa using e)

theorem systemCall_run {s : State} (h : Run s) :
    Sat (fun _ t => t.Inv) State.Inv (s.nextPid = s.cfg.idlePid) (systemCall s) := by
  refine (pop_run h).andThen fun n t ht => ?_
  obtain ⟨ht, hs⟩ := ht
  split
  · exact sysExit_run ht
  · exact (pop_run ht).andThen fun _ _ hu => (hu.1.emit _).inv
  · exact withCurrent_run ht fun _ _ _ => push_inv _ ht
  · exact (pop_run ht).andThen fun _ _ hu => withCurrent_run hu.1 fun _ _ _ => openDevice_run _ hu.1
  · exact (pop_run ht).andThen fun _ _ hu => withCurrent_run hu.1 fun _ _ _ => closeDevice_run _ hu.1
  · exact (pop_run ht).andThen fun _ _ hu => (pop_run hu.1).andThen fun _ _ hv =>
      withCurrent_run hv.1 fun _ _ _ => readDevice_run _ _ hv.1
  · exact (pop_run ht).andThen fun _ _ hu => (pop_run hu.1).andThen fun _ _ hv => (pop_run hv.1).andThen fun _ _ hw =>
      withCurrent_run hw.1 fun _ _ _ => writeDevice_run _ _ _ hw.1
  · exact (sysExec_run ht).mono (fun _ _ k => k) (fun _ k => k) (fun e => by rw [← hs.nextPid, ← hs.cfg]; exact e)
  · exact schedule_run ht
  · exact (pop_run ht).andThen fun _ _ hu => (pop_run hu.1).andThen fun _ _ hv => (pop_run hv.1).andThen fun _ _ hw =>
      sysExit_run (hw.1.emit _)
  · exact ht.inv

/-! ### Interrupts -/

/-- Every PCB of the first table is in the second, with its id, and unblocked if it was. -/
def Keeps (s t : State) : Prop :=
  ∀ p ∈ s.procs, ∃ q ∈ t.procs, q.ref = p.ref ∧ q.pid = p.pid ∧ (p.block = none → q.block = none)

theorem Keeps.trans {s t u : State} (h : Keeps s t) (k : Keeps t u) : Keeps s u := by
  intro p hp
  obtain ⟨q, hq, e1, e2, e3⟩ := h p hp
  obtain ⟨r, hr, f1, f2, f3⟩ := k q hq
  exact ⟨r, hr, f1.trans e1, f2.trans e2, fun e => f3 (e3 e)⟩

theorem keeps_updatePcb {s : State} {f : PCB → PCB} (r : Nat) (hn : (s.procs.map fun p => p.ref).Nodup)
    (hr : ∀ p, (f p).ref = p.ref) (hp : ∀ p, (f p).pid = p.pid) (hb : ∀ p, p.block = none → (f p).block = none) :
    Keeps s (s.updatePcb r f) := by
  intro p hp'
  by_cases hpr : p.ref = r
  · exact ⟨f p, (mem_updatePcb hn).2 (.inr ⟨p, hp', hpr, rfl⟩), hr p, hp p, hb p⟩
  · exact ⟨p, (mem_updatePcb hn).2 (.inl ⟨hp', hpr⟩), rfl, rfl, id⟩

theorem keeps_same {s t : State} (h : t.procs = s.procs) : Keeps s t := by
  intro p hp
  exact ⟨p, by rw [h]; exact hp, rfl, rfl, id⟩

theorem keeps_saveContext {s : State} (r : Nat) (hn : (s.procs.map fun p => p.ref).Nodup) :
    Keeps s (saveContext r s) :=
  keeps_updatePcb (s := s.addTicks s.cfg.saveLoadTime) r hn (fun _ => rfl) (fun _ => rfl) (fun _ h => h)

theorem pcbPush_run {s : State} {R : Prop} {r : Nat} (v : Word) (h : Run s) (hr : ∃ p ∈ s.procs, p.ref = r) :
    Sat (fun _ t => Run t ∧ Keeps s t) State.Inv R (pcbPush r v s) := by
  unfold pcbPush
  split
  · exact (push_run v h).mono (fun _ _ k => ⟨k.1, keeps_same k.2.procs⟩) (fun _ k => k) id
  · rename_i hc
    obtain ⟨p, hp, e⟩ := hr
    subst e
    have hf := findPcb_of_mem h.inv.refsDistinct hp
    obtain ⟨hs, -⟩ := h.inv.othersSaved p hp hc
    obtain ⟨x, hx⟩ := Option.isSome_iff_exists.1 hs
    simp only [hf, Option.bind_some, hx]
    have h1 : Run (s.updatePcb p.ref fun p => { p with regs := some x.lowerSp }) :=
      h.updatePcb p.ref (fun _ => rfl) (fun _ => rfl) (fun _ k => ⟨rfl, k.2⟩) (fun _ k => k)
    have h2 : Keeps s (s.updatePcb p.ref fun p => { p with regs := some x.lowerSp }) :=
      keeps_updatePcb p.ref h.inv.refsDistinct (fun _ => rfl) (fun _ => rfl) (fun _ k => k)
    split
    · rename_i ha
      exact ⟨h1.same ⟨rfl, rfl, rfl, rfl, rfl, rfl, rfl, rfl⟩ (h1.base.memWrite (windowAllows_lt ha)),
        h2.trans (keeps_same rfl)⟩
    · exact h1.halt _

theorem leaveIdle_run {s : State} {R : Prop} (h : Run s) : Sat (fun _ t => t.Inv) State.Inv R (leaveIdle s) := by
  unfold leaveIdle
  split
  · exact schedule_run h
  · exact h.inv

theorem Keeps.exists {s t : State} (h : Keeps s t) {r : Nat} (hr : ∃ p ∈ s.procs, p.ref = r) :
    ∃ p ∈ t.procs, p.ref = r := by
  obtain ⟨p, hp, e⟩ := hr
  obtain ⟨q, hq, e1, -, -⟩ := h p hp
  exact ⟨q, hq, e1.trans e⟩

theorem readComplete_run {s : State} {R : Prop} (dev : Int) (addr data : Word) (h : Run s) :
    Sat (fun _ t => t.Inv) State.Inv R (interruptReadComplete dev addr data s) := by
  unfold interruptReadComplete
  split
  · exact h.inv
  · split
    · exact h.inv
    · rename_i w hw
      obtain ⟨hm, -⟩ := waiter_some hw
      have hk : Keeps s (s.setBlock w.ref none) :=
        keeps_updatePcb w.ref h.inv.refsDistinct (fun _ => rfl) (fun _ => rfl) (fun _ _ => rfl)
      have hl := hk.exists ⟨w, hm, rfl⟩
      refine (pcbPush_run _ (h.unblock _) hl).andThen fun _ t ht => ?_
      refine (pcbPush_run _ ht.1 (ht.2.exists hl)).andThen fun _ u hu => leaveIdle_run hu.1

theorem restore_keeps {s : State} {r : Nat} {R : Prop} {Q : State → Prop} (h : Base none s)
    (hr : ∃ p ∈ s.procs, p.ref = r) :
    Sat (fun _ t => Base none t ∧ Keeps s t ∧ t.cfg = s.cfg ∧ t.cur = s.cur ∧ t.halted = s.halted ∧
      t.started = s.started) Q R (restoreContext r s) :=
  (restoreContext_sat h hr).mono
    (fun _ _ k => ⟨k.1, fun p hp => by
      obtain ⟨q, hq, e1, e2, e3⟩ := k.2.2.2.2.2.2.2 p hp
      exact ⟨q, hq, e1, e2, fun e => e3.trans e⟩, k.2.1, k.2.2.1, k.2.2.2.1, k.2.2.2.2.1⟩) (fun _ k => k) id

theorem writeComplete_run {s : State} {R : Prop} (dev : Int) (addr : Word) (h : Run s) :
    Sat (fun _ t => t.Inv) State.Inv R (interruptWriteComplete dev addr s) := by
  unfold interruptWriteComplete
  split
  · exact h.inv
  · split
    · exact h.inv
    · rename_i w hw
      obtain ⟨hm, -⟩ := waiter_some hw
      refine withCurrent_run h fun o ho hor => ?_
      obtain ⟨c, hc, hcr, -, hu⟩ := Inv_current h.inv h.running h.started
      have hco : c = o := List.inj_on_of_nodup_map h.inv.refsDistinct hc ho (by
        rw [hcr] at hor; exact Option.some.inj hor)
      subst hco
      have h1 := h.unblock w.ref
      have hb1 : Base (some c.ref) (s.setBlock w.ref none) := by simpa [hcr] using h1.base
      have k1 : Keeps s (s.setBlock w.ref none) :=
        keeps_updatePcb w.ref h.inv.refsDistinct (fun _ => rfl) (fun _ => rfl) (fun _ _ => rfl)
      have hb2 := base_saveContext hb1
      have k2 := k1.trans (keeps_saveContext c.ref h1.inv.refsDistinct)
      refine (restore_keeps hb2 (k2.exists ⟨w, hm, rfl⟩)).andThen fun _ t ht => ?_
      obtain ⟨hb3, k3, e1, e2, e3, e4⟩ := ht
      refine (push_sat (o := none) (s := { t with cur := some w.ref }) _ (hb3.setCur _) (.inl rfl)).andThen fun _ u hu' => ?_
      obtain ⟨hb4, hs4⟩ := hu'
      have hb5 := base_saveContext (r := w.ref) hb4.weaken
      have k5 : Keeps s (saveContext w.ref u) := (k2.trans k3).trans
        ((keeps_same (s := t) hs4.procs).trans (keeps_saveContext w.ref hb4.refsDistinct))
      refine (restore_keeps hb5 (k5.exists ⟨c, hc, rfl⟩)).andThen fun _ v hv => ?_
      obtain ⟨hb6, k6, f1, f2, f3, f4⟩ := hv
      obtain ⟨q, hq, g1, g2, g3⟩ := (k5.trans k6) c hc
      refine leaveIdle_run ⟨inv_of_base (s := { v with cur := some c.ref }) (hb6.weaken.setCur _) hq
        (by simp [g1]) fun hi => g3 (hu ?_), ?_, ?_⟩
      · simp only [g2] at hi
        have : v.cfg = s.cfg := by rw [f1]; exact (hs4.cfg.trans e1)
        rw [← this]; exact hi
      · have : v.halted = none := by rw [f3]; exact hs4.halted.trans (e3.trans h.running)
        exact this
      · have : v.started = true := by rw [f4]; exact hs4.started.trans (e4.trans h.started)
        exact this

theorem deliver_run {s : State} {R : Prop} (i : Interrupt) (h : Run s) :
    Sat (fun _ t => t.Inv) State.Inv R (deliver i s) := by
  cases i with
  | readComplete d a v => exact readComplete_run d a v h
  | writeComplete d a => exact writeComplete_run d a h
  | clock => exact schedule_run h

/-! ### Boot -/

theorem bootAction_inv {s : State} (h : s.Inv) (hh : s.halted = none) :
    Sat (fun _ t => t.Inv) State.Inv (s.nextPid = s.cfg.idlePid) (bootAction s) := by
  have hboot : ∀ b, State.Inv { s with boot := b } := fun b =>
    ⟨h.canonical, h.within, h.refsDistinct, h.refsUsed, h.idsDistinct, h.idsAssigned, h.idsStart, h.openSets,
      h.othersSaved, h.currentExists, h.noneMeansEmpty, h.currentListed, h.currentUnblocked⟩
  unfold bootAction
  split
  · refine Inv_setDevs (hboot _) fun d hd => ?_
    simp only [List.mem_append, List.mem_singleton] at hd
    rcases hd with hd | hd
    · exact h.openSets d hd
    · subst hd; simp
  · split
    · exact ⟨h.canonical, h.within, h.refsDistinct, h.refsUsed, h.idsDistinct, h.idsAssigned, h.idsStart, h.openSets,
        h.othersSaved, h.currentExists, h.noneMeansEmpty, h.currentListed, h.currentUnblocked⟩
    · split
      · exact createUserProcess_sat (base_of_inv (hboot _))
      · unfold start
        split
        · exact Base.halt (s := { s with started := true }) ⟨h.canonical, h.within, h.refsDistinct, h.refsUsed,
            h.idsDistinct, h.idsAssigned, h.idsStart, h.openSets, h.othersSaved⟩ _
        · rename_i hne
          refine ⟨h.canonical, h.within, h.refsDistinct, h.refsUsed, h.idsDistinct, h.idsAssigned, h.idsStart, h.openSets,
            h.othersSaved, fun _ _ e => hne ?_, h.noneMeansEmpty, h.currentListed, h.currentUnblocked⟩
          simp [h.noneMeansEmpty hh e]

end Sys2Proof.Laws
end

