-- ==== Sys2Proof/Laws/Step.lean ====
section
/-! SUPPORT. What one instruction and one step can do: the inversion lemmas every whole-machine statement starts from. -/

namespace Sys2Proof.Laws

open Sys2Proof.Machine

theorem fetch_ok {s : State} (h : s.fetchable = true) : fetch s = .go (s.mem.readTuple s.regs.pc.toNat) s := by
  simp only [State.fetchable, Bool.and_eq_true] at h
  simp only [fetch, check, h.1.1.1, h.1.1.2, h.1.2, h.2, if_true, andThen_go]

/-- The fetch either finds all four words in the window, or halts at the first that is not (R131). -/
theorem fetch_cases (s : State) :
    (s.fetchable = true ∧ fetch s = .go (s.mem.readTuple s.regs.pc.toNat) s) ∨
      ∃ n < 4, (∀ m < n, s.allows (s.fetchAddr m) = true) ∧ s.allows (s.fetchAddr n) = false ∧
        fetch s = raise (.illegalMemoryAccess (s.fetchAddr n)) s := by
  cases h0 : s.allows (s.fetchAddr 0) with
  | false => exact .inr ⟨0, by omega, by omega, h0, by simp [fetch, check, h0]⟩
  | true =>
    cases h1 : s.allows (s.fetchAddr 1) with
    | false =>
      exact .inr ⟨1, by omega, fun m hm => by obtain rfl : m = 0 := by omega
                                              exact h0, h1, by simp [fetch, check, h0, h1]⟩
    | true =>
      cases h2 : s.allows (s.fetchAddr 2) with
      | false =>
        refine .inr ⟨2, by omega, fun m hm => ?_, h2, by simp [fetch, check, h0, h1, h2]⟩
        rcases (by omega : m = 0 ∨ m = 1) with e | e <;> subst e <;> assumption
      | true =>
        cases h3 : s.allows (s.fetchAddr 3) with
        | false =>
          refine .inr ⟨3, by omega, fun m hm => ?_, h3, by simp [fetch, check, h0, h1, h2, h3]⟩
          rcases (by omega : m = 0 ∨ m = 1 ∨ m = 2) with e | e | e <;> subst e <;> assumption
        | true =>
          have hf : s.fetchable = true := by simp [State.fetchable, h0, h1, h2, h3]
          exact .inl ⟨hf, fetch_ok hf⟩

/-- One instruction step (R130–R134): a fetch fault, an illegal instruction, or the body of the decoded instruction with PC
advanced. -/
theorem engineStep_cases (s : State) :
    (∃ n < 4, (∀ m < n, s.allows (s.fetchAddr m) = true) ∧ s.allows (s.fetchAddr n) = false ∧
      engineStep s = .next ((s.addTicks Config.instrTicks).halt (.illegalMemoryAccess (s.fetchAddr n)))) ∨
    (s.fetchable = true ∧ ∃ e, decode (s.mem.readTuple s.regs.pc.toNat) = .error e ∧
      engineStep s = .next ((s.addTicks Config.instrTicks).advancePc.halt
        (.illegalInstruction (s.mem.readTuple s.regs.pc.toNat)))) ∨
    (s.fetchable = true ∧ ∃ i, decode (s.mem.readTuple s.regs.pc.toNat) = .ok i ∧
      engineStep s = exec i (s.addTicks Config.instrTicks).advancePc) := by
  rcases fetch_cases (s.addTicks Config.instrTicks) with ⟨hf, e⟩ | ⟨n, hn, hm, hb, e⟩
  · right
    simp only [engineStep, e]
    cases hd : decode (s.mem.readTuple s.regs.pc.toNat) with
    | error r =>
      left
      exact ⟨hf, r, rfl, by simp only [addTicks_mem, addTicks_regs, decodeOrRaise, hd, raise]⟩
    | ok i =>
      right
      exact ⟨hf, i, rfl, by simp only [addTicks_mem, addTicks_regs, decodeOrRaise, hd]⟩
  · left
    exact ⟨n, hn, hm, hb, by simp only [engineStep, e, raise]; rfl⟩

/-- What kinds of step there are: a stuck one, a refused one, a boot duty, an instruction or an interrupt. -/
theorem step_cases (s : State) :
    (∃ h, s.halted = some h ∧ step s = .fault (.machineHalted h)) ∨
    (s.halted = none ∧ s.cfg.ok = false ∧ step s = .refused .badParameters) ∨
    (s.halted = none ∧ s.cfg.ok = true ∧ s.started = false ∧ step s = (bootAction s).finish) ∨
    (s.halted = none ∧ s.cfg.ok = true ∧ s.started = true ∧
      ((s.schedule = [] ∧ step s = engineStep s) ∨
       (∃ turns, s.schedule = .engine :: turns ∧ step s = engineStep { s with schedule := turns }) ∨
       (∃ i turns, s.schedule = .interrupt i :: turns ∧ step s = (deliver i { s with schedule := turns }).finish))) := by
  cases hh : s.halted with
  | some h => exact .inl ⟨h, rfl, by simp [step, hh]⟩
  | none =>
    right
    cases hk : s.cfg.ok with
    | false => exact .inl ⟨rfl, rfl, by simp [step, hh, hk]⟩
    | true =>
      right
      cases hs : s.started with
      | false => exact .inl ⟨rfl, rfl, rfl, by simp [step, hh, hk, hs]⟩
      | true =>
        right
        refine ⟨rfl, rfl, rfl, ?_⟩
        cases ht : s.schedule with
        | nil => exact .inl ⟨rfl, by simp [step, hh, hk, hs, ht]⟩
        | cons t ts =>
          right
          cases t with
          | engine => exact .inl ⟨ts, rfl, by simp [step, hh, hk, hs, ht]⟩
          | interrupt i => exact .inr ⟨i, ts, rfl, by simp [step, hh, hk, hs, ht]⟩

/-! ### Instructions that touch registers and memory only -/

theorem takeBranch_run {s : State} {R : Prop} (k : Word) (h : Run s) :
    Sat (fun _ t => t.Inv) State.Inv R (takeBranch k s) :=
  (check_run _ h).andThen fun _ t ht => by
    obtain ⟨e, -⟩ := ht
    subst e
    exact (h.setReg _ _).inv

/-- Every instruction, in a running state of the invariant, answers a next state that meets it, or is refused because the
next process id is the reserved one. -/
theorem exec_run {s : State} (i : Instr) (h : Run s) :
    (∃ t, exec i s = .next t ∧ t.Inv) ∨ (∃ r, exec i s = .refused r ∧ s.nextPid = s.cfg.idlePid) := by
  have fin : ∀ {x : Flow Unit}, Sat (fun _ t => t.Inv) State.Inv (s.nextPid = s.cfg.idlePid) x →
      (∃ t, x.finish = .next t ∧ t.Inv) ∨ (∃ r, x.finish = .refused r ∧ s.nextPid = s.cfg.idlePid) := by
    intro x hx
    rcases hx.finish with ⟨t, e, h | h⟩ | h
    · exact .inl ⟨t, e, h⟩
    · exact .inl ⟨t, e, h⟩
    · exact .inr h
  cases i with
  | set d k => exact .inl ⟨_, rfl, (h.setReg _ _).inv⟩
  | add d a b => exact .inl ⟨_, rfl, (h.setReg _ _).inv⟩
  | sub d a b => exact .inl ⟨_, rfl, (h.setReg _ _).inv⟩
  | mul d a b => exact .inl ⟨_, rfl, (h.setReg _ _).inv⟩
  | div d a b =>
    simp only [exec, execDiv]
    split
    · exact .inl ⟨_, rfl, h.halt _⟩
    · exact .inl ⟨_, rfl, (h.setReg _ _).inv⟩
  | copy d a => exact .inl ⟨_, rfl, (h.setReg _ _).inv⟩
  | branch k => exact fin (takeBranch_run k h)
  | bne a b k =>
    simp only [exec, execBne]
    split
    · exact fin (takeBranch_run k h)
    · exact .inl ⟨_, rfl, h.inv⟩
  | blt a b k =>
    simp only [exec, execBlt]
    split
    · exact fin (takeBranch_run k h)
    · exact .inl ⟨_, rfl, h.inv⟩
  | pop d => exact fin ((pop_run h).andThen fun _ _ ht => (ht.1.setReg _ _).inv)
  | push a => exact fin (push_inv _ h)
  | load d o =>
    exact fin ((check_run _ h).andThen fun _ t ht => by
      obtain ⟨e, -⟩ := ht
      subst e
      exact (h.setReg _ _).inv)
  | save a o =>
    exact fin ((check_run _ h).andThen fun _ t ht => by
      obtain ⟨e, ha⟩ := ht
      subst e
      exact (Run.same (t := t.memWrite (t.physical (t.reg o)) (t.reg a)) h ⟨rfl, rfl, rfl, rfl, rfl, rfl, rfl, rfl⟩
        (h.base.memWrite (allows_lt ha))).inv)
  | trap => exact fin (systemCall_run h)

end Sys2Proof.Laws
end

