-- ==== Sys2Proof/Laws/Growth.lean ====
section
/-! SUPPORT. What every piece of engine or kernel work does to the counters, the parameters, the event list and the process
ids: they only grow.  One lemma per operation; callers cite `engineStep_grows`, `deliver_grows` and `bootAction_grows`. -/

namespace Sys2Proof.Laws

open Sys2Proof.Machine

/-- How far a state that is not halting can have moved. -/
structure Grows (s t : State) : Prop where
  cfg : t.cfg = s.cfg
  ticks : ∃ k, t.ticks = s.ticks + k * s.cfg.saveLoadTime
  nextPid : s.nextPid ≤ t.nextPid
  cursor : s.loadCursor ≤ t.loadCursor
  halted : t.halted = s.halted
  out : ∃ es : List Event, (∀ e ∈ es, ∀ h, e ≠ .diagnostic h) ∧ t.out = s.out ++ es
  ids : ∀ p ∈ t.procs, (∃ q ∈ s.procs, q.ref = p.ref ∧ q.pid = p.pid) ∨ p.pid = s.cfg.idlePid ∨
    (s.nextPid ≤ p.pid ∧ p.pid < t.nextPid)

theorem Grows.refl (s : State) : Grows s s :=
  ⟨rfl, ⟨0, by omega⟩, le_refl _, le_refl _, rfl, ⟨[], by simp, by simp⟩, fun p hp => .inl ⟨p, hp, rfl, rfl⟩⟩

theorem Grows.trans {s t u : State} (h : Grows s t) (k : Grows t u) : Grows s u := by
  obtain ⟨a, ha⟩ := h.ticks
  obtain ⟨b, hb⟩ := k.ticks
  obtain ⟨es, he, e1⟩ := h.out
  obtain ⟨fs, hf, f1⟩ := k.out
  refine ⟨k.cfg.trans h.cfg, ⟨a + b, ?_⟩, h.nextPid.trans k.nextPid, h.cursor.trans k.cursor, k.halted.trans h.halted,
    ⟨es ++ fs, ?_, by rw [f1, e1, List.append_assoc]⟩, fun p hp => ?_⟩
  · rw [hb, ha, h.cfg, Nat.add_mul, Nat.add_assoc]
  · intro e hm
    rcases List.mem_append.1 hm with hm | hm
    · exact he e hm
    · exact hf e hm
  · have h1 := h.nextPid
    have k1 := k.nextPid
    rcases k.ids p hp with ⟨q, hq, e1, e2⟩ | e | e
    · rcases h.ids q hq with ⟨r, hr, f1, f2⟩ | f | f
      · exact .inl ⟨r, hr, f1.trans e1, f2.trans e2⟩
      · exact .inr (.inl (e2 ▸ f))
      · exact .inr (.inr (by omega))
    · exact .inr (.inl (by rw [e, h.cfg]))
    · exact .inr (.inr (by omega))

/-- A change of fields that none of these are. -/
theorem Grows.of_same {s t : State} (h : Same s t) (ht : t.ticks = s.ticks) (hc : t.loadCursor = s.loadCursor)
    (ho : t.out = s.out) : Grows s t :=
  ⟨h.cfg, ⟨0, by omega⟩, h.nextPid.ge, hc.ge, h.halted, ⟨[], by simp, by simp [ho]⟩, fun p hp =>
    .inl ⟨p, h.procs ▸ hp, rfl, rfl⟩⟩

theorem Grows.setCur (s : State) (c : Option Nat) : Grows s { s with cur := c } :=
  ⟨rfl, ⟨0, by simp⟩, le_refl _, le_refl _, rfl, ⟨[], by simp, by simp⟩, fun p hp => .inl ⟨p, hp, rfl, rfl⟩⟩

theorem Grows.updatePcb {f : PCB → PCB} (s : State) (r : Nat) (hr : ∀ p, (f p).ref = p.ref)
    (hp : ∀ p, (f p).pid = p.pid) : Grows s (s.updatePcb r f) := by
  refine ⟨rfl, ⟨0, by simp⟩, le_refl _, le_refl _, rfl, ⟨[], by simp, by simp⟩, fun p hm => .inl ?_⟩
  rcases mem_updateFirst hm with h | ⟨x, hx, e⟩
  · exact ⟨p, h, rfl, rfl⟩
  · exact ⟨x, List.mem_of_find?_eq_some hx, by rw [e, hr], by rw [e, hp]⟩

theorem Grows.setBlock (s : State) (r : Nat) (k : Option BlockKey) : Grows s (s.setBlock r k) :=
  Grows.updatePcb s r (fun _ => rfl) (fun _ => rfl)

theorem Grows.removePcbs (s : State) (keep : PCB → Bool) (c : Option Nat) :
    Grows s { s with procs := s.procs.filter keep, cur := c } :=
  ⟨rfl, ⟨0, by simp⟩, le_refl _, le_refl _, rfl, ⟨[], by simp, by simp⟩, fun p hp =>
    .inl ⟨p, (List.mem_filter.1 hp).1, rfl, rfl⟩⟩

theorem Grows.emit (s : State) {e : Event} (he : ∀ h, e ≠ .diagnostic h) : Grows s (s.emit e) :=
  ⟨rfl, ⟨0, by simp⟩, le_refl _, le_refl _, rfl, ⟨[e], by simpa using he, rfl⟩, fun p hp => .inl ⟨p, hp, rfl, rfl⟩⟩

theorem Grows.saveContext (s : State) (r : Nat) : Grows s (saveContext r s) :=
  Grows.trans (t := s.addTicks s.cfg.saveLoadTime)
    ⟨rfl, ⟨1, by simp⟩, le_refl _, le_refl _, rfl, ⟨[], by simp, by simp⟩, fun p hp => .inl ⟨p, hp, rfl, rfl⟩⟩
    (Grows.updatePcb _ r (fun _ => rfl) (fun _ => rfl))

theorem Grows.saveCurrent (s : State) : Grows s s.saveCurrent := by
  unfold State.saveCurrent
  split
  · exact Grows.saveContext s _
  · exact Grows.refl s

theorem Grows.leaveCurrent (s : State) : Grows s s.leaveCurrent := by
  unfold State.leaveCurrent
  split
  · exact Grows.refl s
  · split
    · exact Grows.removePcbs s _ s.cur
    · exact Grows.saveContext s _

/-- How a block of work that started in `s` may end: grown, or grown and then halted; anything if it is stuck or refused. -/
def Ends {α : Type} (s : State) : Flow α → Prop
  | .go _ t => Grows s t
  | .stop (.next t) => ∃ u h, Grows s u ∧ t = u.halt h
  | .stop _ => True

theorem Ends.from {α : Type} {s t : State} {x : Flow α} (h : Grows s t) (k : Ends t x) : Ends s x := by
  cases x with
  | go a u => exact h.trans k
  | stop o =>
    cases o with
    | next u =>
      obtain ⟨v, r, hv, e⟩ := k
      exact ⟨v, r, h.trans hv, e⟩
    | fault f => trivial
    | refused r => trivial

theorem Ends.andThen {α β : Type} {s : State} {x : Flow α} {k : α → State → Flow β} (h : Ends s x)
    (hk : ∀ a t, Ends t (k a t)) : Ends s (x.andThen k) := by
  cases x with
  | go a t => exact Ends.from h (hk a t)
  | stop o => cases o <;> exact h

theorem Ends.raise {α : Type} (s : State) (h : HaltReason) : Ends s (raise h s : Flow α) := ⟨s, h, Grows.refl s, rfl⟩

/-! ### The shared operations -/

theorem grows_regs (s : State) (x : Regs) : Grows s { s with regs := x } :=
  Grows.of_same ⟨rfl, rfl, rfl, rfl, rfl, rfl, rfl, rfl⟩ rfl rfl rfl

theorem grows_memWrite (s : State) (a v : Word) : Grows s (s.memWrite a v) :=
  Grows.of_same ⟨rfl, rfl, rfl, rfl, rfl, rfl, rfl, rfl⟩ rfl rfl rfl

theorem check_ends (a : Word) (s : State) : Ends s (check a s) := by
  unfold check
  split
  · exact Grows.refl s
  · exact Ends.raise s _

theorem push_ends (v : Word) (s : State) : Ends s (push v s) :=
  Ends.from (grows_regs s s.regs.lowerSp) ((check_ends _ _).andThen fun _ t => grows_memWrite t _ v)

theorem pop_ends (s : State) : Ends s (pop s) := (check_ends _ s).andThen fun _ t => grows_regs t _

theorem pushAll_ends (vs : List Word) : ∀ s, Ends s (pushAll vs s) := by
  induction vs with
  | nil => exact Grows.refl
  | cons v vs ih => exact fun s => (push_ends v s).andThen fun _ t => ih t

theorem withCurrent_ends {α : Type} (s : State) {k : PCB → Flow α} (h : ∀ c, Ends s (k c)) :
    Ends s (withCurrent s k) := by
  unfold withCurrent
  split
  · exact h _
  · trivial

theorem restoreContext_ends (r : Nat) (s : State) : Ends s (restoreContext r s) := by
  unfold restoreContext
  dsimp only
  split
  · trivial
  · split
    · trivial
    · split
      · trivial
      · rename_i x _ _
        exact Grows.trans (t := { s.addTicks s.cfg.saveLoadTime with regs := x })
          ⟨rfl, ⟨1, by simp⟩, le_refl _, le_refl _, rfl, ⟨[], by simp, by simp⟩, fun p hp => .inl ⟨p, hp, rfl, rfl⟩⟩
          (Grows.updatePcb _ r (fun _ => rfl) (fun _ => rfl))

theorem grows_install {s : State} {P : Program} {alloc id : Nat} (hf : 1 ≤ alloc)
    (hid : id = s.cfg.idlePid ∨ id = s.nextPid) : Grows s (s.install P alloc id) := by
  refine ⟨by simp [State.install], ⟨0, by simp [State.install]⟩, ?_, ?_, by simp [State.install],
    ⟨[], by simp, by simp [State.install]⟩, fun p hp => ?_⟩
  · simp only [State.install, State.appendPcb, loadRegs_nextPid]
    split <;> omega
  · simp only [State.install, State.appendPcb, Config.instrSize]; omega
  · simp only [State.install, appendPcb_procs, loadRegs_procs, List.mem_append, List.mem_singleton] at hp
    rcases hp with hp | hp
    · exact .inl ⟨p, hp, rfl, rfl⟩
    · subst hp
      rcases hid with e | e
      · exact .inr (.inl e)
      · by_cases he : id = s.cfg.idlePid
        · exact .inr (.inl he)
        · refine .inr (.inr ⟨e.ge, ?_⟩)
          simp only [State.install, State.appendPcb, loadRegs_nextPid, loadRegs_cfg, PCB.new, if_neg he]
          omega

theorem createProcess_ends {s : State} (P : Program) (alloc : Nat) {id : Nat}
    (hid : id = s.cfg.idlePid ∨ id = s.nextPid) : Ends s (createProcess P alloc id s) := by
  unfold createProcess
  split
  · rename_i hf
    exact (Grows.saveCurrent s).trans (grows_install (fits_iff.1 hf).1 (by simpa using hid))
  · exact Ends.raise s _

theorem createUserProcess_ends (P : Program) (s : State) : Ends s (createUserProcess P s) := by
  unfold createUserProcess
  split
  · trivial
  · exact createProcess_ends P _ (.inr rfl)

theorem schedule_ends (s : State) : Ends s (schedule s) := by
  unfold schedule
  split
  · exact Ends.raise s _
  · split
    · split
      · exact Grows.refl s
      · exact createProcess_ends _ _ (.inl rfl)
    · split
      · exact Grows.refl s
      · refine Ends.from (Grows.leaveCurrent s) ((restoreContext_ends _ _).andThen fun _ t => ?_)
        exact Grows.setCur t _

/-! ### Devices, system calls, interrupts -/

theorem grows_updateOpenSet (s : State) (id : Int) (f : List Nat → List Nat) : Grows s (s.updateOpenSet id f) :=
  ⟨rfl, ⟨0, by simp⟩, le_refl _, le_refl _, rfl, ⟨[], by simp, by simp⟩, fun p hp => .inl ⟨p, hp, rfl, rfl⟩⟩

theorem grows_askAvailable (s : State) : Grows s s.askAvailable.2 :=
  Grows.of_same (by constructor <;> simp) (by simp) (by simp) (by simp)

theorem retry_ends (n : Word) (vs : List Word) (s : State) : Ends s (retry n vs s) :=
  Ends.from (grows_regs s _) ((pushAll_ends _ _).andThen fun _ t => schedule_ends t)

theorem blockOn_ends (r : Nat) (k : BlockKey) (s : State) : Ends s (blockOn r k s) :=
  Ends.from (Grows.setBlock s r _) (schedule_ends _)

theorem openDevice_ends (c : PCB) (id : Int) (s : State) : Ends s (openDevice c id s) := by
  unfold openDevice
  split
  · exact push_ends _ s
  · split
    · exact push_ends _ s
    · dsimp only
      split
      · exact Ends.from (grows_updateOpenSet s _ _) (push_ends _ _)
      · exact Ends.from ((grows_updateOpenSet s _ _).trans (Grows.setBlock _ _ _))
          ((push_ends _ _).andThen fun _ t => schedule_ends t)

theorem closeDevice_ends (c : PCB) (id : Int) (s : State) : Ends s (closeDevice c id s) := by
  unfold closeDevice
  split
  · exact push_ends _ s
  · split
    · dsimp only
      split
      · exact Ends.from (grows_updateOpenSet s _ _) (push_ends _ _)
      · exact Ends.from ((grows_updateOpenSet s _ _).trans (Grows.setBlock _ _ _)) (push_ends _ _)
    · exact push_ends _ s

theorem readDevice_ends (c : PCB) (id addr : Word) (s : State) : Ends s (readDevice c id addr s) := by
  unfold readDevice
  split
  · exact push_ends _ s
  · split
    · split
      · exact Ends.from ((grows_askAvailable s).trans (Grows.emit _ (by simp))) (blockOn_ends _ _ _)
      · exact Ends.from (grows_askAvailable s) (retry_ends _ _ _)
    · exact push_ends _ s

theorem writeDevice_ends (c : PCB) (id addr data : Word) (s : State) : Ends s (writeDevice c id addr data s) := by
  unfold writeDevice
  split
  · exact push_ends _ s
  · split
    · split
      · exact Ends.from ((grows_askAvailable s).trans (Grows.emit _ (by simp))) (blockOn_ends _ _ _)
      · exact Ends.from (grows_askAvailable s) (retry_ends _ _ _)
    · exact push_ends _ s

theorem sysExit_ends (s : State) : Ends s (sysExit s) :=
  withCurrent_ends s fun _ => Ends.from (Grows.removePcbs s _ none) (schedule_ends _)

theorem sysExec_ends (s : State) : Ends s (sysExec s) := by
  unfold sysExec
  split
  · exact Ends.raise s _
  · refine Ends.from (Grows.of_same ?_ ?_ ?_ ?_) (createUserProcess_ends _ _)
    · constructor <;> simp
    all_goals simp

theorem systemCall_ends (s : State) : Ends s (systemCall s) := by
  refine (pop_ends s).andThen fun n t => ?_
  split
  · exact sysExit_ends t
  · exact (pop_ends t).andThen fun v u => Grows.emit u (by simp)
  · exact withCurrent_ends t fun _ => push_ends _ t
  · exact (pop_ends t).andThen fun _ u => withCurrent_ends u fun c => openDevice_ends c _ u
  · exact (pop_ends t).andThen fun _ u => withCurrent_ends u fun c => closeDevice_ends c _ u
  · exact (pop_ends t).andThen fun _ u => (pop_ends u).andThen fun _ v => withCurrent_ends v fun c =>
      readDevice_ends c _ _ v
  · exact (pop_ends t).andThen fun _ u => (pop_ends u).andThen fun _ v => (pop_ends v).andThen fun _ w =>
      withCurrent_ends w fun c => writeDevice_ends c _ _ _ w
  · exact sysExec_ends t
  · exact schedule_ends t
  · exact (pop_ends t).andThen fun _ u => (pop_ends u).andThen fun _ v => (pop_ends v).andThen fun _ w =>
      Ends.from (Grows.emit w (by simp)) (sysExit_ends _)
  · exact Grows.refl t

theorem pcbPush_ends (r : Nat) (v : Word) (s : State) : Ends s (pcbPush r v s) := by
  unfold pcbPush
  split
  · exact push_ends v s
  · split
    · trivial
    · rename_i x _
      have h := Grows.updatePcb (f := fun p => { p with regs := some x.lowerSp }) s r (fun _ => rfl) (fun _ => rfl)
      dsimp only
      split
      · exact h.trans (grows_memWrite _ _ _)
      · exact Ends.from h (Ends.raise _ _)

theorem leaveIdle_ends (s : State) : Ends s (leaveIdle s) := by
  unfold leaveIdle
  split
  · exact schedule_ends s
  · exact Grows.refl s

theorem deliver_ends (i : Interrupt) (s : State) : Ends s (deliver i s) := by
  cases i with
  | clock => exact schedule_ends s
  | readComplete dev addr data =>
    show Ends s (interruptReadComplete dev addr data s)
    unfold interruptReadComplete
    split
    · exact Grows.refl s
    · split
      · exact Grows.refl s
      · exact Ends.from (Grows.setBlock s _ _) ((pcbPush_ends _ _ _).andThen fun _ t =>
          (pcbPush_ends _ _ t).andThen fun _ u => leaveIdle_ends u)
  | writeComplete dev addr =>
    show Ends s (interruptWriteComplete dev addr s)
    unfold interruptWriteComplete
    split
    · exact Grows.refl s
    · split
      · exact Grows.refl s
      · refine withCurrent_ends s fun o => ?_
        refine Ends.from ((Grows.setBlock s _ _).trans (Grows.saveContext _ _)) ((restoreContext_ends _ _).andThen fun _ t => ?_)
        refine Ends.from (Grows.setCur t _) ((push_ends _ _).andThen fun _ u => ?_)
        refine Ends.from (Grows.saveContext u _) ((restoreContext_ends _ _).andThen fun _ v => ?_)
        exact Ends.from (Grows.setCur v _) (leaveIdle_ends _)

theorem bootAction_ends (s : State) : Ends s (bootAction s) := by
  have same : ∀ (b : BootPlan) (ds : List DeviceInfo) (ps : List Program) (f : Bool),
      Grows s { s with boot := b, devs := ds, progs := ps, started := f } := fun _ _ _ _ =>
    ⟨rfl, ⟨0, by simp⟩, le_refl _, le_refl _, rfl, ⟨[], by simp, by simp⟩, fun p hp => .inl ⟨p, hp, rfl, rfl⟩⟩
  unfold bootAction
  split
  · exact same _ _ s.progs s.started
  · split
    · exact same _ s.devs _ s.started
    · split
      · exact Ends.from (same _ s.devs s.progs s.started) (createUserProcess_ends _ _)
      · unfold start
        split
        · exact Ends.from (same s.boot s.devs s.progs true) (Ends.raise _ _)
        · exact same s.boot s.devs s.progs true

/-! ### Instructions and steps -/

/-- Work that gives a next state grows the state, or grows it and halts. -/
theorem finish_grows {s t : State} {x : Flow Unit} (hx : Ends s x) (h : x.finish = .next t) :
    Grows s t ∨ ∃ u r, Grows s u ∧ t = u.halt r := by
  cases x with
  | go a u => cases h; exact .inl hx
  | stop o => simp only [finish_stop] at h; subst h; exact .inr hx

/-- An instruction grows the state, or grows it and halts. -/
theorem exec_grows {i : Instr} {s t : State} (h : exec i s = .next t) : Grows s t ∨ ∃ u r, Grows s u ∧ t = u.halt r := by
  have fin : ∀ {x : Flow Unit}, Ends s x → x.finish = .next t → Grows s t ∨ ∃ u r, Grows s u ∧ t = u.halt r :=
    finish_grows
  have reg : ∀ d v, Host.Outcome.next (s.setReg d v) = (.next t : Host.Outcome State Fault Refusal) → Grows s t := by
    intro d v e; cases e; exact grows_regs s _
  have br : ∀ k, Ends s (takeBranch k s) := fun k => (check_ends _ s).andThen fun _ t => grows_regs t _
  cases i with
  | set => exact .inl (reg _ _ h)
  | add => exact .inl (reg _ _ h)
  | sub => exact .inl (reg _ _ h)
  | mul => exact .inl (reg _ _ h)
  | copy => exact .inl (reg _ _ h)
  | div d a b =>
    simp only [exec, execDiv] at h
    split at h
    · exact fin (Ends.raise s _) h
    · exact .inl (reg _ _ h)
  | branch k => exact fin (br k) h
  | bne a b k =>
    simp only [exec, execBne] at h
    split at h
    · exact fin (br k) h
    · cases h; exact .inl (Grows.refl s)
  | blt a b k =>
    simp only [exec, execBlt] at h
    split at h
    · exact fin (br k) h
    · cases h; exact .inl (Grows.refl s)
  | pop d =>
    exact fin (x := (pop s).andThen fun v s => .go () (s.setReg d v)) ((pop_ends s).andThen fun _ t => grows_regs t _) h
  | push a => exact fin (push_ends _ s) h
  | load d o =>
    exact fin (x := (check (s.physical (s.reg o)) s).andThen fun _ s =>
      .go () (s.setReg d (s.memRead (s.physical (s.reg o))))) ((check_ends _ s).andThen fun _ t => grows_regs t _) h
  | save a o =>
    exact fin (x := (check (s.physical (s.reg o)) s).andThen fun _ s =>
      .go () (s.memWrite (s.physical (s.reg o)) (s.reg a))) ((check_ends _ s).andThen fun _ t => grows_memWrite t _ _) h
  | trap => exact fin (systemCall_ends s) h

/-- An instruction step grows the state that is one tick later, or grows it and halts. -/
theorem engineStep_grows {s t : State} (h : engineStep s = .next t) :
    Grows (s.addTicks Config.instrTicks) t ∨ ∃ u r, Grows (s.addTicks Config.instrTicks) u ∧ t = u.halt r := by
  rcases engineStep_cases s with ⟨n, -, -, -, e⟩ | ⟨-, x, -, e⟩ | ⟨-, i, -, e⟩
  · rw [e] at h; cases h; exact .inr ⟨_, _, Grows.refl _, rfl⟩
  · rw [e] at h; cases h; exact .inr ⟨_, _, grows_regs _ _, rfl⟩
  · rw [e] at h
    have hg : Grows (s.addTicks Config.instrTicks) (s.addTicks Config.instrTicks).advancePc := grows_regs _ _
    rcases exec_grows h with k | ⟨u, r, k, e'⟩
    · exact .inl (hg.trans k)
    · exact .inr ⟨u, r, hg.trans k, e'⟩

end Sys2Proof.Laws
end

