-- ==== Sys2Proof/Laws/Calls.lean ====
section
/-! SUPPORT. The stack as a system call sees it (`popped`, `pushed`), the dispatcher, and finding a PCB or a device after an
update. -/

namespace Sys2Proof.Laws

open Sys2Proof.Machine

variable (s : State)

@[simp] theorem popped_cfg : s.popped.cfg = s.cfg := rfl
@[simp] theorem popped_mem : s.popped.mem = s.mem := rfl
@[simp] theorem popped_ticks : s.popped.ticks = s.ticks := rfl
@[simp] theorem popped_procs : s.popped.procs = s.procs := rfl
@[simp] theorem popped_cur : s.popped.cur = s.cur := rfl
@[simp] theorem popped_nextPid : s.popped.nextPid = s.nextPid := rfl
@[simp] theorem popped_loadCursor : s.popped.loadCursor = s.loadCursor := rfl
@[simp] theorem popped_halted : s.popped.halted = s.halted := rfl
@[simp] theorem popped_out : s.popped.out = s.out := rfl
@[simp] theorem popped_devs : s.popped.devs = s.devs := rfl
@[simp] theorem popped_progs : s.popped.progs = s.progs := rfl
@[simp] theorem popped_started : s.popped.started = s.started := rfl
@[simp] theorem popped_boot : s.popped.boot = s.boot := rfl
@[simp] theorem popped_schedule : s.popped.schedule = s.schedule := rfl
@[simp] theorem popped_answers : s.popped.answers = s.answers := rfl
@[simp] theorem popped_draws : s.popped.draws = s.draws := rfl
@[simp] theorem popped_drawn : s.popped.drawn = s.drawn := rfl
@[simp] theorem popped_nextRef : s.popped.nextRef = s.nextRef := rfl
@[simp] theorem popped_regs : s.popped.regs = s.regs.raiseSp := rfl
@[simp] theorem popped_curPcb : s.popped.curPcb = s.curPcb := rfl
@[simp] theorem popped_idling : s.popped.idling = s.idling := rfl
@[simp] theorem popped_findPcb (r : Nat) : s.popped.findPcb r = s.findPcb r := rfl
@[simp] theorem popped_findDev (d : Int) : s.popped.findDev d = s.findDev d := rfl

@[simp] theorem pushed_cfg (v : Word) : (s.pushed v).cfg = s.cfg := rfl
@[simp] theorem pushed_ticks (v : Word) : (s.pushed v).ticks = s.ticks := rfl
@[simp] theorem pushed_procs (v : Word) : (s.pushed v).procs = s.procs := rfl
@[simp] theorem pushed_cur (v : Word) : (s.pushed v).cur = s.cur := rfl
@[simp] theorem pushed_nextPid (v : Word) : (s.pushed v).nextPid = s.nextPid := rfl
@[simp] theorem pushed_loadCursor (v : Word) : (s.pushed v).loadCursor = s.loadCursor := rfl
@[simp] theorem pushed_halted (v : Word) : (s.pushed v).halted = s.halted := rfl
@[simp] theorem pushed_out (v : Word) : (s.pushed v).out = s.out := rfl
@[simp] theorem pushed_devs (v : Word) : (s.pushed v).devs = s.devs := rfl
@[simp] theorem pushed_progs (v : Word) : (s.pushed v).progs = s.progs := rfl
@[simp] theorem pushed_started (v : Word) : (s.pushed v).started = s.started := rfl
@[simp] theorem pushed_boot (v : Word) : (s.pushed v).boot = s.boot := rfl
@[simp] theorem pushed_schedule (v : Word) : (s.pushed v).schedule = s.schedule := rfl
@[simp] theorem pushed_answers (v : Word) : (s.pushed v).answers = s.answers := rfl
@[simp] theorem pushed_draws (v : Word) : (s.pushed v).draws = s.draws := rfl
@[simp] theorem pushed_drawn (v : Word) : (s.pushed v).drawn = s.drawn := rfl
@[simp] theorem pushed_nextRef (v : Word) : (s.pushed v).nextRef = s.nextRef := rfl
@[simp] theorem pushed_regs (v : Word) : (s.pushed v).regs = s.regs.lowerSp := rfl
@[simp] theorem pushed_mem (v : Word) : (s.pushed v).mem = s.mem.writeWord s.regs.lowerSp.sp.toNat v := rfl
@[simp] theorem pushed_curPcb (v : Word) : (s.pushed v).curPcb = s.curPcb := rfl
@[simp] theorem pushed_findPcb (v : Word) (r : Nat) : (s.pushed v).findPcb r = s.findPcb r := rfl
@[simp] theorem pushed_findDev (v : Word) (d : Int) : (s.pushed v).findDev d = s.findDev d := rfl

variable {s}

/-- A pop that passes its check answers the top word and the popped state (R137). -/
theorem pop_popped (h : s.canPop) : pop s = .go s.top s.popped := pop_ok h

/-- A push that passes its check gives the pushed state (R136). -/
theorem push_pushed {v : Word} (h : s.canPush) : push v s = .go () (s.pushed v) := push_ok h

/-- The dispatcher on a stack whose top can be popped (R211). -/
theorem systemCall_popped (h : s.canPop) : systemCall s = (match s.top.toNat with
    | 0 => sysExit s.popped
    | 1 => sysOutput s.popped
    | 2 => sysGetpid s.popped
    | 3 => sysOpen s.popped
    | 4 => sysClose s.popped
    | 5 => sysRead s.popped
    | 6 => sysWrite s.popped
    | 7 => sysExec s.popped
    | 8 => sysYield s.popped
    | 9 => sysCoredump s.popped
    | _ => .go () s.popped) := by
  unfold systemCall; rw [pop_popped h]; rfl

/-- With a current PCB `withCurrent` runs on it. -/
theorem withCurrent_some {α : Type} {c : PCB} {k : PCB → Flow α} (h : s.curPcb = some c) : withCurrent s k = k c := by
  simp only [withCurrent, h]

/-- EXIT of the current process: the scheduler runs on the table without it (R215). -/
theorem sysExit_schedule {c : PCB} (h : s.curPcb = some c) :
    sysExit s = schedule { s with procs := s.procs.filter (fun p => p.ref != c.ref), cur := none } :=
  withCurrent_some h

/-- What the lookup of a PCB finds after an update that keeps references. -/
theorem findPcb_updatePcb (r : Nat) {f : PCB → PCB} (hf : ∀ p, (f p).ref = p.ref) (q : Nat) :
    (s.updatePcb r f).findPcb q = if q = r then (s.findPcb r).map f else s.findPcb q := by
  simp only [State.findPcb, updatePcb_procs]
  generalize s.procs = l
  induction l with
  | nil => simp [updateFirst]
  | cons x xs ih =>
    simp only [updateFirst]
    by_cases hx : x.ref = r
    · by_cases hq : q = r
      · subst hq; simp [hx, hf]
      · have : ¬ r = q := fun e => hq e.symm
        simp [hx, hf, hq, this]
    · by_cases hxq : x.ref = q
      · subst hxq; simp [hx]
      · by_cases hq : q = r
        · subst hq; simpa [hx] using ih
        · simp only [beq_iff_eq, hx, hxq, hq, if_false, List.find?_cons_of_neg, not_false_eq_true] at ih ⊢
          simpa [hxq] using ih

/-- What `find` finds after a change of one device's open set (R291). -/
theorem findDev_updateOpenSet (id : Int) (f : List Nat → List Nat) (j : Int) :
    (s.updateOpenSet id f).findDev j =
      if j = id then (s.findDev id).map fun d => { d with openSet := f d.openSet } else s.findDev j := by
  simp only [State.findDev, State.updateOpenSet]
  generalize s.devs = l
  induction l with
  | nil => simp [updateFirst]
  | cons x xs ih =>
    simp only [updateFirst]
    by_cases hx : x.id = id
    · by_cases hq : j = id
      · subst hq; simp [hx]
      · have : ¬ id = j := fun e => hq e.symm
        simp [hx, hq, this]
    · by_cases hxq : x.id = j
      · subst hxq; simp [hx]
      · by_cases hq : j = id
        · subst hq; simpa [hx] using ih
        · simp only [beq_iff_eq, hx, hxq, hq, if_false, List.find?_cons_of_neg, not_false_eq_true] at ih ⊢
          simpa [hxq] using ih

/-- A save changes the saved PCB alone (R256). -/
theorem findPcb_saveContext (r q : Nat) :
    (saveContext r s).findPcb q = if q = r
      then (s.findPcb r).map fun p => p.makeReady s.regs (s.ticks + s.cfg.saveLoadTime) else s.findPcb q :=
  findPcb_updatePcb (s := s.addTicks s.cfg.saveLoadTime) r
    (f := fun p => p.makeReady s.regs (s.ticks + s.cfg.saveLoadTime)) (fun _ => rfl) q

/-- The state after a restore of `r` with saved registers `x` (R257). -/
def restored (s : State) (r : Nat) (x : Regs) : State :=
  { s.addTicks s.cfg.saveLoadTime with regs := x }.updatePcb r fun p =>
    p.addStarve (s.ticks + s.cfg.saveLoadTime - p.lastReady)

theorem restoreContext_restored {r : Nat} {p : PCB} {x : Regs} (hf : s.findPcb r = some p) (hx : p.regs = some x)
    (h0 : p.numReady ≠ 0) : restoreContext r s = .go () (restored s r x) := by
  have hf' : (s.addTicks s.cfg.saveLoadTime).findPcb r = some p := hf
  simp only [restoreContext, hf', hx, h0, if_false]
  rfl

/-- A restore changes the restored PCB's statistics alone (R257). -/
theorem findPcb_restored (r q : Nat) (x : Regs) :
    (restored s r x).findPcb q = if q = r
      then (s.findPcb r).map fun p => p.addStarve (s.ticks + s.cfg.saveLoadTime - p.lastReady) else s.findPcb q :=
  findPcb_updatePcb (s := { s.addTicks s.cfg.saveLoadTime with regs := x }) r
    (f := fun p => p.addStarve (s.ticks + s.cfg.saveLoadTime - p.lastReady)) (fun _ => rfl) q

/-- The current PCB is found by its reference. -/
theorem findPcb_of_curPcb {c : PCB} (h : s.curPcb = some c) : s.findPcb c.ref = some c := by
  obtain ⟨-, hc⟩ := curPcb_some h
  simpa [State.curPcb, hc] using h

end Sys2Proof.Laws
end

