-- ==== Sys2Proof/Laws/PerInstr.lean ====
section
/-! SUPPORT. Statements made once per instruction (LAWS.json): the words the encoder writes are a legal tuple, and the
decoder reads the same instruction from them whatever stands in the words the instruction ignores. -/

namespace Sys2Proof.Laws.EncodingLegal

/-- The encoded words are a legal instruction (R106). -/
def Statement (i : Instr) : Prop := (encode i).legal = true

theorem set (d : Reg) (k : Word) : Statement (.set d k) := by
  simp [Statement, encode, Tuple.legal, Tuple.regFields, regField_index]
theorem add (d a b : Reg) : Statement (.add d a b) := by
  simp [Statement, encode, Tuple.legal, Tuple.regFields, regField_index]
theorem sub (d a b : Reg) : Statement (.sub d a b) := by
  simp [Statement, encode, Tuple.legal, Tuple.regFields, regField_index]
theorem mul (d a b : Reg) : Statement (.mul d a b) := by
  simp [Statement, encode, Tuple.legal, Tuple.regFields, regField_index]
theorem div (d a b : Reg) : Statement (.div d a b) := by
  simp [Statement, encode, Tuple.legal, Tuple.regFields, regField_index]
theorem copy (d a : Reg) : Statement (.copy d a) := by
  simp [Statement, encode, Tuple.legal, Tuple.regFields, regField_index]
theorem branch (k : Word) : Statement (.branch k) := by
  simp [Statement, encode, Tuple.legal, Tuple.regFields]
theorem bne (a b : Reg) (k : Word) : Statement (.bne a b k) := by
  simp [Statement, encode, Tuple.legal, Tuple.regFields, regField_index]
theorem blt (a b : Reg) (k : Word) : Statement (.blt a b k) := by
  simp [Statement, encode, Tuple.legal, Tuple.regFields, regField_index]
theorem pop (d : Reg) : Statement (.pop d) := by
  simp [Statement, encode, Tuple.legal, Tuple.regFields, regField_index]
theorem push (a : Reg) : Statement (.push a) := by
  simp [Statement, encode, Tuple.legal, Tuple.regFields, regField_index]
theorem load (d o : Reg) : Statement (.load d o) := by
  simp [Statement, encode, Tuple.legal, Tuple.regFields, regField_index]
theorem save (a o : Reg) : Statement (.save a o) := by
  simp [Statement, encode, Tuple.legal, Tuple.regFields, regField_index]
theorem trap : Statement .trap := by
  simp [Statement, encode, Tuple.legal, Tuple.regFields]

end Sys2Proof.Laws.EncodingLegal
end

