-- ==== Sys2Proof/Tests/Slice0.lean ====
section
/-! SUPPORT. The tests: ill-formed terms that the checks refuse, words of the spec's encoding tables decoded, the vectors of
95_test_vectors, and for every statement of Certificates/Slice0 with hypotheses a state that meets them.  Every expected
result is the spec's: the vector's name stands in the docstring. -/

namespace Sys2Proof.Tests
open Sys2Proof Sys2Proof.Machine

-- One theorem at a time: checked side by side these many small evaluations start more threads than the limit allows.
set_option Elab.async false

/-! ### Well-formedness (30_encoding R104, R106; 00_scope R6; 46_devices R291) -/

/-- V-FLT-1 to V-FLT-4: words that are no opcode. -/
theorem test_legal_refuses_unknown_opcodes :
    ([⟨13, 0, 0, 0⟩, ⟨14, 1, 2, 3⟩, ⟨16, 0, 0, 0⟩, ⟨-1, 0, 0, 0⟩] : List Tuple).all (fun t => !t.legal) = true := by decide

/-- V-FLT-5, V-FLT-6, V-FLT-9: a reg field outside 0..8, in each of the three places. -/
theorem test_legal_refuses_register_out_of_range :
    ([⟨0, 9, 1, 0⟩, ⟨0, -1, 1, 0⟩, ⟨7, 9, 0, 16⟩, ⟨11, 0, 9, 0⟩, ⟨4, 0, 1, 9⟩] : List Tuple).all (fun t => !t.legal) = true := by
  decide

/-- R104: the bounds of a reg field. -/
theorem test_regField_bounds :
    regField 0 = true ∧ regField 8 = true ∧ regField 9 = false ∧ regField (-1) = false := by decide

/-- R6, R7: the default parameters are admitted; a memory of no words, one too large, a code that is not negative, and two
equal codes are not. -/
theorem test_params_refused :
    Config.Params.defaults.ok = true ∧ ({ Config.Params.defaults with memSize := 0 }).ok = false ∧
      ({ Config.Params.defaults with memSize := 2147483649 }).ok = false ∧
      ({ Config.Params.defaults with eRead := 0 }).ok = false ∧
      ({ Config.Params.defaults with eOpen := -2 }).ok = false := by decide

/-- R291: two devices with one id. -/
theorem test_distinctIds_refuses_a_repeat : distinctIds [1, 2, 3] = true ∧ distinctIds [1, 2, 1] = false := by decide

/-! ### Decoding: words written out from 30_encoding R102, one or more for every row -/

theorem test_decode_set : decode ⟨0, 4, -2147483648, 0⟩ = .ok (.set .r4 (-2147483648)) ∧
    decode ⟨0, 2, 7, 99⟩ = .ok (.set .r2 7) := by decide
theorem test_decode_add : decode ⟨1, 0, 1, 2⟩ = .ok (.add .r0 .r1 .r2) := by decide
theorem test_decode_sub : decode ⟨2, 3, 5, 6⟩ = .ok (.sub .r3 .pc .sp) := by decide
theorem test_decode_mul : decode ⟨3, 7, 8, 4⟩ = .ok (.mul .base .lim .r4) := by decide
theorem test_decode_div : decode ⟨4, 4, 2, 3⟩ = .ok (.div .r4 .r2 .r3) := by decide
theorem test_decode_copy : decode ⟨5, 4, 5, 0⟩ = .ok (.copy .r4 .pc) ∧ decode ⟨5, 0, 3, 9⟩ = .ok (.copy .r0 .r3) := by decide
theorem test_decode_branch : decode ⟨6, 0, 9, 9⟩ = .ok (.branch 0) ∧ decode ⟨6, -1, 0, 0⟩ = .ok (.branch (-1)) := by decide
theorem test_decode_bne : decode ⟨7, 1, 2, 40⟩ = .ok (.bne .r1 .r2 40) := by decide
theorem test_decode_blt : decode ⟨8, 1, 2, 16⟩ = .ok (.blt .r1 .r2 16) := by decide
theorem test_decode_pop : decode ⟨9, 5, 77, 77⟩ = .ok (.pop .pc) := by decide
theorem test_decode_push : decode ⟨10, 6, 0, 0⟩ = .ok (.push .sp) := by decide
theorem test_decode_load : decode ⟨11, 2, 0, 0⟩ = .ok (.load .r2 .r0) := by decide
theorem test_decode_save : decode ⟨12, 1, 0, 9⟩ = .ok (.save .r1 .r0) := by decide
theorem test_decode_trap : decode ⟨15, 123, -5, 7⟩ = .ok .trap := by decide

/-- R104, R106: rejected by name; the first bad field is named. -/
theorem test_decode_rejects :
    decode ⟨13, 0, 0, 0⟩ = .error (.unrecognisedOpcode 13) ∧ decode ⟨4, 0, 1, 9⟩ = .error (.registerOutOfRange 3 9) ∧
      decode ⟨12, 9, -1, 0⟩ = .error (.registerOutOfRange 1 9) := by decide

/-- BLT R1,R2,16 byte by byte (log 3), and the bytes after it; fifteen bytes are no instruction. -/
theorem test_decodeBytes_blt :
    decodeBytes [8, 0, 0, 0, 1, 0, 0, 0, 2, 0, 0, 0, 16, 0, 0, 0, 7, 7] = .ok (.blt .r1 .r2 16, [7, 7]) ∧
      decodeBytes [8, 0, 0, 0, 1, 0, 0, 0, 2, 0, 0, 0, 16, 0, 0] = .error (.truncated 15) := by decide

/-- The table's numbering of bits: SET R3,-7, its opcode word in bits 31..0; a bit at `nbits` or above is dropped. -/
theorem test_decodeTableWord :
    decodeTableWord 128 (3 * 2 ^ 32 + (2 ^ 32 - 7) * 2 ^ 64) = some (.set .r3 (-7)) ∧
      decodeTableWord 64 (9 + 2 * 2 ^ 32 + 5 * 2 ^ 64) = some (.pop .r2) ∧ decodeTableWord 128 13 = none := by decide

/-- R110: an integer in a reg field assembles to itself (V-FLT-5's words); a register name in an imm or tgt field, a missing
field that is not ignored, a fourth field and an integer that is no word do not assemble. -/
theorem test_assemble : assemble ⟨.set, [.int 9, .int 1]⟩ = some ⟨0, 9, 1, 0⟩ ∧
    assemble ⟨.blt, [.name .lim, .name .pc, .int (-1)]⟩ = some ⟨8, 8, 5, -1⟩ ∧
    assemble ⟨.branch, [.name .r0]⟩ = none ∧ assemble ⟨.load, [.name .r0]⟩ = none ∧
    assemble ⟨.trap, [.int 0, .int 0, .int 0, .int 0]⟩ = none ∧ assemble ⟨.branch, [.int 2147483648]⟩ = none := by decide

/-! ### Small states -/

/-- The registers of 95's vectors as they stand after the pre-increment of an instruction at 20: window 0..199, empty
stack. -/
def x0 : Regs := { Regs.reset with pc := 24, sp := 199, lim := 199 }

/-- One started process 1001 with these registers and this memory, never saved; the load cursor stands behind its window. -/
def one (x : Regs) (m : Memory) : State :=
  { State.reset with started := true, regs := x, mem := m, procs := [PCB.new 0 1001], cur := some 0, nextPid := 1002,
                     nextRef := 1, loadCursor := 203 }

/-- Process 1001 with these words on its stack, top first, the last one at 198. -/
def stack (ws : List Word) : State :=
  one { x0 with sp := 199 - BitVec.ofNat 32 ws.length } (Memory.writeWords [] (199 - ws.length) ws)

/-- Process 1001 about to run the four words at 20. -/
def at20 (x : Regs) (t : Tuple) : State := (one { x with pc := 20 } []).placeAtPc t

/-- A PCB that was saved once, with these registers. -/
def saved (ref pid : Nat) (x : Regs) (avg : Rat) (block : Option BlockKey) : PCB :=
  { ref := ref, pid := pid, regs := some x, block := block, lastReady := 0, numReady := 1, maxStarve := 0, avgStarve := avg }

/-- What `f` reads off the next state. -/
def after {α : Type} (o : Host.Outcome State Fault Refusal) (f : State → α) : Option α :=
  match o with
  | .next t => some (f t)
  | _ => none

/-- There is a next state. -/
def isNext (o : Host.Outcome State Fault Refusal) : Bool :=
  match o with
  | .next _ => true
  | _ => false

theorem next_of_isNext {o : Host.Outcome State Fault Refusal} (h : isNext o = true) : ∃ t, o = .next t := by
  cases o with
  | next t => exact ⟨t, rfl⟩
  | fault f => exact absurd h Bool.false_ne_true
  | refused r => exact absurd h Bool.false_ne_true

/-- What `f` reads off the state in which a handler finishes. -/
def afterFlow {α : Type} (x : Flow Unit) (f : State → α) : Option α := after x.finish f

/-! ### ALU vectors -/

/-- V-ALU-1. -/
theorem test_set : after (step (at20 x0 ⟨0, 0, 5, 0⟩)) (fun t => (t.regs.r0, t.regs.pc, t.ticks)) = some (5, 24, 1) := by
  decide +kernel
/-- V-ALU-26: `SET PC,10` in the window 100..199; the next fetch fails at 10. -/
theorem test_set_pc : after (step (one { x0 with base := 100, pc := 10 } [])) (fun t => (t.regs.pc, t.halted)) =
    some (10, some (.illegalMemoryAccess 10)) := by decide +kernel
/-- V-ALU-5. -/
theorem test_add_wraps : after (exec (.add .r0 .r1 .r2) (one { x0 with r1 := 2147483647, r2 := 1 } []))
    (fun t => t.regs.r0) = some (-2147483648) := by decide +kernel
/-- V-ALU-7: the source is also the destination. -/
theorem test_add_self : after (exec (.add .r0 .r0 .r0) (one { x0 with r0 := 21 } [])) (fun t => t.regs.r0) = some 42 := by
  decide +kernel
/-- V-ALU-8. -/
theorem test_sub : after (exec (.sub .r0 .r1 .r2) (one { x0 with r1 := 3, r2 := 10 } [])) (fun t => t.regs.r0) =
    some (-7) := by decide +kernel
/-- V-ALU-10. -/
theorem test_sub_wraps : after (exec (.sub .r0 .r1 .r2) (one { x0 with r2 := -2147483648 } [])) (fun t => t.regs.r0) =
    some (-2147483648) := by decide +kernel
/-- V-ALU-11. -/
theorem test_mul_signed : after (exec (.mul .r0 .r1 .r2) (one { x0 with r1 := -6, r2 := 7 } [])) (fun t => t.regs.r0) =
    some (-42) := by decide +kernel
/-- V-ALU-13. -/
theorem test_mul_wraps : after (exec (.mul .r0 .r1 .r2) (one { x0 with r1 := 46341, r2 := 46341 } []))
    (fun t => t.regs.r0) = some (-2147479015) := by decide +kernel
/-- V-ALU-15 to V-ALU-17, V-ALU-19. -/
theorem test_div_truncates : ([(-7, 2), (7, -2), (-7, -2), (-2147483648, -1)] : List (Word × Word)).map (fun p =>
    after (exec (.div .r0 .r1 .r2) (one { x0 with r1 := p.1, r2 := p.2 } [])) (fun t => t.regs.r0)) =
    [some (-3), some (-3), some 3, some (-2147483648)] := by decide +kernel
/-- V-ALU-20, W5: by zero, through the whole step. -/
theorem test_div_by_zero : after (step (at20 { x0 with r1 := 9, r0 := 77 } ⟨4, 0, 1, 2⟩))
    (fun t => (t.regs.r0, t.regs.pc, t.halted, t.out)) =
    some (77, 24, some .divideByZero, [.diagnostic .divideByZero]) := by decide +kernel
/-- V-ALU-24: the pre-incremented PC is what a source reads. -/
theorem test_copy_pc : after (step (at20 x0 ⟨5, 4, 5, 0⟩)) (fun t => t.regs.r4) = some 24 := by decide +kernel

/-! ### Control vectors -/

/-- V-CTL-1. -/
theorem test_branch : after (exec (.branch 16) (one { x0 with base := 100, pc := 124 } [])) (fun t => t.regs.pc) =
    some 116 := by decide +kernel
/-- V-CTL-2. -/
theorem test_branch_out : after (exec (.branch 100) (one { x0 with base := 100, pc := 124 } []))
    (fun t => (t.regs.pc, t.halted)) = some (124, some (.illegalMemoryAccess 200)) := by decide +kernel
/-- V-CTL-6. -/
theorem test_bne_taken : after (exec (.bne .r1 .r2 40) (one { x0 with r1 := 1, r2 := 2 } [])) (fun t => t.regs.pc) =
    some 40 := by decide +kernel
/-- V-CTL-8. -/
theorem test_bne_not_taken : after (exec (.bne .r1 .r2 5000) (one { x0 with r1 := 2, r2 := 2 } []))
    (fun t => (t.regs.pc, t.halted)) = some (24, none) := by decide +kernel
/-- V-CTL-12. -/
theorem test_blt_signed : after (exec (.blt .r1 .r2 16) (one { x0 with r1 := -2147483648, r2 := 2147483647 } []))
    (fun t => t.regs.pc) = some 16 := by decide +kernel
/-- V-CTL-13. -/
theorem test_blt_equal : after (exec (.blt .r1 .r2 16) (one { x0 with r1 := 5, r2 := 5 } [])) (fun t => t.regs.pc) =
    some 24 := by decide +kernel

/-! ### Stack and memory vectors -/

/-- V-STK-5: the pushed SP is the old one. -/
theorem test_push_sp : after (exec (.push .sp) (one x0 [])) (fun t => (t.regs.sp, t.mem.readWord 198)) =
    some (198, 199) := by decide +kernel
/-- V-STK-9: the decrement is kept when the check fails. -/
theorem test_push_fails : after (exec (.push .r0) (one { x0 with sp := 250, r0 := 1 } []))
    (fun t => (t.regs.sp, t.halted, t.mem)) = some (249, some (.illegalMemoryAccess 249), []) := by decide +kernel
/-- V-STK-6: the popped value wins over the increment. -/
theorem test_pop_sp : after (exec (.pop .sp) (stack [150])) (fun t => t.regs.sp) = some 150 := by decide +kernel
/-- V-STK-3: clamped at LIM. -/
theorem test_pop_clamped : after (exec (.pop .r2) (one x0 (Memory.writeWord [] 199 8))) (fun t => (t.regs.r2, t.regs.sp)) =
    some (8, 199) := by decide +kernel
/-- V-STK-13: LIM itself is inside. -/
theorem test_load_at_lim : after (exec (.load .r2 .r0) (one { x0 with base := 100, r0 := 99 } (Memory.writeWord [] 199 6)))
    (fun t => t.regs.r2) = some 6 := by decide +kernel
/-- V-STK-18: inside the window, outside memory. -/
theorem test_load_outside_memory : after (exec (.load .r2 .r0) (one { x0 with lim := 5000, r0 := 2000 } []))
    (fun t => t.halted) = some (some (.illegalMemoryAccess 2000)) := by decide +kernel
/-- V-STK-11. -/
theorem test_save : after (exec (.save .r1 .r0) (one { x0 with r0 := 100, r1 := -7 } []))
    (fun t => t.mem.readWord 100) = some (-7) := by decide +kernel
/-- V-STK-15. -/
theorem test_save_below_base : after (exec (.save .r1 .r0) (one { x0 with base := 100, r0 := -1 } []))
    (fun t => (t.halted, t.mem)) = some (some (.illegalMemoryAccess 99), []) := by decide +kernel

/-! ### System call vectors -/

/-- V-SYS-1. -/
theorem test_output : after (exec .trap (stack [1, 7])) (fun t => (t.out, t.regs.sp)) = some ([.output 7], 199) := by
  decide +kernel
/-- V-SYS-3. -/
theorem test_getpid : after (exec .trap (stack [2])) (fun t => (t.regs.sp, t.mem.readWord 198)) = some (198, 1001) := by
  decide +kernel
/-- V-SYS-8. -/
theorem test_coredump : after (exec .trap (stack [9, 4, 5, 6])) (fun t => (t.out, t.regs.sp, t.procs)) =
    some ([.coreDump { x0 with sp := 196 } 4 5 6, .diagnostic .noProcesses], 199, []) := by decide +kernel

/-- The registered program of V-SYS-10: 36 words, none of them looked at by the test. -/
def q36 : Program := { words := List.replicate 36 1, defaultAlloc := 0, execCount := 0 }

/-- The start of V-SYS-10, after the tick of the step. -/
def execStart : State := { stack [7] with progs := [q36], ticks := 51, draws := [0, 1, 2, 3, 4, 5] }

/-- V-SYS-10: the new window, the cursor, the ids and the ticks. -/
theorem test_exec : after (exec .trap execStart) (fun t =>
    [t.regs.base.toNat, t.regs.lim.toNat, t.regs.sp.toNat, t.regs.pc.toNat, t.loadCursor, t.nextPid, t.ticks]) =
    some [203, 274, 274, 203, 278, 1003, 81] := by decide +kernel
/-- V-SYS-11: no space; the count is raised, the caller is not saved. -/
theorem test_exec_no_space : after (exec .trap { execStart with cfg := { Config.Params.defaults with memSize := 250 } })
    (fun t => (t.halted, t.progs.map (fun P => P.execCount), t.procs.map (fun p => p.numReady))) =
    some (some .noSpace, [1], [0]) := by decide +kernel

/-! ### Scheduler vectors -/

/-- X Ready beside a current Y of average 10, at tick 1000. -/
def twoReady (avgX : Rat) : State :=
  { one x0 [] with
    ticks := 1000
    procs := [{ PCB.new 0 1001 with avgStarve := 10 },
      { saved 1 1002 { x0 with r0 := 9 } avgX none with lastReady := 900, numReady := 2, maxStarve := 211 }]
    nextPid := 1003
    nextRef := 2 }

/-- V-SCH-1 and V-SCH-3: no switch, no cost. -/
theorem test_schedule_stays : afterFlow (schedule (twoReady 205)) id = some (twoReady 205) ∧
    afterFlow (schedule (twoReady 210)) id = some (twoReady 210) := by decide +kernel
/-- V-SCH-2. -/
theorem test_schedule_switches : afterFlow (deliver .clock (twoReady 211)) (fun t => (t.ticks, t.cur, t.procs)) =
    some (1060, some 1, [{ saved 0 1001 x0 10 none with lastReady := 1030 },
      { saved 1 1002 { x0 with r0 := 9 } (371 / 2) none with lastReady := 900, numReady := 2, maxStarve := 211 }]) := by decide +kernel
/-- V-SCH-4: a tie with no current process: the first in table order. -/
theorem test_schedule_tie : afterFlow (schedule { one x0 [] with
      cur := none, procs := [saved 1 1002 x0 5 none, saved 2 1003 x0 5 none] }) (fun t => (t.cur, t.ticks)) =
    some (some 1, 30) := by decide +kernel
/-- V-SCH-10, V-SCH-11: the default allocation. -/
theorem test_allocSize : ({ words := List.replicate 10 0, defaultAlloc := 0, execCount := 0 } : Program).allocSize = 20 ∧
    ({ words := List.replicate 10 0, defaultAlloc := -5, execCount := 0 } : Program).allocSize = 20 := by decide
/-- V-SCH-12 to V-SCH-14. -/
theorem test_fits : State.reset.fits { words := List.replicate 30 0, defaultAlloc := 20, execCount := 0 } 20 = false ∧
    ({ State.reset with loadCursor := 1000 }).fits idleProgram 24 = true ∧
    ({ State.reset with loadCursor := 1001 }).fits idleProgram 24 = false := by decide

/-! ### Device vectors -/

/-- The devices 1, 2 and 3 of the vectors, with these open sets. -/
def devs (o1 o2 o3 : List Nat) : List DeviceInfo :=
  [⟨1, ⟨false, true, true⟩, o1⟩, ⟨2, ⟨true, true, true⟩, o2⟩, ⟨3, ⟨true, false, false⟩, o3⟩]

/-- V-DEV-3: blocked, and the idle process takes over (V-SCH-6's window, at this cursor). -/
theorem test_open_blocks : after (exec .trap { stack [3, 1] with devs := devs [1002] [] [] }) (fun t =>
    (t.procs.map (fun p => (p.pid, p.block)), t.devs.map (fun d => d.openSet), t.mem.readWord 198, t.regs.base)) =
    some ([(1001, some ⟨1, .opening, 0⟩), (999, none)], [[1002, 1001], [], []], 0, 203) := by decide +kernel
/-- V-DEV-4 and V-DEV-5. -/
theorem test_open_errors : after (exec .trap { stack [3, 1] with devs := devs [1001] [] [] }) (fun t => t.top) = some (-1) ∧
    after (exec .trap { stack [3, 77] with devs := devs [] [] [] }) (fun t => t.top) = some (-1) := by decide +kernel

/-- W7: A holds device 4, B and C are blocked opening it. -/
def w7 : State :=
  { stack [4, 4] with
    procs := [PCB.new 0 1001, saved 1 1002 x0 0 (some ⟨4, .opening, 0⟩), saved 2 1003 x0 0 (some ⟨4, .opening, 0⟩)]
    devs := [⟨4, ⟨false, true, true⟩, [1001, 1002, 1003]⟩]
    nextPid := 1004
    nextRef := 3 }

/-- W7: exactly one opener is woken. -/
theorem test_close_wakes_one : after (exec .trap w7) (fun t =>
    (t.procs.map (fun p => p.block), t.devs.map (fun d => d.openSet), t.cur, t.top)) =
    some ([none, none, some ⟨4, .opening, 0⟩], [[1002, 1003]], some 0, 0) := by decide +kernel
/-- V-DEV-7. -/
theorem test_read_error : after (exec .trap { stack [5, 3, 40] with devs := devs [] [] [1001] }) (fun t =>
    (t.regs.sp, t.mem.readWord 198)) = some (198, -3) := by decide +kernel
/-- V-DEV-8. -/
theorem test_read_issues : after (exec .trap { stack [5, 2, 40] with devs := devs [] [1001] [], answers := [true] })
    (fun t => (t.out, t.procs.map (fun p => p.block))) =
    some ([.devRead 2 40], [some ⟨2, .reading, 40⟩, none]) := by decide +kernel
/-- V-DEV-12: the retry, with PC back at the TRAP. -/
theorem test_write_retries : after (exec .trap { stack [6, 2, 40, 99] with devs := devs [] [1001] [], answers := [false] })
    (fun t => (t.regs.pc, t.regs.sp, [195, 196, 197, 198].map t.mem.readWord, t.ticks)) =
    some (20, 195, [6, 2, 40, 99], 0) := by decide +kernel

/-- V-DEV-13: W blocked reading device 2 at 40, its window 0..167; O, in the window 200..399, current. -/
def readWaits : State :=
  { one { x0 with base := 200, lim := 399, sp := 399, pc := 224 } [] with
    procs := [PCB.new 0 1001, saved 1 1002 { x0 with sp := 167, lim := 167 } 0 (some ⟨2, .reading, 40⟩)]
    devs := devs [] [1002] []
    loadCursor := 403
    nextPid := 1003
    nextRef := 2 }

/-- V-DEV-13. -/
theorem test_read_completion : afterFlow (deliver (.readComplete 2 40 42) readWaits) (fun t =>
    (t.procs, t.mem.readWord 166, t.mem.readWord 165, t.ticks)) =
    some ([PCB.new 0 1001, saved 1 1002 { x0 with sp := 165, lim := 167 } 0 none], 42, 0, 0) := by decide +kernel
/-- V-DEV-15: no effect. -/
theorem test_read_completion_unmatched : afterFlow (deliver (.readComplete 2 41 5) readWaits) id = some readWaits := by
  decide +kernel

/-- V-DEV-16: W blocked writing device 2 at 40, O current, tick 500. -/
def writeWaits : State :=
  { one { x0 with lim := 167, sp := 167 } [] with
    ticks := 500
    procs := [PCB.new 0 1001, { saved 1 1002 { x0 with sp := 200, base := 180, lim := 250 } 0 (some ⟨2, .writing, 40⟩) with
      lastReady := 400 }]
    devs := devs [] [1002] []
    loadCursor := 254
    nextPid := 1003
    nextRef := 2 }

/-- V-DEV-16. -/
theorem test_write_completion : afterFlow (deliver (.writeComplete 2 40) writeWaits) (fun t =>
    (t.ticks, t.mem.readWord 199, t.procs)) =
    some (620, 0, [{ saved 0 1001 { x0 with lim := 167, sp := 167 } 90 none with lastReady := 530, maxStarve := 90 },
      { saved 1 1002 { x0 with sp := 199, base := 180, lim := 250 } 160 none with
        lastReady := 590, numReady := 2, maxStarve := 160 }]) := by decide +kernel

/-! ### Fault vectors and reset -/

/-- V-FLT-1: all four words are recorded, and PC is advanced. -/
theorem test_illegal_instruction : after (step (at20 x0 ⟨13, 0, 0, 0⟩)) (fun t => (t.regs.pc, t.halted)) =
    some (24, some (.illegalInstruction ⟨13, 0, 0, 0⟩)) := by decide +kernel
/-- V-FLT-10. -/
theorem test_fetch_fault : after (step (one { x0 with pc := 197 } [])) (fun t => (t.regs.pc, t.halted)) =
    some (197, some (.illegalMemoryAccess 200)) := by decide +kernel
/-- R360: reset memory is canonical and lists nothing. -/
theorem test_reset_memory : State.reset.mem.wf = true ∧ State.reset.mem = [] := by decide
/-- R363: reset has no process, so its first step halts with NoProcesses. -/
theorem test_reset_starts_and_ends : after (step State.reset) (fun t => (t.started, t.halted)) =
    some (true, some .noProcesses) := by decide +kernel
/-- Log 8: an instruction placed in the reset state is the one the next step runs (SET R3,-7). -/
theorem test_withFetchWord_runs :
    after (step (State.reset.withFetchWord 128 (3 * 2 ^ 32 + (2 ^ 32 - 7) * 2 ^ 64))) (fun t => (t.regs.r3, t.regs.pc)) =
    some (-7, 4) := by decide +kernel

/-! ### Witnesses: a state for the hypotheses of every statement -/

/-- What the invariant asks, as one Boolean. -/
def invChecks (s : State) : Bool :=
  s.mem.wf && s.mem.within s.cfg.memSize && decide (s.procs.map fun p => p.ref).Nodup &&
    s.procs.all (fun p => decide (p.ref < s.nextRef)) &&
    decide ((s.procs.map fun p => p.pid).filter fun i => decide (i ≠ s.cfg.idlePid)).Nodup &&
    s.procs.all (fun p => decide (p.pid = s.cfg.idlePid ∨ (Config.firstPid ≤ p.pid ∧ p.pid < s.nextPid))) &&
    decide (Config.firstPid ≤ s.nextPid) && s.devs.all (fun d => decide d.openSet.Nodup) &&
    s.procs.all (fun p => decide (s.cur = some p.ref) || (p.regs.isSome && decide (p.numReady ≠ 0))) &&
    s.procs.any (fun p => decide (s.cur = some p.ref)) &&
    s.procs.all (fun p => !decide (s.cur = some p.ref) || decide (p.pid = s.cfg.idlePid) || p.block.isNone)

theorem inv_of_checks {s : State} (h : invChecks s = true) : s.Inv := by
  simp only [invChecks, Bool.and_eq_true, List.all_eq_true, decide_eq_true_eq, Bool.or_eq_true, List.any_eq_true,
    Bool.not_eq_true', decide_eq_false_iff_not, Option.isNone_iff_eq_none] at h
  obtain ⟨⟨⟨⟨⟨⟨⟨⟨⟨⟨h1, h2⟩, h3⟩, h4⟩, h5⟩, h6⟩, h7⟩, h8⟩, h9⟩, ⟨c, hc, hcr⟩⟩, h11⟩ := h
  refine ⟨h1, h2, h3, h4, h5, h6, h7, h8, fun p hp hn => (h9 p hp).resolve_left hn, fun _ _ => by simp [hcr],
    fun _ hn => by simp [hcr] at hn, fun _ r hr => ⟨c, hc, by simpa [hcr] using hr⟩, fun _ p hp hcp hi => ?_⟩
  rcases h11 p hp with (h | h) | h
  · exact absurd hcp h
  · exact absurd h hi
  · exact h

theorem forall_ready {s : State} {P : PCB → Prop} (h : ∀ p ∈ s.procs, P p) : ∀ p, s.Ready p → P p :=
  fun p hp => h p hp.1

theorem none_ready {s : State} (h : ∀ p ∈ s.procs, ¬(p.block = none ∧ p.pid ≠ s.cfg.idlePid)) : ∀ p, ¬ s.Ready p :=
  fun p hp => h p hp.1 hp.2

/-- The engine's turn, as one Boolean. -/
def engineChecks (s : State) : Bool :=
  s.halted.isNone && s.cfg.ok && s.started &&
    match s.schedule with
    | .interrupt _ :: _ => false
    | _ => true

theorem turn_of_checks {s : State} (h : engineChecks s = true) : s.EngineTurn := by
  simp only [engineChecks, Bool.and_eq_true, Option.isNone_iff_eq_none] at h
  refine ⟨h.1.1.1, h.1.1.2, h.1.2, fun i turns hs => ?_⟩
  have h2 := h.2
  rw [hs] at h2
  exact Bool.false_ne_true h2

theorem witness_IgnoredWordsHaveNoEffect :
    (⟨15, 1, 2, 3⟩ : Tuple).clearIgnored = (⟨15, 0, 0, 0⟩ : Tuple).clearIgnored ∧
      decode ⟨9, 2, 7, 7⟩ = .ok (.pop .r2) := by decide

/-- The last place an instruction of the window can stand. -/
theorem witness_StepRunsTheDecodedInstruction :
    let s := { (one { x0 with pc := 196 } []).placeAtPc ⟨8, 1, 2, 16⟩ with schedule := [.engine, .interrupt .clock] }
    s.EngineTurn ∧ (∀ n : Nat, n < 4 → s.allows (wrap (signed s.regs.pc + n)) = true) ∧
      decode ⟨s.mem.readWord s.regs.pc.toNat, s.mem.readWord (s.regs.pc.toNat + 1), s.mem.readWord (s.regs.pc.toNat + 2),
        s.mem.readWord (s.regs.pc.toNat + 3)⟩ = .ok (.blt .r1 .r2 16) :=
  ⟨turn_of_checks (by decide +kernel), by decide +kernel, by decide +kernel⟩

/-- The first and the last word failing: PC one below BASE, and PC three below the end of the window. -/
theorem witness_FetchFaultReportsTheFirstFailingWord :
    (let s := one { x0 with base := 100, pc := 99 } []
     s.EngineTurn ∧ s.allows (wrap (signed s.regs.pc + (0 : Nat))) = false) ∧
    (let s := one { x0 with pc := 197 } []
     s.EngineTurn ∧ (∀ m : Nat, m < 3 → s.allows (wrap (signed s.regs.pc + m)) = true) ∧
      s.allows (wrap (signed s.regs.pc + (3 : Nat))) = false) :=
  ⟨⟨turn_of_checks (by decide +kernel), by decide +kernel⟩,
    ⟨turn_of_checks (by decide +kernel), by decide +kernel, by decide +kernel⟩⟩

theorem witness_IllegalTupleHaltsWithItsFourWords :
    let s := at20 x0 ⟨4, 0, 1, 9⟩
    s.EngineTurn ∧ (∀ n : Nat, n < 4 → s.allows (wrap (signed s.regs.pc + n)) = true) ∧
      (⟨4, 0, 1, 9⟩ : Tuple) = ⟨s.mem.readWord s.regs.pc.toNat, s.mem.readWord (s.regs.pc.toNat + 1),
        s.mem.readWord (s.regs.pc.toNat + 2), s.mem.readWord (s.regs.pc.toNat + 3)⟩ ∧
      (⟨4, 0, 1, 9⟩ : Tuple).legal = false :=
  ⟨turn_of_checks (by decide +kernel), by decide +kernel, by decide +kernel, by decide⟩

theorem witness_HaltedMachineTakesNoStep :
    ({ State.reset with halted := some .noProcesses }).halted = some .noProcesses := by decide

/-- For the clauses on illegal fields of SetWritesItsImmediate, AddWritesTheWrappedSum, SubWritesTheWrappedDifference,
MulWritesTheWrappedProduct, DivWritesTheQuotientOrHalts, CopyWritesItsSource and the statements of BNE, BLT, PUSH, POP,
LOAD and SAVE: a field outside 0..8, on both sides. -/
theorem witness_illegal_fields :
    regField 9 = false ∧ regField (-1) = false ∧ ¬(regField 9 = true ∧ regField 0 = true) ∧
      ¬(regField 0 = true ∧ regField 9 = true) ∧ ¬(regField 0 = true ∧ regField 8 = true ∧ regField (-1) = true) := by
  decide

/-- DIV by zero, DIV by something else, and the one quotient that does not fit (also DivQuotientAtEverySignCombination). -/
theorem witness_DivWritesTheQuotientOrHalts :
    (one x0 []).reg .r2 = 0 ∧ (one { x0 with r2 := -1, r1 := -2147483648 } []).reg .r2 ≠ 0 := by decide

/-- BASE and LIM are inside; one below, one above, and a place of the window outside memory are not. -/
theorem witness_CheckIsTheWindowAndMemoryTest :
    let s := one { x0 with base := 100, lim := 5000 } []
    let ok (a : Word) : Prop := signed s.regs.base ≤ signed a ∧ signed a ≤ signed s.regs.lim ∧ 0 ≤ signed a ∧
      signed a < s.cfg.memSize
    ok 100 ∧ ok 1023 ∧ ¬ ok 99 ∧ ¬ ok 1024 ∧ ¬ ok 5001 := by decide

/-- A target that passes, one that does not, in the window 100..199. -/
theorem witness_BranchGoesToItsCheckedTarget :
    let s := one { x0 with base := 100, r1 := -1, r2 := 0 } []
    (199 : Word) = wrap (signed s.regs.base + signed (99 : Word)) ∧ s.allows 199 = true ∧
      (200 : Word) = wrap (signed s.regs.base + signed (100 : Word)) ∧ s.allows 200 = false := by decide

theorem witness_BneBranchesWhenTheWordsDiffer :
    let s := one { x0 with base := 100, r1 := 1, r2 := 2, r3 := 2 } []
    s.reg .r2 = s.reg .r3 ∧ s.reg .r1 ≠ s.reg .r2 ∧
      (99 : Word) = wrap (signed s.regs.base + signed (-1 : Word)) ∧ s.allows 99 = false ∧
      (100 : Word) = wrap (signed s.regs.base + signed (0 : Word)) ∧ s.allows 100 = true := by decide

theorem witness_BltBranchesWhenSignedLess :
    let s := one { x0 with base := 100, r1 := -1 } []
    signed (s.reg .r1) < signed (s.reg .r2) ∧ ¬ signed (s.reg .r2) < signed (s.reg .r1) ∧
      ¬ signed (s.reg .r2) < signed (s.reg .r3) ∧ (99 : Word) = wrap (signed s.regs.base + signed (-1 : Word)) ∧
      s.allows 99 = false ∧ (100 : Word) = wrap (signed s.regs.base + signed (0 : Word)) ∧ s.allows 100 = true := by decide

/-- PUSH at LIM, at BASE (clamped), and where the check fails. -/
theorem witness_PushStoresAtTheClampedStackPointer :
    let s := one x0 []
    let s0 := one { x0 with sp := 0 } []
    let s1 := one { x0 with sp := 201 } []
    ((198 : Word) = (if signed s.regs.base < signed s.regs.sp then s.regs.sp - 1 else s.regs.sp) ∧ s.allows 198 = true ∧
      s.mem.wf = true) ∧
    ((0 : Word) = (if signed s0.regs.base < signed s0.regs.sp then s0.regs.sp - 1 else s0.regs.sp) ∧ s0.allows 0 = true) ∧
    ((200 : Word) = (if signed s1.regs.base < signed s1.regs.sp then s1.regs.sp - 1 else s1.regs.sp) ∧
      s1.allows 200 = false) := by decide

theorem witness_PopReadsThenRaisesTheStackPointer :
    (one x0 []).allows (one x0 []).regs.sp = true ∧
      (one { x0 with sp := 200 } []).allows (one { x0 with sp := 200 } []).regs.sp = false := by decide

/-- LOAD, and SaveWritesTheCheckedWord: the last word of the window, and the one behind it. -/
theorem witness_LoadReadsTheCheckedWord :
    let s := one { x0 with base := 100, r0 := 99, r1 := 100 } []
    ((199 : Word) = wrap (signed s.regs.base + signed (s.reg .r0)) ∧ s.allows 199 = true ∧ s.mem.wf = true) ∧
      (200 : Word) = wrap (signed s.regs.base + signed (s.reg .r1)) ∧ s.allows 200 = false := by decide

/-- The current PCB; another one with room; another one whose check fails. -/
theorem witness_PcbPushUsesTheSavedRegisters :
    (readWaits.findPcb 0 = some (PCB.new 0 1001) ∧ readWaits.cur = some 0) ∧
    (let x : Regs := { x0 with sp := 167, lim := 167 }
     let p := saved 1 1002 x 0 (some ⟨2, .reading, 40⟩)
     readWaits.findPcb p.ref = some p ∧ readWaits.cur ≠ some p.ref ∧ p.regs = some x ∧
      (166 : Word) = (if signed x.base < signed x.sp then x.sp - 1 else x.sp) ∧
      (signed x.base ≤ signed (166 : Word) ∧ signed (166 : Word) ≤ signed x.lim ∧ 0 ≤ signed (166 : Word) ∧
        signed (166 : Word) < readWaits.cfg.memSize) ∧ readWaits.mem.wf = true) ∧
    (let x : Regs := { x0 with sp := 201 }
     let p := saved 1 1002 x 0 none
     let s := { readWaits with procs := [PCB.new 0 1001, p] }
     s.findPcb p.ref = some p ∧ s.cur ≠ some p.ref ∧ p.regs = some x ∧
      (200 : Word) = (if signed x.base < signed x.sp then x.sp - 1 else x.sp) ∧
      ¬(signed x.base ≤ signed (200 : Word) ∧ signed (200 : Word) ≤ signed x.lim ∧ 0 ≤ signed (200 : Word) ∧
        signed (200 : Word) < s.cfg.memSize)) := by decide +kernel

/-- A push and a pop that finish inside the window; SP above BASE; SP at BASE. -/
theorem witness_StackPointerStaysInTheWindow :
    (let s := one x0 []
     (push 7 s = .go () (s.pushed 7) ∧ pop s = .go 0 s.popped ∧ s.mem.wf = true) ∧
      signed s.regs.base < signed s.regs.sp ∧ signed s.regs.sp ≤ signed s.regs.lim ∧ 0 ≤ signed s.regs.base ∧
      signed s.regs.lim < s.cfg.memSize) ∧
    (let s := one { x0 with sp := 0 } []
     s.mem.wf = true ∧ s.regs.sp = s.regs.base ∧ signed s.regs.base < signed s.regs.lim ∧ 0 ≤ signed s.regs.base ∧
      signed s.regs.lim < s.cfg.memSize) :=
  ⟨⟨⟨rfl, rfl, by decide⟩, by decide⟩, by decide⟩

theorem witness_StoredWordIsReadBack :
    let s := one { x0 with r0 := 100, r1 := 199 } []
    s.mem.wf = true ∧ s.allows (s.physical (s.reg .r0)) = true ∧ s.allows (s.physical (s.reg .r1)) = true ∧
      Memory.wf (Memory.writeWord [] 7 5) = true := by decide

/-- Each of the eleven instructions answers a next state here, DIV also where it halts. -/
theorem witness_NonStoringInstructionsFrame :
    ∀ i ∈ [Instr.set .r0 5, .add .r0 .r1 .r2, .sub .r0 .r1 .r2, .mul .r0 .r1 .r2, .div .r0 .r1 .r2, .copy .r0 .r1, .branch 0,
      .bne .r0 .r1 0, .blt .r0 .r1 0, .pop .r1, .load .r0 .r1], ∃ t, exec i (one x0 []) = .next t := by
  intro i hi
  have h : isNext (exec i (one x0 [])) = true := by
    revert i
    decide +kernel
  exact next_of_isNext h

theorem witness_StoringInstructionsFrame :
    (∃ t, exec (.push .r0) (one x0 []) = .next t) ∧ ∃ t, exec (.save .r0 .r1) (one x0 []) = .next t :=
  ⟨next_of_isNext (by decide +kernel), next_of_isNext (by decide +kernel)⟩

/-- SAVE changes a byte. -/
theorem witness_NoInstructionWritesOutsideItsWindow :
    let s := one { x0 with r0 := 100, r1 := 7 } []
    (Instr.save .r1 .r0) ≠ .trap ∧ ∃ t, exec (.save .r1 .r0) s = .next t ∧ t.mem.readByte 400 ≠ s.mem.readByte 400 :=
  ⟨by decide, _, rfl, by decide +kernel⟩

/-- An instruction step, a boot step and an interrupt step, each with a next state (DiagnosticExactlyAtTheHalt,
TicksCountStepsAndSwitches, IdsAndCursorOnlyGrow); a step that halts. -/
theorem witness_steps :
    (let s := at20 x0 ⟨0, 0, 5, 0⟩
     s.EngineTurn ∧ ∃ t, step s = .next t) ∧
    (¬ State.reset.EngineTurn ∧ ∃ t, step State.reset = .next t) ∧
    (let s := { twoReady 211 with schedule := [.interrupt .clock] }
     ¬ s.EngineTurn ∧ ∃ t, step s = .next t) ∧
    ∃ t, step (at20 x0 ⟨13, 0, 0, 0⟩) = .next t ∧ t.halted ≠ none :=
  ⟨⟨turn_of_checks (by decide +kernel), next_of_isNext (by decide +kernel)⟩,
    ⟨fun h => absurd h.2.2.1 (by decide), next_of_isNext (by decide +kernel)⟩,
    ⟨fun h => h.2.2.2 _ _ rfl, next_of_isNext (by decide +kernel)⟩, _, rfl, by decide +kernel⟩

theorem witness_EveryStepKeepsTheInvariant :
    (at20 x0 ⟨0, 0, 5, 0⟩).Inv ∧ (∃ t, step (at20 x0 ⟨0, 0, 5, 0⟩) = .next t) ∧ readWaits.Inv ∧
      ∃ t, step { readWaits with schedule := [.interrupt (.readComplete 2 40 42)] } = .next t :=
  ⟨inv_of_checks (by decide +kernel), next_of_isNext (by decide +kernel), inv_of_checks (by decide +kernel),
    next_of_isNext (by decide +kernel)⟩

theorem witness_RunningMachineAlwaysSteps :
    let s := at20 x0 ⟨0, 0, 5, 0⟩
    s.Inv ∧ s.halted = none ∧ s.cfg.ok = true ∧ s.nextPid ≠ s.cfg.idlePid :=
  ⟨inv_of_checks (by decide +kernel), by decide, by decide, by decide⟩

/-! ### Witnesses: system calls -/

/-- SP outside; the numbers 10 and -1, on both sides of 0..9. -/
theorem witness_TrapPopsItsNumberOrHalts :
    (one { x0 with sp := 200 } []).allows (one { x0 with sp := 200 } []).regs.sp = false ∧
      ((stack [10]).canPop ∧ ¬(0 ≤ signed (stack [10]).top ∧ signed (stack [10]).top ≤ 9)) ∧
      (stack [-1]).canPop ∧ ¬(0 ≤ signed (stack [-1]).top ∧ signed (stack [-1]).top ≤ 9) := by
  simp only [State.canPop]
  decide +kernel

/-- The value pops; and a machine whose window reaches one word past memory, so that only the first pop passes. -/
theorem witness_OutputEmitsThePoppedWord :
    ((stack [1, 7]).canPop ∧ (stack [1, 7]).top = 1 ∧ (stack [1, 7]).popped.canPop) ∧
    (let s := one { x0 with lim := 1024, sp := 1023 } (Memory.writeWord [] 1023 1)
     s.canPop ∧ s.top = 1 ∧ ¬ s.popped.canPop) := by
  simp only [State.canPop]
  decide +kernel

/-- The id is pushed; and a window -5..0, where the pushed word would lie at -1. -/
theorem witness_GetpidPushesTheProcessId :
    ((stack [2]).canPop ∧ (stack [2]).top = 2 ∧ (stack [2]).curPcb = some (PCB.new 0 1001) ∧ (stack [2]).popped.canPush ∧
      (stack [2]).mem.wf = true ∧ (PCB.new 0 1001).pid < 2147483648) ∧
    (let s := one { x0 with base := -5, lim := 0, sp := 0 } (Memory.writeWord [] 0 2)
     s.canPop ∧ s.top = 2 ∧ s.curPcb = some (PCB.new 0 1001) ∧ ¬ s.popped.canPush) := by
  simp only [State.canPop, State.canPush]
  decide +kernel

/-- Process 1001 exits: alone, with the other process blocked, and with two others ready. -/
theorem witness_ExitRunsTheMostStarvedProcessOrEndsTheRun :
    ((stack [0]).canPop ∧ (stack [0]).top = 0 ∧ (stack [0]).curPcb = some (PCB.new 0 1001) ∧
      (stack [0]).procs = [PCB.new 0 1001]) ∧
    (let s := { stack [0] with procs := [PCB.new 0 1001, saved 1 1002 x0 5 (some ⟨2, .reading, 40⟩)] }
     s.canPop ∧ s.top = 0 ∧ s.curPcb = some (PCB.new 0 1001)) ∧
    (let s := { stack [0] with procs := [PCB.new 0 1001, saved 1 1002 x0 5 none, saved 2 1003 x0 9 none]
                               nextPid := 1004, nextRef := 3 }
     s.Inv ∧ s.halted = none ∧ s.canPop ∧ s.top = 0 ∧ s.curPcb = some (PCB.new 0 1001) ∧ s.Ready (saved 2 1003 x0 9 none) ∧
      (saved 2 1003 x0 9 none).ref ≠ (PCB.new 0 1001).ref) := by
  refine ⟨?_, ?_, inv_of_checks (by decide +kernel), ?_⟩ <;> simp only [State.canPop, State.Ready] <;> decide +kernel

/-- A tie with the bonus (V-SCH-3), where the other process does not beat the caller; and one where it does (V-SCH-2). -/
theorem witness_YieldWithoutAMoreStarvedProcessContinues :
    let c : PCB := { PCB.new 0 1001 with avgStarve := 10 }
    let s (avg : Rat) := { stack [8] with procs := [c, saved 1 1002 x0 avg none], nextPid := 1003, nextRef := 2 }
    ((s 210).canPop ∧ (s 210).top = 8 ∧ (s 210).curPcb = some c ∧ (s 210).Ready c ∧
      ∀ q, (s 210).Ready q → q.avgStarve ≤ c.avgStarve + 200) ∧
    (s 211).canPop ∧ (s 211).top = 8 := by
  refine ⟨⟨?_, ?_, ?_, ?_, forall_ready ?_⟩, ?_⟩ <;> (try simp only [State.canPop, State.Ready]) <;> decide +kernel

/-- R220: a YIELD of a process that another beats by more than the bonus switches to it, with PC after the TRAP saved. -/
theorem test_yield_switches : after (exec .trap { stack [8] with
      procs := [{ PCB.new 0 1001 with avgStarve := 10 }, saved 1 1002 { x0 with pc := 60 } 211 none] }) (fun t =>
    (t.cur, t.regs.pc, t.ticks)) = some (some 1, 60, 60) := by decide +kernel

/-- Alone, and with another process in the table. -/
theorem witness_CoredumpEmitsRegistersAndThreeWords :
    ∀ others ∈ [[], [saved 1 1002 x0 5 none]],
      let s := { stack [9, 4, 5, 6] with procs := PCB.new 0 1001 :: others }
      s.canPop ∧ s.top = 9 ∧ s.curPcb = some (PCB.new 0 1001) ∧ (others = [] → s.procs = [PCB.new 0 1001]) ∧
        s.popped.canPop ∧ s.popped.popped.canPop ∧ s.popped.popped.popped.canPop := by
  simp only [State.canPop]
  decide +kernel

/-- No program; three programs, of which the second and the third are least used (V-SYS-12). -/
theorem witness_ExecLoadsAnyLeastUsedProgram :
    ((stack [7]).canPop ∧ (stack [7]).top = 7 ∧ (stack [7]).progs = []) ∧
    (let s := { stack [7] with progs := [{ q36 with execCount := 1 }, q36, { q36 with defaultAlloc := 40 }] }
     (s.Inv ∧ s.halted = none ∧ s.cfg.ok = true ∧ s.canPop ∧ s.top = 7 ∧ s.curPcb = some (PCB.new 0 1001)) ∧
      s.progs ≠ [] ∧ s.nextPid ≠ s.cfg.idlePid ∧ (∀ P ∈ s.progs, s.fits P P.allocSize = true) ∧
      s.progs[2]? = some { q36 with defaultAlloc := 40 } ∧
      ∀ Q ∈ s.progs, ({ q36 with defaultAlloc := 40 } : Program).execCount ≤ Q.execCount) := by
  refine ⟨?_, ⟨inv_of_checks (by decide +kernel), ?_⟩, ?_⟩ <;> (try simp only [State.canPop]) <;> decide +kernel

/-- An allocation of 0, a program longer than its allocation (V-SCH-12), one word too many (V-SCH-14); the last one that
fits (V-SCH-13), with a current process and without. -/
theorem witness_CreateProcessLaysOutTheWindow :
    let s := { one x0 [] with loadCursor := 1000, draws := [1, 2, 3, 4, 5] }
    let fit (P : Program) (n : Nat) : Prop := 1 ≤ n ∧ P.words.length ≤ n ∧ s.loadCursor + n ≤ s.cfg.memSize
    ¬ fit { idleProgram with words := [] } 0 ∧ ¬ fit idleProgram 3 ∧ ¬ fit idleProgram 25 ∧ fit idleProgram 24 ∧
      fit idleProgram 4 ∧ s.cfg.ok = true ∧ s.mem.wf = true ∧ s.draws = [1, 2, 3, 4, 5] := by decide

/-! ### Witnesses: context switch and scheduler -/

theorem witness_SaveThenRestoreGivesTheRegistersBack : (one x0 []).curPcb = some (PCB.new 0 1001) := by decide +kernel

/-- W8. -/
theorem witness_AverageStarveIsTheExactMean :
    let p := [31, 32, 36].foldl (fun q n => (q.makeReady x0 0).addStarve n) (PCB.new 0 1001)
    [31, 32, 36] ≠ [] ∧ p.avgStarve = 33 ∧ p.maxStarve = 36 := by decide +kernel

/-- A tie that includes the current process (V-SCH-3), and one that does not (V-SCH-4). -/
theorem witness_SelectPicksTheMostStarved :
    (twoReady 210).procs ≠ [] ∧ ((twoReady 210).select (twoReady 210).procs).map (fun b : PCB => b.ref) = some 0 ∧
      ((twoReady 211).select (twoReady 211).procs).map (fun b : PCB => b.ref) = some 1 ∧
      (({ one x0 [] with cur := none }).select [saved 1 1002 x0 5 none, saved 2 1003 x0 5 none]).map (fun b : PCB => b.ref) =
        some 1 := by decide +kernel

/-- Process 1002 is blocked and the idle process is current (V-SCH-7). -/
def idleRuns : State :=
  { one { x0 with base := 203, pc := 207, sp := 210, lim := 210 } (Memory.writeWords [] 203 [6, 0, 0, 0]) with
    procs := [saved 1 1002 { x0 with sp := 167, lim := 167 } 0 (some ⟨2, .reading, 40⟩), PCB.new 2 999]
    cur := some 2
    devs := devs [] [1002] []
    loadCursor := 214
    nextPid := 1003
    nextRef := 3 }

/-- Between the block of the only process and the scheduler's answer (V-SCH-6). -/
def justBlocked : State := { one x0 [] with procs := [{ PCB.new 0 1001 with block := some ⟨2, .reading, 40⟩ }] }

/-- An empty table; nothing ready while idling; nothing ready otherwise; something ready, with a real current process
(V-SCH-2), with the idle one (V-SCH-8), with none (V-SCH-4). -/
theorem witness_SchedulerSwitchesToTheBestReadyProcess :
    State.reset.procs = [] ∧
    (idleRuns.procs ≠ [] ∧ (∀ p, ¬ idleRuns.Ready p) ∧ idleRuns.idling = true) ∧
    (justBlocked.procs ≠ [] ∧ (∀ p, ¬ justBlocked.Ready p) ∧ justBlocked.idling = false) ∧
    ∀ s ∈ [twoReady 211, { idleRuns with procs := [saved 1 1002 x0 0 none, PCB.new 2 999] },
        { one x0 [] with cur := none, procs := [saved 1 1002 x0 5 none, saved 2 1003 x0 5 none] }],
      (s.procs.map fun q => q.ref).Nodup ∧ (∀ q ∈ s.procs, s.cur ≠ some q.ref → q.Saved) ∧ ∃ p, s.Ready p := by
  refine ⟨by decide, ⟨by decide, none_ready (by decide +kernel), by decide +kernel⟩,
    ⟨by decide, none_ready (by decide +kernel), by decide +kernel⟩, ?_⟩
  simp only [List.forall_mem_cons, PCB.Saved]
  exact ⟨⟨by decide +kernel, by decide +kernel, ⟨_, .head _, by decide +kernel, by decide +kernel⟩⟩,
    ⟨by decide +kernel, by decide +kernel, ⟨_, .head _, by decide +kernel, by decide +kernel⟩⟩,
    ⟨by decide +kernel, by decide +kernel, ⟨_, .head _, by decide +kernel, by decide +kernel⟩⟩, nofun⟩

/-- The last cursor with room for eight words. -/
theorem witness_IdleProcessIsInstalledAndLoops :
    let s := { justBlocked with loadCursor := 1016 }
    s.mem.wf = true ∧ (∀ p ∈ s.procs, p.ref < s.nextRef) ∧ s.halted = none ∧ s.started = true ∧ s.cfg.ok = true ∧
      s.procs ≠ [] ∧ (∀ p, ¬ s.Ready p) ∧ s.idling = false ∧ s.loadCursor + 8 ≤ s.cfg.memSize :=
  ⟨by decide, by decide, by decide, by decide, by decide, by decide, none_ready (by decide +kernel), by decide +kernel,
    by decide⟩

/-! ### Witnesses: devices and interrupts -/

/-- The premises OPEN and CLOSE share. -/
def opens (s : State) (n id : Word) : Prop :=
  s.canPop ∧ s.top = n ∧ s.popped.canPop ∧ s.popped.popped.canPush ∧ s.curPcb = some (PCB.new 0 1001) ∧ s.popped.top = id

/-- An unknown device (V-DEV-5), one already open (V-DEV-4), a sharable one (V-DEV-2), an unused one, a busy one
(V-DEV-3). -/
theorem witness_OpenGrantsBlocksOrFails :
    (let s := { stack [3, 77] with devs := devs [] [] [] }
     opens s 3 77 ∧ s.findDev 77 = none) ∧
    (let s := { stack [3, 1] with devs := devs [1001] [] [] }
     opens s 3 1 ∧ ∃ d, s.findDev 1 = some d ∧ 1001 ∈ d.openSet) ∧
    (let s := { stack [3, 2] with devs := devs [] [1002] [] }
     opens s 3 2 ∧ ∃ d, s.findDev 2 = some d ∧ 1001 ∉ d.openSet ∧ d.dev.isSharable = true) ∧
    (let s := { stack [3, 1] with devs := devs [] [] [] }
     opens s 3 1 ∧ ∃ d, s.findDev 1 = some d ∧ 1001 ∉ d.openSet ∧ d.dev.isSharable = false ∧ d.openSet = []) ∧
    (let s := { stack [3, 1] with devs := devs [1002] [] [] }
     opens s 3 1 ∧ ∃ d, s.findDev 1 = some d ∧ 1001 ∉ d.openSet ∧ d.dev.isSharable = false ∧ d.openSet ≠ []) := by
  simp only [opens, State.canPop, State.canPush]
  refine ⟨?_, ⟨?_, ⟨_, rfl, ?_⟩⟩, ⟨?_, ⟨_, rfl, ?_⟩⟩, ⟨?_, ⟨_, rfl, ?_⟩⟩, ⟨?_, ⟨_, rfl, ?_⟩⟩⟩ <;> decide +kernel

/-- A device not held (V-DEV-6); W7, with two openers waiting; one held with nobody waiting. -/
theorem witness_CloseWakesExactlyTheFirstOpener :
    (let s := { stack [4, 1] with devs := devs [] [] [] }
     s.Inv ∧ opens s 4 1 ∧ ∀ d, s.findDev 1 = some d → 1001 ∉ d.openSet) ∧
    (w7.Inv ∧ opens w7 4 4 ∧ (∃ d, w7.findDev 4 = some d ∧ 1001 ∈ d.openSet) ∧
      w7.procs = [PCB.new 0 1001] ++ saved 1 1002 x0 0 (some ⟨4, .opening, 0⟩) ::
        [saved 2 1003 x0 0 (some ⟨4, .opening, 0⟩)] ∧
      ∀ p ∈ [PCB.new 0 1001], ∀ a, p.block ≠ some ⟨4, .opening, a⟩) ∧
    (let s := { stack [4, 2] with devs := devs [] [1001] [] }
     s.Inv ∧ opens s 4 2 ∧ (∃ d, s.findDev 2 = some d ∧ 1001 ∈ d.openSet) ∧
      ∀ p ∈ s.procs, ∀ a, p.block ≠ some ⟨2, .opening, a⟩) := by
  refine ⟨⟨inv_of_checks (by decide +kernel), ?_, ?_⟩, ⟨inv_of_checks (by decide +kernel), ?_, ⟨_, rfl, ?_⟩, rfl, ?_⟩,
    ⟨inv_of_checks (by decide +kernel), ?_, ⟨_, rfl, ?_⟩, ?_⟩⟩
  · simp only [opens, State.canPop, State.canPush]
    decide +kernel
  · rintro d ⟨⟩
    decide
  · simp only [opens, State.canPop, State.canPush]
    decide +kernel
  · decide
  · simp [PCB.new]
  · simp only [opens, State.canPop, State.canPush]
    decide +kernel
  · decide
  · simp [stack, one, PCB.new]

/-- READ of a device that is not open (V-DEV-9); WRITE of one that is not writable (V-DEV-10). -/
theorem witness_ReadAndWriteErrorsAreNotFaults :
    (let s := { stack [5, 2, 40] with devs := devs [] [] [] }
     (s.canPop ∧ s.top = 5 ∧ s.popped.canPop ∧ s.popped.popped.canPop ∧ s.popped.popped.popped.canPush ∧
      s.curPcb = some (PCB.new 0 1001) ∧ s.popped.top = 2) ∧
      ∀ d, s.findDev 2 = some d → 1001 ∈ d.openSet → d.dev.isReadable = false) ∧
    (let s := { stack [6, 3, 40, 99] with devs := devs [] [] [1001] }
     (s.canPop ∧ s.top = 6 ∧ s.popped.canPop ∧ s.popped.popped.canPop ∧ s.popped.popped.popped.canPop ∧
      s.popped.popped.popped.popped.canPush ∧ s.curPcb = some (PCB.new 0 1001) ∧ s.popped.top = 3) ∧
      ∀ d, s.findDev 3 = some d → 1001 ∈ d.openSet → d.dev.isWriteable = false) := by
  simp only [State.canPop, State.canPush]
  refine ⟨⟨by decide +kernel, ?_⟩, ⟨by decide +kernel, ?_⟩⟩
  · rintro d ⟨⟩
    decide
  · rintro d ⟨⟩
    decide

/-- V-DEV-8 and V-DEV-11. -/
theorem witness_ReadAndWriteIssueAndBlock :
    (let s := { stack [5, 2, 40] with devs := devs [] [1001] [], answers := [true] }
     (s.canPop ∧ s.top = 5 ∧ s.popped.canPop ∧ s.popped.popped.canPop ∧ s.curPcb = some (PCB.new 0 1001) ∧
      s.popped.top = 2 ∧ s.popped.popped.top = 40 ∧ s.answers = true :: []) ∧
      ∃ d, s.findDev 2 = some d ∧ 1001 ∈ d.openSet ∧ d.dev.isReadable = true) ∧
    (let s := { stack [6, 2, 40, 99] with devs := devs [] [1001] [], answers := [true] }
     (s.canPop ∧ s.top = 6 ∧ s.popped.canPop ∧ s.popped.popped.canPop ∧ s.popped.popped.popped.canPop ∧
      s.curPcb = some (PCB.new 0 1001) ∧ s.popped.top = 2 ∧ s.popped.popped.top = 40 ∧
      s.popped.popped.popped.top = 99 ∧ s.answers = true :: []) ∧
      ∃ d, s.findDev 2 = some d ∧ 1001 ∈ d.openSet ∧ d.dev.isWriteable = true) := by
  simp only [State.canPop]
  refine ⟨⟨by decide +kernel, ⟨_, rfl, by decide⟩⟩, ⟨by decide +kernel, ⟨_, rfl, by decide⟩⟩⟩

/-- The retry with its words on the stack; and READ with a stack of one word, which the clamp repeats (R298's corner). -/
theorem witness_UnavailableDeviceRetriesTheTrap_pushes :
    (let s := { stack [5, 2, 40] with devs := devs [] [1001] [], answers := [false] }
     let u := s.popped.popped.popped
     let v := { u with regs := { u.regs with pc := s.regs.pc - 4 }, answers := [] }
     s.canPop ∧ s.top = 5 ∧ s.popped.canPop ∧ s.popped.popped.canPop ∧ s.popped.top = 2 ∧ s.popped.popped.top = 40 ∧
      s.curPcb = some (PCB.new 0 1001) ∧ (s.findDev 2).map (fun d => (d.openSet, d.dev.isReadable)) = some ([1001], true) ∧
      s.answers = false :: [] ∧ v.canPush ∧ (v.pushed 40).canPush ∧ ((v.pushed 40).pushed 2).canPush) ∧
    (let s := { one x0 (Memory.writeWord [] 199 5) with devs := [⟨5, ⟨true, true, true⟩, [1001]⟩], answers := [false] }
     let u := s.popped.popped.popped
     let v := { u with regs := { u.regs with pc := s.regs.pc - 4 }, answers := [] }
     s.canPop ∧ s.top = 5 ∧ s.popped.canPop ∧ s.popped.popped.canPop ∧ s.popped.top = 5 ∧ s.popped.popped.top = 5 ∧
      s.curPcb = some (PCB.new 0 1001) ∧ (s.findDev 5).map (fun d => (d.openSet, d.dev.isReadable)) = some ([1001], true) ∧
      s.answers = false :: [] ∧ v.canPush ∧ (v.pushed 5).canPush ∧ ((v.pushed 5).pushed 5).canPush) ∧
    (let s := { stack [6, 2, 40, 99] with devs := devs [] [1001] [], answers := [false] }
     let u := s.popped.popped.popped.popped
     let v := { u with regs := { u.regs with pc := s.regs.pc - 4 }, answers := [] }
     (s.canPop ∧ s.top = 6 ∧ s.popped.canPop ∧ s.popped.popped.canPop ∧ s.popped.popped.popped.canPop ∧
      s.popped.top = 2 ∧ s.popped.popped.top = 40 ∧ s.popped.popped.popped.top = 99 ∧ s.curPcb = some (PCB.new 0 1001)) ∧
      (s.findDev 2).map (fun d => (d.openSet, d.dev.isWriteable)) = some ([1001], true) ∧ s.answers = false :: [] ∧
      v.canPush ∧ (v.pushed 99).canPush ∧ ((v.pushed 99).pushed 40).canPush ∧
      (((v.pushed 99).pushed 40).pushed 2).canPush) := by
  simp only [State.canPop, State.canPush]
  decide +kernel

/-- R298 and R261: a retry whose caller another process beats switches to it, the caller's saved PC back at the TRAP. -/
theorem test_retry_switches : after (exec .trap { stack [5, 2, 40] with
      devs := devs [] [1001] [], answers := [false],
      procs := [PCB.new 0 1001, saved 1 1002 { x0 with pc := 60 } 201 none] }) (fun t =>
    (t.cur, t.regs.pc, (t.findPcb 0).bind (fun p => p.regs.map (fun x => (x.pc, x.sp))))) =
    some (some 1, 60, some (20, 196)) := by decide +kernel

/-- The stack words as deep as they may lie: the last one just below LIM. -/
theorem witness_UnavailableDeviceRetriesTheTrap :
    (let s := { stack [5, 2, 40] with devs := devs [] [1001] [], answers := [false] }
     (s.mem.wf = true ∧ signed s.regs.base ≤ signed s.regs.sp ∧ signed s.regs.sp + 3 ≤ signed s.regs.lim ∧
      0 ≤ signed s.regs.base ∧ signed s.regs.lim < s.cfg.memSize ∧ s.top = 5 ∧ s.curPcb = some (PCB.new 0 1001) ∧
      s.answers = false :: []) ∧ s.Ready (PCB.new 0 1001) ∧
      (∃ d, s.findDev (signed s.popped.top) = some d ∧ 1001 ∈ d.openSet ∧ d.dev.isReadable = true) ∧
      ∀ q, s.Ready q → q.avgStarve ≤ (PCB.new 0 1001).avgStarve + 200) ∧
    (let s := { stack [6, 2, 40, 99] with devs := devs [] [1001] [], answers := [false] }
     (s.mem.wf = true ∧ signed s.regs.base ≤ signed s.regs.sp ∧ signed s.regs.sp + 4 ≤ signed s.regs.lim ∧
      0 ≤ signed s.regs.base ∧ signed s.regs.lim < s.cfg.memSize ∧ s.top = 6 ∧ s.curPcb = some (PCB.new 0 1001) ∧
      s.answers = false :: []) ∧ s.Ready (PCB.new 0 1001) ∧
      (∃ d, s.findDev (signed s.popped.top) = some d ∧ 1001 ∈ d.openSet ∧ d.dev.isWriteable = true) ∧
      ∀ q, s.Ready q → q.avgStarve ≤ (PCB.new 0 1001).avgStarve + 200) := by
  simp only [State.Ready]
  refine ⟨⟨by decide +kernel, by decide +kernel, ⟨⟨2, ⟨true, true, true⟩, [1001]⟩, by decide +kernel⟩,
      forall_ready (by decide +kernel)⟩,
    ⟨by decide +kernel, by decide +kernel, ⟨⟨2, ⟨true, true, true⟩, [1001]⟩, by decide +kernel⟩,
      forall_ready (by decide +kernel)⟩⟩

/-- A started machine with an interrupt due; completions for an unknown device, and for a key nobody waits on
(V-DEV-15). -/
theorem witness_InterruptIsDeliveredAtTheBoundary :
    (let s := { readWaits with schedule := [.interrupt (.readComplete 2 40 42)] }
     s.halted = none ∧ s.cfg.ok = true ∧ s.started = true ∧ s.schedule = .interrupt (.readComplete 2 40 42) :: []) ∧
    readWaits.findDev 77 = none ∧ (∀ p ∈ readWaits.procs, p.block ≠ some ⟨2, .reading, 41⟩) ∧
    ∀ p ∈ readWaits.procs, p.block ≠ some ⟨2, .writing, 40⟩ := by decide +kernel

/-- V-DEV-13; the same with the two pushed words filling the window down to BASE; and with the idle process current
(V-DEV-14). -/
theorem witness_ReadCompletionDeliversToTheWaiter :
    ∀ p ∈ [((167 : Word), 1001), (2, 1001), (167, 999)],
      let x : Regs := { x0 with sp := p.1, lim := 167 }
      let w := saved 1 1002 x 0 (some ⟨2, .reading, 40⟩)
      let s := { readWaits with procs := [PCB.new 0 p.2, w] }
      s.Inv ∧ (∃ d, s.findDev 2 = some d) ∧
        s.procs.find? (fun p => decide (p.block = some ⟨2, .reading, 40⟩)) = some w ∧ s.cur ≠ some w.ref ∧
        w.regs = some x ∧ signed x.base + 2 ≤ signed x.sp ∧ signed x.sp ≤ signed x.lim ∧ 0 ≤ signed x.base ∧
        signed x.lim < s.cfg.memSize ∧ s.idling = decide (p.2 = 999) := by
  simp only [List.forall_mem_cons]
  exact ⟨⟨inv_of_checks (by decide +kernel), ⟨_, rfl⟩, by decide +kernel⟩,
    ⟨inv_of_checks (by decide +kernel), ⟨_, rfl⟩, by decide +kernel⟩,
    ⟨inv_of_checks (by decide +kernel), ⟨_, rfl⟩, by decide +kernel⟩, nofun⟩

/-- Process 1002 is blocked on device 2 at 40 with operation `op` and the idle process is current (V-DEV-14). -/
def idleWaits (op : DevOp) : State :=
  { idleRuns with procs := [saved 1 1002 { x0 with sp := 167, lim := 167 } 0 (some ⟨2, op, 40⟩), PCB.new 2 999] }

/-- A read and a write completion that find the idle process. -/
theorem witness_CompletionLeavesTheIdleProcess :
    ∀ op ∈ [DevOp.reading, .writing],
      let x : Regs := { x0 with sp := 167, lim := 167 }
      let w := saved 1 1002 x 0 (some ⟨2, op, 40⟩)
      let s := idleWaits op
      s.Inv ∧ (∃ d, s.findDev 2 = some d) ∧ (∀ p, ¬ s.Ready p) ∧
        (s.procs.find? (fun p => decide (p.block = some ⟨2, op, 40⟩)) = some w ∧ s.cur ≠ some w.ref ∧
        w.pid ≠ s.cfg.idlePid ∧ w.regs = some x ∧ signed x.base + 2 ≤ signed x.sp ∧ signed x.base < signed x.sp ∧
        signed x.sp ≤ signed x.lim ∧ 0 ≤ signed x.base ∧ signed x.lim < s.cfg.memSize) ∧
        s.curPcb = some (PCB.new 2 999) ∧ (PCB.new 2 999).pid = s.cfg.idlePid := by
  simp only [List.forall_mem_cons]
  exact ⟨⟨inv_of_checks (by decide +kernel), ⟨_, rfl⟩, none_ready (by decide +kernel), by decide +kernel,
      by decide +kernel, by decide⟩,
    ⟨inv_of_checks (by decide +kernel), ⟨_, rfl⟩, none_ready (by decide +kernel), by decide +kernel,
      by decide +kernel, by decide⟩, nofun⟩

/-- R301, R302: the double switch, then the scheduler: five save-or-restore times, the idle process removed. -/
theorem test_write_completion_idle : afterFlow (deliver (.writeComplete 2 40) (idleWaits .writing)) (fun t =>
    (t.cur, t.regs.sp, t.mem.readWord 166, t.ticks, t.procs.map (fun p => p.pid))) =
    some (some 1, 166, 0, 150, [1002]) := by decide +kernel

/-- V-DEV-16; and the same with the idle process current. -/
theorem witness_WriteCompletionIsADoubleSwitch :
    ∀ pid ∈ [1001, 999],
      let x : Regs := { x0 with sp := 200, base := 180, lim := 250 }
      let w := { saved 1 1002 x 0 (some ⟨2, .writing, 40⟩) with lastReady := 400 }
      let o := PCB.new 0 pid
      let s := { writeWaits with procs := [o, w] }
      s.Inv ∧ (∃ d, s.findDev 2 = some d) ∧
        (s.procs.find? (fun p => decide (p.block = some ⟨2, .writing, 40⟩)) = some w ∧ s.curPcb = some o ∧
        w.ref ≠ o.ref ∧ w.regs = some x) ∧ signed x.base < signed x.sp ∧ signed x.sp ≤ signed x.lim ∧
        0 ≤ signed x.base ∧ signed x.lim < s.cfg.memSize := by
  simp only [List.forall_mem_cons]
  exact ⟨⟨inv_of_checks (by decide +kernel), ⟨_, rfl⟩, by decide +kernel, by decide, by decide, by decide, by decide⟩,
    ⟨inv_of_checks (by decide +kernel), ⟨_, rfl⟩, by decide +kernel, by decide, by decide, by decide, by decide⟩, nofun⟩

/-! ### Witnesses: reset and boot -/

/-- One state for each kind of boot step: a device to register, a program to register, one to load, and the start with and
without a process. -/
theorem witness_BootRegistersLoadsAndStarts :
    (State.reset.halted = none ∧ State.reset.cfg.ok = true ∧ State.reset.started = false) ∧
    (let s := { State.reset with boot := ⟨[(1, ⟨false, true, true⟩)], [q36], [q36]⟩ }
     s.boot.devices = (1, ⟨false, true, true⟩) :: []) ∧
    (let s := { State.reset with boot := ⟨[], [q36], [q36]⟩ }
     s.boot.devices = [] ∧ s.boot.programs = q36 :: []) ∧
    (let s := { State.reset with boot := ⟨[], [], [q36]⟩ }
     s.boot.devices = [] ∧ s.boot.programs = [] ∧ s.boot.loads = q36 :: [] ∧ s.nextPid ≠ s.cfg.idlePid) ∧
    (State.reset.boot = BootPlan.empty ∧ State.reset.procs = []) ∧
    (let s := { one x0 [] with started := false }
     s.halted = none ∧ s.started = false ∧ s.boot = BootPlan.empty ∧ s.procs ≠ []) := by decide

end Sys2Proof.Tests
end

/-! ## The state (10_state.md): the proofs

What a step that answers a next state was, how it moved the counters, and where it could write; then the six statements. -/

namespace Sys2Proof.Proofs

open Sys2Proof.Machine Sys2Proof.Laws

/-! ### What a step that answers a next state was -/

/-- With nothing scheduled the host's turn takes nothing from the schedule. -/
theorem takeTurn_of_nil {s : State} (h : s.schedule = []) : s.takeTurn = s := by
  simp only [State.takeTurn, h, List.tail_nil]
  rw [← h]

/-- A halted machine is stuck (R44). -/
theorem step_of_halted {s : State} {h : HaltReason} (hs : s.halted = some h) : step s = .fault (.machineHalted h) := by
  simp only [step, hs]

/-- A step that answers a next state was a boot duty, an instruction at the engine's turn, or the handler of an interrupt
(R130, R330, R362). -/
theorem step_next_cases {s t : State} (h : step s = .next t) :
    s.halted = none ∧
      ((s.started = false ∧ ¬ s.EngineTurn ∧ (bootAction s).finish = .next t) ∨
       (s.started = true ∧ s.EngineTurn ∧ engineStep s.takeTurn = .next t) ∨
       (s.started = true ∧ ¬ s.EngineTurn ∧ ∃ i, (deliver i s.takeTurn).finish = .next t)) := by
  rcases step_cases s with ⟨r, -, e⟩ | ⟨-, -, e⟩ | ⟨hh, -, hs, e⟩ | ⟨hh, hk, hs, hturn⟩
  · rw [e] at h; cases h
  · rw [e] at h; cases h
  · exact ⟨hh, .inl ⟨hs, fun ⟨_, _, hst, _⟩ => Bool.false_ne_true (hs.symm.trans hst), e ▸ h⟩⟩
  · refine ⟨hh, .inr ?_⟩
    rcases hturn with ⟨hn, e⟩ | ⟨turns, hn, e⟩ | ⟨i, turns, hn, e⟩
    · exact .inl ⟨hs, ⟨hh, hk, hs, by simp [hn]⟩, by rw [takeTurn_of_nil hn, ← e, h]⟩
    · exact .inl ⟨hs, ⟨hh, hk, hs, by simp [hn]⟩, by simp only [State.takeTurn, hn, List.tail_cons, ← e, h]⟩
    · exact .inr ⟨hs, fun ⟨_, _, _, hdue⟩ => hdue i turns hn, i, by simp only [State.takeTurn, hn, List.tail_cons, ← e, h]⟩

/-! ### The invariant -/

/-- Work that keeps the invariant, whether it finishes or halts, answers a next state that meets it. -/
theorem inv_of_finish {R : Prop} {x : Flow Unit} {t : State} (hx : Sat (fun _ t => t.Inv) State.Inv R x)
    (h : x.finish = .next t) : t.Inv := by
  rcases hx.finish with ⟨u, e, hu⟩ | ⟨r, e, -⟩
  · rw [e] at h; cases h; exact hu.elim id id
  · rw [e] at h; cases h

/-- The schedule is no part of the invariant. -/
theorem run_takeTurn {s : State} (h : Run s) : Run s.takeTurn :=
  h.same ⟨rfl, rfl, rfl, rfl, rfl, rfl, rfl, rfl⟩ (h.base.same ⟨rfl, rfl, rfl, rfl, rfl, rfl, rfl, rfl⟩ rfl)

/-- An instruction step keeps the invariant: on a fetch fault, on an illegal instruction and on a decoded one. -/
theorem engineStep_inv {s t : State} (hs : Run s) (h : engineStep s = .next t) : t.Inv := by
  have hticked := hs.addTicks Config.instrTicks
  have hadvanced : Run (s.addTicks Config.instrTicks).advancePc := hticked.setReg _ _
  rcases engineStep_cases s with ⟨n, -, -, -, e⟩ | ⟨-, r, -, e⟩ | ⟨-, i, -, e⟩
  · rw [e] at h; cases h; exact hticked.halt _
  · rw [e] at h; cases h; exact hadvanced.halt _
  · rcases exec_run i hadvanced with ⟨u, eu, hu⟩ | ⟨r, er, -⟩
    · rw [e, eu] at h; cases h; exact hu
    · rw [e, er] at h; cases h

/-- Settles O33: each kind of step keeps the invariant, by the lemma on the work it does. -/
theorem everyStepKeepsTheInvariant : Obligations.EveryStepKeepsTheInvariant := by
  intro s t hinv h
  obtain ⟨hh, ⟨-, -, e⟩ | ⟨hs, -, e⟩ | ⟨hs, -, i, e⟩⟩ := step_next_cases h
  · exact inv_of_finish (bootAction_inv hinv hh) e
  · exact engineStep_inv (run_takeTurn ⟨hinv, hh, hs⟩) e
  · exact inv_of_finish (R := False) (deliver_run i (run_takeTurn ⟨hinv, hh, hs⟩)) e

/-- Settles O34: at reset every table is empty, so each clause of the invariant is empty or computed. -/
theorem resetMeetsTheInvariant : Obligations.ResetMeetsTheInvariant := fun _ =>
  { canonical := rfl
    within := rfl
    refsDistinct := .nil
    refsUsed := nofun
    idsDistinct := .nil
    idsAssigned := nofun
    idsStart := le_refl _
    openSets := nofun
    othersSaved := nofun
    currentExists := nofun
    noneMeansEmpty := fun _ _ => rfl
    currentListed := nofun
    currentUnblocked := nofun }

/-- Settles O8: `step` looks at `halted` before anything else. -/
theorem haltedMachineTakesNoStep : Obligations.HaltedMachineTakesNoStep :=
  ⟨fun _ _ => step_of_halted, fun _ => rfl⟩

/-! ### How a step moves the counters -/

/-- `t` is `s` grown, or `s` grown and then halted. -/
def Advances (s t : State) : Prop := Grows s t ∨ ∃ u r, Grows s u ∧ t = u.halt r

/-- But for the halt and the events, a state that advanced has grown. -/
theorem Advances.grows {s t : State} (h : Advances s t) : Grows s { t with halted := s.halted, out := s.out } := by
  have erase : ∀ {u : State}, Grows s u → Grows s { u with halted := s.halted, out := s.out } := fun k =>
    ⟨k.cfg, k.ticks, k.nextPid, k.cursor, rfl, ⟨[], nofun, (List.append_nil _).symm⟩, k.ids⟩
  rcases h with k | ⟨u, r, k, rfl⟩
  · exact erase k
  · exact erase (u := u) k

theorem grows_takeTurn (s : State) : Grows s s.takeTurn :=
  Grows.of_same ⟨rfl, rfl, rfl, rfl, rfl, rfl, rfl, rfl⟩ rfl rfl rfl

/-- A step at the engine's turn advances the machine from one tick later, any other step from where it stood. -/
theorem step_advances {s t : State} (h : step s = .next t) :
    (s.EngineTurn ∧ Advances (s.takeTurn.addTicks Config.instrTicks) t) ∨ (¬ s.EngineTurn ∧ Advances s t) := by
  obtain ⟨-, ⟨-, hn, e⟩ | ⟨-, he, e⟩ | ⟨-, hn, i, e⟩⟩ := step_next_cases h
  · exact .inr ⟨hn, finish_grows (bootAction_ends s) e⟩
  · exact .inl ⟨he, engineStep_grows e⟩
  · exact .inr ⟨hn, finish_grows (Ends.from (grows_takeTurn s) (deliver_ends i _)) e⟩

/-- Settles O31, from how far each kind of step advances the machine. -/
theorem ticksCountStepsAndSwitches : Obligations.TicksCountStepsAndSwitches := by
  intro s t h
  rcases step_advances h with ⟨he, k⟩ | ⟨hn, k⟩
  · exact ⟨k.grows.cfg, fun _ => k.grows.ticks, fun hn => absurd he hn⟩
  · exact ⟨k.grows.cfg, fun he => absurd he hn, fun _ => k.grows.ticks⟩

/-- Settles O32, from how far each kind of step advances the machine. -/
theorem idsAndCursorOnlyGrow : Obligations.IdsAndCursorOnlyGrow := by
  intro s t h
  rcases step_advances h with ⟨-, k⟩ | ⟨-, k⟩ <;> exact ⟨k.grows.nextPid, k.grows.cursor, k.grows.ids⟩

/-! ### Where an instruction writes -/

/-- Work behind a check either halted at the check, or passed it and went on (R73). -/
theorem check_andThen_next {a : Word} {s t : State} {k : Unit → State → Flow Unit}
    (h : ((check a s).andThen k).finish = .next t) :
    t = s.halt (.illegalMemoryAccess a) ∨ (s.allows a = true ∧ (k () s).finish = .next t) := by
  cases ha : s.allows a with
  | false => rw [check_bad ha] at h; cases h; exact .inl rfl
  | true => rw [check_ok ha] at h; exact .inr ⟨rfl, h⟩

/-- A branch, taken or not, leaves memory alone (R173). -/
theorem takeBranch_mem {k : Word} {s t : State} (h : (takeBranch k s).finish = .next t) : t.mem = s.mem := by
  rcases check_andThen_next h with rfl | ⟨-, e⟩
  · rfl
  · cases e; rfl

/-- An instruction other than TRAP leaves memory alone, or stores one word at an address that passed the check (R74). -/
theorem exec_mem_cases {i : Instr} {s t : State} (hi : i ≠ .trap) (h : exec i s = .next t) :
    t.mem = s.mem ∨ ∃ a v, s.allows a = true ∧ t.mem = s.mem.writeWord a.toNat v := by
  cases i with
  | set | add | sub | mul | copy => cases h; exact .inl rfl
  | div d a b =>
    simp only [exec, execDiv] at h
    split at h <;> cases h <;> exact .inl rfl
  | branch k => exact .inl (takeBranch_mem h)
  | bne a b k =>
    simp only [exec, execBne] at h
    split at h
    · exact .inl (takeBranch_mem h)
    · cases h; exact .inl rfl
  | blt a b k =>
    simp only [exec, execBlt] at h
    split at h
    · exact .inl (takeBranch_mem h)
    · cases h; exact .inl rfl
  | pop d =>
    simp only [exec, execPop, pop_eq] at h
    split at h <;> cases h <;> exact .inl rfl
  | push r =>
    simp only [exec, execPush, push_eq] at h
    split at h
    · rename_i ha
      cases h; exact .inr ⟨_, _, ha, rfl⟩
    · cases h; exact .inl rfl
  | load d o =>
    rcases check_andThen_next h with rfl | ⟨-, e⟩
    · exact .inl rfl
    · cases e; exact .inl rfl
  | save r o =>
    rcases check_andThen_next h with rfl | ⟨ha, e⟩
    · exact .inl rfl
    · cases e; exact .inr ⟨_, _, ha, rfl⟩
  | trap => exact absurd rfl hi

/-- The word at an address that passes the check lies in the window and in memory (R73). -/
theorem allows_bounds {s : State} {a : Word} (h : s.allows a = true) :
    signed s.regs.base ≤ (a.toNat : Int) ∧ (a.toNat : Int) ≤ signed s.regs.lim ∧ a.toNat < s.cfg.memSize := by
  obtain ⟨hbase, hlim, hnonneg, -⟩ := (allows_iff s a).1 h
  rw [signed_nonneg_toNat hnonneg]
  exact ⟨hbase, hlim, allows_lt h⟩

/-- Settles O29: a byte that changed lies in the one word the instruction stored, whose address passed the check. -/
theorem noInstructionWritesOutsideItsWindow : Obligations.NoInstructionWritesOutsideItsWindow := by
  intro i s t n hi h hn
  rcases exec_mem_cases hi h with e | ⟨a, v, ha, e⟩
  · exact absurd (by rw [e]) hn
  · have hword : n / 4 = a.toNat := by
      by_contra hne
      exact hn (by rw [e, readByte_writeWord_other _ _ hne])
    rw [hword]
    exact allows_bounds ha

end Sys2Proof.Proofs

/-! ## Memory (20_memory.md): the proofs

The check, the events of a step, and the words a sequence of stores leaves; then the three statements. -/

namespace Sys2Proof.Proofs

open Sys2Proof.Machine Sys2Proof.Laws

/-! ### The check -/

/-- Settles O16: `Check` asks for both bounds of the window and of memory, and raises the address otherwise. -/
theorem checkIsTheWindowAndMemoryTest : Obligations.CheckIsTheWindowAndMemoryTest := by
  intro a s
  rw [← allows_iff]
  exact ⟨check_ok, fun h => check_bad (Bool.eq_false_of_not_eq_true h)⟩

/-! ### The events of a step -/

/-- A machine that was running and advanced has added events that are no diagnostic, and then the diagnostic of the halt
if it halted (R323). -/
theorem Advances.events {s t : State} (h : Advances s t) (hs : s.halted = none) :
    ∃ es : List Event, (∀ e ∈ es, ∀ r, e ≠ .diagnostic r) ∧
      t.out = s.out ++ es ++ (t.halted.map Event.diagnostic).toList := by
  rcases h with k | ⟨u, r, k, rfl⟩
  · obtain ⟨es, hes, e⟩ := k.out
    have ht : t.halted = none := k.halted.trans hs
    exact ⟨es, hes, by simp [e, ht]⟩
  · obtain ⟨es, hes, e⟩ := k.out
    exact ⟨es, hes, by simp [e]⟩

/-- A step that answers a next state adds events that are no diagnostic, and then the diagnostic of its halt, if any. -/
theorem step_events {s t : State} (h : step s = .next t) :
    ∃ es : List Event, (∀ e ∈ es, ∀ r, e ≠ .diagnostic r) ∧
      t.out = s.out ++ es ++ (t.halted.map Event.diagnostic).toList := by
  obtain ⟨hs, -⟩ := step_next_cases h
  rcases step_advances h with ⟨-, k⟩ | ⟨-, k⟩
  · exact k.events hs
  · exact k.events hs

/-- Settles O30: the events of a step, read off for each value `halted` may have. -/
theorem diagnosticExactlyAtTheHalt : Obligations.DiagnosticExactlyAtTheHalt := by
  intro s t h
  obtain ⟨es, hes, hout⟩ := step_events h
  refine ⟨es, hes, ?_⟩
  rw [hout]
  cases t.halted <;> rfl

/-! ### Stored words -/

/-- SAVE at an address that passes the check stores one word and changes nothing else (R193). -/
theorem exec_save_ok {r o : Reg} {s : State} (h : s.allows (s.physical (s.reg o)) = true) :
    exec (.save r o) s = .next (s.memWrite (s.physical (s.reg o)) (s.reg r)) := by
  simp [exec, execSave, check_ok h]

/-- LOAD from an address that passes the check writes the word there to its destination (R192). -/
theorem exec_load_ok {d o : Reg} {s : State} (h : s.allows (s.physical (s.reg o)) = true) :
    exec (.load d o) s = .next (s.setReg d (s.memRead (s.physical (s.reg o)))) := by
  simp [exec, execLoad, check_ok h]

/-- After a store the stored address reads as the stored word, any other as before (R77, R84). -/
theorem memRead_memWrite {s : State} (a b v : Word) (h : s.mem.wf = true) :
    (s.memWrite a v).memRead b = if b = a then v else s.memRead b := by
  simp only [State.memRead, memWrite_mem, readWord_writeWord _ _ _ h, BitVec.toNat_inj]

/-- After stores done in order a word reads as the last one to its address left it, else as before (R86). -/
theorem readWord_foldl_writeWord (n : Nat) : ∀ (stores : List (Nat × Word)) {m : Memory}, m.wf = true →
    (stores.foldl (fun m w => m.writeWord w.1 w.2) m).readWord n =
      ((stores.reverse.find? fun w => w.1 == n).map Prod.snd).getD (m.readWord n)
  | [], _, _ => rfl
  | w :: ws, m, h => by
    rw [List.foldl_cons, readWord_foldl_writeWord n ws (wf_writeWord w.1 w.2 h), readWord_writeWord _ _ _ h,
      List.reverse_cons, List.find?_append]
    cases ws.reverse.find? fun w => w.1 == n with
    | some last => rfl
    | none =>
      by_cases hn : w.1 = n
      · simp [hn]
      · simp [hn, Ne.symm hn]

/-- Settles O26: SAVE is one store at the effective address, LOAD reads it back, and a sequence of stores is read word by
word. -/
theorem storedWordIsReadBack : Obligations.StoredWordIsReadBack := by
  refine ⟨fun r o s hwf ha => ?_, fun m stores n hwf => ?_⟩
  · refine ⟨_, exec_save_ok ha, fun n => readWord_writeWord _ _ _ hwf, fun d o' ha' => ?_⟩
    refine ⟨_, exec_load_ok (s := s.memWrite (s.physical (s.reg o)) (s.reg r)) ha', ?_⟩
    rw [reg_setReg, if_pos rfl]
    exact memRead_memWrite _ _ _ hwf
  · rw [readWord_foldl_writeWord n stores hwf]
    cases stores.reverse.find? fun w => w.1 == n <;> rfl

end Sys2Proof.Proofs

/-! ## Encoding (30_encoding.md): the proofs

What the decoder does with each opcode and with a word that is none, and the halt on an illegal tuple; then the five
statements. -/

namespace Sys2Proof.Proofs

open Sys2Proof.Machine Sys2Proof.Laws

/-! ### Decoding an encoded instruction -/

theorem decode1_index (w0 w2 w3 : Word) (a : Reg) (mk : Reg → Instr) :
    decode1 ⟨w0, a.index, w2, w3⟩ mk = .ok (mk a) := by
  simp [decode1]

theorem decode2_index (w0 w3 : Word) (a b : Reg) (mk : Reg → Reg → Instr) :
    decode2 ⟨w0, a.index, b.index, w3⟩ mk = .ok (mk a b) := by
  simp [decode2]

theorem decode3_index (w0 : Word) (a b c : Reg) (mk : Reg → Reg → Reg → Instr) :
    decode3 ⟨w0, a.index, b.index, c.index⟩ mk = .ok (mk a b c) := by
  simp [decode3]

/-- The decoder undoes the encoder (R102). -/
theorem decode_encode (i : Instr) : decode (encode i) = .ok i := by
  cases i with
  | branch | trap => rfl
  | set d k => exact decode1_index _ _ _ _ fun d => .set d k
  | pop | push => exact decode1_index ..
  | copy | load | save => exact decode2_index ..
  | bne a b k => exact decode2_index _ _ _ _ fun a b => .bne a b k
  | blt a b k => exact decode2_index _ _ _ _ fun a b => .blt a b k
  | add | sub | mul | div => exact decode3_index ..

/-- Settles O1: the bytes of a tuple decode as the tuple does, and the decoder undoes the encoder. -/
theorem decodeOfEncodedBytesIsTheInstruction : Obligations.DecodeOfEncodedBytesIsTheInstruction := by
  intro i rest
  rw [decodeBytes_bytes, decode_encode]

/-! ### Opcodes -/

/-- A word is the opcode of a mnemonic, or none of the fourteen opcode values (R102). -/
theorem opcode_cases (w : Word) :
    (∃ m : Mnemonic, w = m.opcode) ∨ w.toNat = 13 ∨ w.toNat = 14 ∨ 15 < w.toNat := by
  by_cases hw : w.toNat = 13 ∨ w.toNat = 14 ∨ 15 < w.toNat
  · exact .inr hw
  · have hdefined : ∃ m : Mnemonic, w.toNat = m.opcode.toNat := by
      obtain e | e | e | e | e | e | e | e | e | e | e | e | e | e : w.toNat = 0 ∨ w.toNat = 1 ∨ w.toNat = 2 ∨
        w.toNat = 3 ∨ w.toNat = 4 ∨ w.toNat = 5 ∨ w.toNat = 6 ∨ w.toNat = 7 ∨ w.toNat = 8 ∨ w.toNat = 9 ∨
        w.toNat = 10 ∨ w.toNat = 11 ∨ w.toNat = 12 ∨ w.toNat = 15 := by omega
      exacts [⟨.set, e⟩, ⟨.add, e⟩, ⟨.sub, e⟩, ⟨.mul, e⟩, ⟨.div, e⟩, ⟨.copy, e⟩, ⟨.branch, e⟩, ⟨.bne, e⟩, ⟨.blt, e⟩,
        ⟨.pop, e⟩, ⟨.push, e⟩, ⟨.load, e⟩, ⟨.save, e⟩, ⟨.trap, e⟩]
    obtain ⟨m, e⟩ := hdefined
    exact .inl ⟨m, BitVec.eq_of_toNat_eq e⟩

section UndefinedOpcode

variable {t : Tuple} (h : t.w0.toNat = 13 ∨ t.w0.toNat = 14 ∨ 15 < t.w0.toNat)
include h

theorem decode_of_undefined : decode t = .error (.unrecognisedOpcode t.w0) := by
  unfold decode
  split
  case h_15 => rfl
  all_goals omega

theorem regFields_of_undefined : t.regFields = none := by
  simp only [Tuple.regFields, ← BitVec.toNat_inj, BitVec.reduceToNat]
  repeat rw [if_neg (by omega)]

theorem legal_of_undefined : t.legal = false := by
  simp only [Tuple.legal, regFields_of_undefined h]

theorem clearIgnored_of_undefined : t.clearIgnored = t := by
  simp only [Tuple.clearIgnored, ← BitVec.toNat_inj, BitVec.reduceToNat]
  repeat rw [if_neg (by omega)]

end UndefinedOpcode

/-! ### What the decoder accepts, and which words it keeps -/

/-- The decoder accepts `t`, a legal tuple, as an instruction of the words `t` does not ignore; or rejects it, an illegal
one. -/
def DecodesByLegality (t : Tuple) : Prop :=
  (∃ i, decode t = .ok i ∧ t.legal = true ∧ encode i = t.clearIgnored) ∨ ∃ e, decode t = .error e ∧ t.legal = false

section Operands

variable {w0 w1 w2 w3 : Word}

theorem decodesByLegality_of_decode1 {mk : Reg → Instr}
    (hd : decode ⟨w0, w1, w2, w3⟩ = decode1 ⟨w0, w1, w2, w3⟩ mk)
    (hf : Tuple.regFields ⟨w0, w1, w2, w3⟩ = some [w1])
    (he : ∀ a, encode (mk a) = Tuple.clearIgnored ⟨w0, a.index, w2, w3⟩) : DecodesByLegality ⟨w0, w1, w2, w3⟩ := by
  have hl : Tuple.legal ⟨w0, w1, w2, w3⟩ = regField w1 := by simp [Tuple.legal, hf]
  rcases decode1_cases ⟨w0, w1, w2, w3⟩ mk with ⟨a, rfl, h, hr⟩ | ⟨e, h, hr⟩
  · exact .inl ⟨mk a, hd.trans h, hl.trans hr, he a⟩
  · exact .inr ⟨e, hd.trans h, hl.trans hr⟩

theorem decodesByLegality_of_decode2 {mk : Reg → Reg → Instr}
    (hd : decode ⟨w0, w1, w2, w3⟩ = decode2 ⟨w0, w1, w2, w3⟩ mk)
    (hf : Tuple.regFields ⟨w0, w1, w2, w3⟩ = some [w1, w2])
    (he : ∀ a b, encode (mk a b) = Tuple.clearIgnored ⟨w0, a.index, b.index, w3⟩) :
    DecodesByLegality ⟨w0, w1, w2, w3⟩ := by
  have hl : Tuple.legal ⟨w0, w1, w2, w3⟩ = (regField w1 && regField w2) := by simp [Tuple.legal, hf]
  rcases decode2_cases ⟨w0, w1, w2, w3⟩ mk with ⟨a, b, rfl, rfl, h, hr⟩ | ⟨e, h, hr⟩
  · exact .inl ⟨mk a b, hd.trans h, hl.trans hr, he a b⟩
  · exact .inr ⟨e, hd.trans h, hl.trans hr⟩

theorem decodesByLegality_of_decode3 {mk : Reg → Reg → Reg → Instr}
    (hd : decode ⟨w0, w1, w2, w3⟩ = decode3 ⟨w0, w1, w2, w3⟩ mk)
    (hf : Tuple.regFields ⟨w0, w1, w2, w3⟩ = some [w1, w2, w3])
    (he : ∀ a b c, encode (mk a b c) = Tuple.clearIgnored ⟨w0, a.index, b.index, c.index⟩) :
    DecodesByLegality ⟨w0, w1, w2, w3⟩ := by
  have hl : Tuple.legal ⟨w0, w1, w2, w3⟩ = (regField w1 && regField w2 && regField w3) := by
    simp [Tuple.legal, hf, Bool.and_assoc]
  rcases decode3_cases ⟨w0, w1, w2, w3⟩ mk with ⟨a, b, c, rfl, rfl, rfl, h, hr⟩ | ⟨e, h, hr⟩
  · exact .inl ⟨mk a b c, hd.trans h, hl.trans hr, he a b c⟩
  · exact .inr ⟨e, hd.trans h, hl.trans hr⟩

end Operands

/-- Row by row of the opcode table, and for a word that is no opcode (R102, R104, R106). -/
theorem decodesByLegality (t : Tuple) : DecodesByLegality t := by
  obtain ⟨w0, w1, w2, w3⟩ := t
  rcases opcode_cases w0 with ⟨m, rfl⟩ | h
  · cases m with
    | set | pop | push => exact decodesByLegality_of_decode1 rfl rfl fun _ => rfl
    | copy | bne | blt | load | save => exact decodesByLegality_of_decode2 rfl rfl fun _ _ => rfl
    | add | sub | mul | div => exact decodesByLegality_of_decode3 rfl rfl fun _ _ _ => rfl
    | branch | trap => exact .inl ⟨_, rfl, rfl, rfl⟩
  · exact .inr ⟨_, decode_of_undefined h, legal_of_undefined h⟩

/-- Settles O2, from what the decoder does with a legal and with an illegal tuple. -/
theorem decodeAcceptsExactlyTheLegalTuples : Obligations.DecodeAcceptsExactlyTheLegalTuples := by
  intro t
  rcases decodesByLegality t with ⟨i, hd, hl, -⟩ | ⟨e, hd, hl⟩ <;> simp [hd, hl]

/-- The decoder reads no word the opcode ignores (R105). -/
theorem decode_clearIgnored (t : Tuple) : decode t.clearIgnored = decode t := by
  obtain ⟨w0, w1, w2, w3⟩ := t
  rcases opcode_cases w0 with ⟨m, rfl⟩ | h
  · cases m <;> rfl
  · rw [clearIgnored_of_undefined h]

/-- Settles O3: a tuple decodes as it does with its ignored words cleared, and the cleared words are those encoded. -/
theorem ignoredWordsHaveNoEffect : Obligations.IgnoredWordsHaveNoEffect := by
  refine ⟨fun t u h => ?_, fun t i h => ?_⟩
  · rw [← decode_clearIgnored t, h, decode_clearIgnored]
  · rcases decodesByLegality t with ⟨j, hd, -, he⟩ | ⟨e, hd, -⟩
    · cases h.symm.trans hd
      exact he
    · cases h.symm.trans hd

/-! ### The halt on an illegal tuple -/

/-- At the engine's turn the step is an instruction step, the host's turn used up (R130). -/
theorem step_of_engineTurn {s : State} (h : s.EngineTurn) : step s = engineStep s.takeTurn := by
  obtain ⟨hh, hk, hs, hdue⟩ := h
  rcases step_cases s with ⟨r, e, -⟩ | ⟨-, e, -⟩ | ⟨-, -, e, -⟩ |
    ⟨-, -, -, ⟨hn, e⟩ | ⟨turns, hn, e⟩ | ⟨i, turns, hn, -⟩⟩
  · cases hh.symm.trans e
  · cases hk.symm.trans e
  · cases hs.symm.trans e
  · rw [e, takeTurn_of_nil hn]
  · rw [e, State.takeTurn, hn, List.tail_cons]
  · exact absurd hn (hdue i turns)

/-- All four words of the instruction at PC pass the check (R131). -/
theorem fetchable_of_allows {s : State} (h : ∀ n : Nat, n < 4 → s.allows (wrap (signed s.regs.pc + n)) = true) :
    s.fetchable = true := by
  simp only [State.fetchable, State.fetchAddr, h 0, h 1, h 2, h 3, Nat.reduceLT, Bool.and_self]

/-- The pre-increment adds 4 to PC modulo 2^32 and changes nothing else (R132). -/
theorem advancePc_eq (s : State) : s.advancePc = { s with regs := { s.regs with pc := s.regs.pc + 4 } } := by
  have hpc : wrap (signed s.regs.pc + Config.instrSize) = s.regs.pc + 4 := aluAdd_eq s.regs.pc 4
  simp only [State.advancePc, hpc]
  rfl

/-- An instruction step whose fetched tuple does not decode halts one tick later, PC advanced (R106, R133). -/
theorem engineStep_of_decode_error {s : State} {e : Rejection} (hf : s.fetchable = true)
    (hd : decode (s.mem.readTuple s.regs.pc.toNat) = .error e) :
    engineStep s = .next ((s.addTicks Config.instrTicks).advancePc.halt
      (.illegalInstruction (s.mem.readTuple s.regs.pc.toNat))) := by
  have hfetch := fetch_ok (s := s.addTicks Config.instrTicks) hf
  simp only [engineStep, hfetch, addTicks_mem, addTicks_regs, decodeOrRaise, hd, raise]

/-- Settles O7: an illegal tuple does not decode, so the instruction step halts. -/
theorem illegalTupleHaltsWithItsFourWords : Obligations.IllegalTupleHaltsWithItsFourWords := by
  rintro s t hturn hallows rfl hillegal
  rcases decodesByLegality (s.mem.readTuple s.regs.pc.toNat) with ⟨i, -, hlegal, -⟩ | ⟨e, hd, -⟩
  · exact absurd (hillegal.symm.trans hlegal) Bool.false_ne_true
  · rw [step_of_engineTurn hturn, engineStep_of_decode_error (s := s.takeTurn) (fetchable_of_allows hallows) hd,
      advancePc_eq]
    rfl

/-! ### Examples -/

/-- Settles O4: each tuple is decoded and each line assembled by computation. -/
theorem exampleTuplesDecode : Obligations.ExampleTuplesDecode := by
  unfold Obligations.ExampleTuplesDecode
  decide

end Sys2Proof.Proofs

/-! ## The execution cycle (40_execution_cycle.md): the proofs

The instruction step by how its fetch ends, progress, the stack pointer inside its window, PUSH and POP, and the push
onto a process that is not current; each statement stands after the lemmas it needs. -/

namespace Sys2Proof.Proofs

open Sys2Proof.Machine Sys2Proof.Laws

/-! ### The instruction step -/

/-- An instruction step whose fetched tuple decodes runs the body one tick later, PC advanced (R130, R132). -/
theorem engineStep_of_decode_ok {s : State} {i : Instr} (hf : s.fetchable = true)
    (hd : decode (s.mem.readTuple s.regs.pc.toNat) = .ok i) :
    engineStep s = exec i (s.addTicks Config.instrTicks).advancePc := by
  have hfetch := fetch_ok (s := s.addTicks Config.instrTicks) hf
  simp only [engineStep, hfetch, addTicks_mem, addTicks_regs, decodeOrRaise, hd]

/-- Settles O5: the fetch and the decode succeed, so the instruction step is the body of the decoded instruction. -/
theorem stepRunsTheDecodedInstruction : Obligations.StepRunsTheDecodedInstruction := by
  intro s i hturn hallows hd
  rw [step_of_engineTurn hturn, engineStep_of_decode_ok (s := s.takeTurn) (fetchable_of_allows hallows) hd,
    advancePc_eq]
  rfl

/-- Where the instruction at PC can be fetched, each of its four words passes the check (R131). -/
theorem allows_fetchAddr_of_fetchable {s : State} {n : Nat} (hf : s.fetchable = true) (hn : n < 4) :
    s.allows (s.fetchAddr n) = true := by
  simp only [State.fetchable, Bool.and_eq_true] at hf
  obtain ⟨⟨⟨h0, h1⟩, h2⟩, h3⟩ := hf
  interval_cases n <;> assumption

/-- An instruction step whose `n`-th word is the first to fail the check halts one tick later with that word's address,
PC not advanced (R131). -/
theorem engineStep_of_fetch_fault {s : State} {n : Nat} (hn : n < 4)
    (hpass : ∀ m < n, s.allows (s.fetchAddr m) = true) (hfail : s.allows (s.fetchAddr n) = false) :
    engineStep s = .next ((s.addTicks Config.instrTicks).halt (.illegalMemoryAccess (s.fetchAddr n))) := by
  have hnot : s.fetchable ≠ true := fun hf =>
    Bool.false_ne_true (hfail.symm.trans (allows_fetchAddr_of_fetchable hf hn))
  rcases engineStep_cases s with ⟨k, -, hkpass, hkfail, e⟩ | ⟨hf, -⟩ | ⟨hf, -⟩
  · have hk : k = n := by
      rcases lt_trichotomy k n with h | h | h
      · exact absurd (hkfail.symm.trans (hpass k h)) Bool.false_ne_true
      · exact h
      · exact absurd (hfail.symm.trans (hkpass n h)) Bool.false_ne_true
    rw [e, hk]
  · exact absurd hf hnot
  · exact absurd hf hnot

/-- Settles O6, from the instruction step at its first failing word. -/
theorem fetchFaultReportsTheFirstFailingWord : Obligations.FetchFaultReportsTheFirstFailingWord := by
  intro s n hturn hn hpass hfail
  rw [step_of_engineTurn hturn, engineStep_of_fetch_fault (s := s.takeTurn) hn hpass hfail]
  rfl

/-! ### Progress -/

/-- A step of a running machine with admitted parameters is a boot duty, an instruction or the handler of an interrupt
(R130, R330, R362). -/
theorem step_running_cases {s : State} (hh : s.halted = none) (hk : s.cfg.ok = true) :
    (s.started = false ∧ step s = (bootAction s).finish) ∨
      (s.started = true ∧ step s = engineStep s.takeTurn) ∨
      (s.started = true ∧ ∃ i, step s = (deliver i s.takeTurn).finish) := by
  rcases step_cases s with ⟨_, e, -⟩ | ⟨-, e, -⟩ | ⟨-, -, hs, e⟩ |
    ⟨-, -, hs, ⟨hn, e⟩ | ⟨turns, hn, e⟩ | ⟨i, turns, hn, e⟩⟩
  · cases hh.symm.trans e
  · cases hk.symm.trans e
  · exact .inl ⟨hs, e⟩
  · exact .inr (.inl ⟨hs, by rw [e, takeTurn_of_nil hn]⟩)
  · exact .inr (.inl ⟨hs, by rw [e, State.takeTurn, hn, List.tail_cons]⟩)
  · exact .inr (.inr ⟨hs, i, by rw [e, State.takeTurn, hn, List.tail_cons]⟩)

/-- Work that never faults, and is refused only in a case that is ruled out, ends in a next state. -/
theorem finish_next_of_sat {P : Unit → State → Prop} {Q : State → Prop} {R : Prop} {x : Flow Unit}
    (hx : Sat P Q R x) (hR : ¬ R) : ∃ t, x.finish = .next t := by
  rcases hx.finish with ⟨t, e, -⟩ | ⟨-, -, hr⟩
  · exact ⟨t, e⟩
  · exact absurd hr hR

/-- An instruction step of a running machine ends in a next state unless the next id is the reserved one (I8). -/
theorem engineStep_next {s : State} (hs : Run s) (hid : s.nextPid ≠ s.cfg.idlePid) : ∃ t, engineStep s = .next t := by
  rcases engineStep_cases s with ⟨_, -, -, -, e⟩ | ⟨-, _, -, e⟩ | ⟨-, i, -, e⟩
  · exact ⟨_, e⟩
  · exact ⟨_, e⟩
  · have hadvanced : Run (s.addTicks Config.instrTicks).advancePc := (hs.addTicks _).setReg _ _
    rcases exec_run i hadvanced with ⟨t, et, -⟩ | ⟨_, -, hr⟩
    · exact ⟨t, e.trans et⟩
    · exact absurd hr hid

/-- Settles O35: a boot duty, an instruction and an interrupt each end in a next state. -/
theorem runningMachineAlwaysSteps : Obligations.RunningMachineAlwaysSteps := by
  intro s hinv hh hk hid
  rcases step_running_cases hh hk with ⟨-, e⟩ | ⟨hs, e⟩ | ⟨hs, i, e⟩ <;> rw [e]
  · exact finish_next_of_sat (bootAction_inv hinv hh) hid
  · exact engineStep_next (run_takeTurn ⟨hinv, hh, hs⟩) hid
  · exact finish_next_of_sat (deliver_run i (run_takeTurn ⟨hinv, hh, hs⟩)) not_false

/-! ### The stack pointer and its window -/

/-- SP inside `[BASE, LIM]` (R139). -/
def SpInWindow (x : Regs) : Prop := signed x.base ≤ signed x.sp ∧ signed x.sp ≤ signed x.lim

/-- The clamped decrement leaves an SP of the window in it (R136, R139). -/
theorem spInWindow_lowerSp {x : Regs} (h : SpInWindow x) : SpInWindow x.lowerSp := by
  obtain ⟨hbase, hlim⟩ := h
  simp only [SpInWindow, lowerSp_base, lowerSp_lim, lowerSp_sp]
  split
  · rename_i hlt
    have hsp := signed_sub_one hlt
    omega
  · exact ⟨hbase, hlim⟩

/-- The clamped increment leaves an SP of the window in it (R137, R139). -/
theorem spInWindow_raiseSp {x : Regs} (h : SpInWindow x) : SpInWindow x.raiseSp := by
  obtain ⟨hbase, hlim⟩ := h
  simp only [SpInWindow, raiseSp_base, raiseSp_lim, raiseSp_sp]
  split
  · rename_i hlt
    have hsp := signed_add_one hlt
    omega
  · exact ⟨hbase, hlim⟩

/-- An SP above BASE is lowered and raised back (R139). -/
theorem sp_raiseSp_lowerSp_above {x : Regs} (hbase : signed x.base < signed x.sp)
    (hlim : signed x.sp ≤ signed x.lim) : x.lowerSp.raiseSp.sp = x.sp := by
  have hsp := signed_sub_one hbase
  rw [raiseSp_sp, lowerSp_lim, lowerSp_sp, if_pos hbase, if_pos (by omega), BitVec.sub_add_cancel]

/-- An SP at BASE is not lowered, but raised all the same (R139). -/
theorem sp_raiseSp_lowerSp_at_base {x : Regs} (hbase : x.sp = x.base) (hlim : signed x.base < signed x.lim) :
    x.lowerSp.raiseSp.sp = x.base + 1 := by
  rw [raiseSp_sp, lowerSp_lim, lowerSp_sp, hbase, if_neg (lt_irrefl _), if_pos hlim]

/-! ### PUSH and POP -/

/-- A push that finishes was one that passes its check (R136). -/
theorem pushed_of_push_go {v : Word} {s t : State} (h : push v s = .go () t) : t = s.pushed v := by
  rw [push_eq] at h
  split at h <;> cases h
  rfl

/-- A pop that finishes was one that passes its check (R137). -/
theorem popped_of_pop_go {v : Word} {s t : State} (h : pop s = .go v t) : t = s.popped := by
  rw [pop_eq] at h
  split at h <;> cases h
  rfl

/-- With SP in a window that lies in memory a push passes its check (R136, R139). -/
theorem canPush_of_spInWindow {s : State} (h : SpInWindow s.regs) (hbase : 0 ≤ signed s.regs.base)
    (hlim : signed s.regs.lim < s.cfg.memSize) : s.canPush := by
  obtain ⟨hlo, hhi⟩ := spInWindow_lowerSp h
  rw [lowerSp_base] at hlo
  rw [lowerSp_lim] at hhi
  exact (allows_iff _ _).2 ⟨hlo, hhi, hbase.trans hlo, hhi.trans_lt hlim⟩

/-- PUSH that passes its check (R190). -/
theorem exec_push_ok {r : Reg} {s : State} (h : s.canPush) : exec (.push r) s = .next (s.pushed (s.reg r)) := by
  simp only [exec, execPush, push_pushed h, finish_go]

/-- POP that passes its check (R191). -/
theorem exec_pop_ok {d : Reg} {s : State} (h : s.canPop) : exec (.pop d) s = .next (s.popped.setReg d s.top) := by
  simp only [exec, execPop, pop_popped h, andThen_go, finish_go]

/-- What was just pushed can be popped (R139). -/
theorem canPop_pushed {v : Word} {s : State} (h : s.canPush) : (s.pushed v).canPop :=
  (allows_lowerSp s _).trans h

/-- The word just pushed is on top (R139). -/
theorem top_pushed {v : Word} {s : State} (h : s.mem.wf = true) : (s.pushed v).top = v :=
  readWord_writeWord_same _ _ h

/-- PUSH then POP: the destination gets the pushed word, and SP, unless it is the destination, is lowered and raised
(R139). -/
theorem exec_push_pop {r d : Reg} {s : State} (hwf : s.mem.wf = true) (h : s.canPush) :
    ∃ u, exec (.push r) s = .next (s.pushed (s.reg r)) ∧ exec (.pop d) (s.pushed (s.reg r)) = .next u ∧
      u.reg d = s.reg r ∧ (d ≠ .sp → u.regs.sp = s.regs.lowerSp.raiseSp.sp) := by
  refine ⟨_, exec_push_ok h, exec_pop_ok (canPop_pushed h), ?_, fun hd => get_set_other _ _ (Ne.symm hd)⟩
  rw [reg_setReg, if_pos rfl, top_pushed hwf]

/-- Settles O25, from the clamped moves of SP and from PUSH followed by POP. -/
theorem stackPointerStaysInTheWindow : Obligations.StackPointerStaysInTheWindow := by
  refine ⟨fun v s t h hbase hlim => ?_, fun v s t h hbase hlim => ?_, fun r d s hwf hsp hlim h0 hmem => ?_,
    fun r d s hwf hsp hlim h0 hmem => ?_⟩
  · rw [pushed_of_push_go h]
    exact spInWindow_lowerSp ⟨hbase, hlim⟩
  · rw [popped_of_pop_go h]
    exact spInWindow_raiseSp ⟨hbase, hlim⟩
  · obtain ⟨u, hpush, hpop, hd, hu⟩ := exec_push_pop (r := r) (d := d) hwf
      (canPush_of_spInWindow ⟨hsp.le, hlim⟩ h0 hmem)
    exact ⟨_, u, hpush, hpop, hd, fun hne => (hu hne).trans (sp_raiseSp_lowerSp_above hsp hlim)⟩
  · obtain ⟨u, hpush, hpop, hd, hu⟩ := exec_push_pop (r := r) (d := d) hwf
      (canPush_of_spInWindow ⟨hsp ▸ le_refl _, hsp ▸ hlim.le⟩ h0 hmem)
    have hstore : s.regs.lowerSp.sp = s.regs.base := by rw [lowerSp_sp, hsp, if_neg (lt_irrefl _)]
    refine ⟨_, u, hpush, ?_, hpop, hd, fun hne => (hu hne).trans (sp_raiseSp_lowerSp_at_base hsp hlim)⟩
    rw [← hstore]
    exact top_pushed hwf

/-! ### The PCB-scoped push -/

/-- The clamped decrement changes SP alone (R136). -/
theorem lowerSp_eq (x : Regs) :
    x.lowerSp = { x with sp := if signed x.base < signed x.sp then x.sp - 1 else x.sp } := by
  unfold Regs.lowerSp
  split <;> rfl

/-- The SP of the copy `x` saved with `ref` is lowered there (R138). -/
def lowerSaved (s : State) (ref : Nat) (x : Regs) : State :=
  s.updatePcb ref fun p => { p with regs := some x.lowerSp }

/-- Onto a process that is not current the push lowers the saved SP, checks it against the saved window, and stores there
or halts (R138). -/
theorem pcbPush_of_saved {s : State} {ref : Nat} {p : PCB} {x : Regs} {v : Word} (hcur : s.cur ≠ some ref)
    (hf : s.findPcb ref = some p) (hx : p.regs = some x) :
    pcbPush ref v s = if windowAllows x.base x.lim s.cfg.memSize x.lowerSp.sp
      then .go () ((lowerSaved s ref x).memWrite x.lowerSp.sp v)
      else raise (.illegalMemoryAccess x.lowerSp.sp) (lowerSaved s ref x) := by
  simp only [pcbPush, if_neg hcur, hf, Option.bind_some, hx, lowerSaved]

/-- Lowering a saved SP changes the one PCB (R138). -/
theorem findPcb_lowerSaved (s : State) (ref q : Nat) (x : Regs) :
    (lowerSaved s ref x).findPcb q =
      if q = ref then (s.findPcb ref).map fun p => { p with regs := some x.lowerSp } else s.findPcb q :=
  findPcb_updatePcb (f := fun p => { p with regs := some x.lowerSp }) ref (fun _ => rfl) q

/-- Settles O24: both outcomes of the check on the saved window, the engine's push for the current process. -/
theorem pcbPushUsesTheSavedRegisters : Obligations.PcbPushUsesTheSavedRegisters := by
  intro s p x v a hf
  refine ⟨fun hcur => if_pos hcur, fun hcur hx ha => ?_⟩
  rw [← lowerSp_sp] at ha
  have hlower : x.lowerSp = { x with sp := a } := by rw [ha, lowerSp_sp, ← lowerSp_eq]
  rw [← windowAllows_iff, pcbPush_of_saved hcur hf hx, ← ha]
  refine ⟨fun hok => ⟨_, if_pos hok, rfl, ?_, fun r hr => ?_, fun hwf => ?_, fun n hn => ?_⟩,
    fun hbad => ⟨_, if_neg hbad, rfl, rfl, rfl, rfl⟩⟩
  · exact (findPcb_lowerSaved s p.ref p.ref x).trans (by rw [if_pos rfl, hf, hlower]; rfl)
  · exact (findPcb_lowerSaved s p.ref r x).trans (if_neg hr)
  · exact readWord_writeWord_same _ _ hwf
  · exact readByte_writeWord_other _ _ hn

end Sys2Proof.Proofs

/-! ## The ALU (41_alu.md): the proofs

The illegal register fields, the one shape of an instruction that writes one register, DIV's quotient, and the frame of
the instructions that store nothing; each statement stands after the lemmas it needs. -/

namespace Sys2Proof.Proofs

open Sys2Proof.Machine Sys2Proof.Laws

/-! ### Illegal register fields -/

/-- A tuple one of whose register fields is outside 0..8 does not decode (R104). -/
theorem decode_error_of_regFields {t : Tuple} {fs : List Word} (hf : t.regFields = some fs)
    (h : ¬ ∀ w ∈ fs, regField w = true) : ∃ e, decode t = .error e := by
  rcases decodesByLegality t with ⟨i, -, hlegal, -⟩ | ⟨e, he, -⟩
  · exact absurd (by simpa [Tuple.legal, hf] using hlegal) h
  · exact ⟨e, he⟩

/-! ### Writing one register -/

/-- Work that ends in the state with one register written has written that register and changed nothing else (R33). -/
theorem one_register_written {o : Host.Outcome State Fault Refusal} {s : State} {d : Reg} {v : Word}
    (h : o = .next (s.setReg d v)) :
    ∃ t, o = .next t ∧ t.reg d = v ∧ (∀ r, r ≠ d → t.reg r = s.reg r) ∧ t = { s with regs := t.regs } :=
  ⟨_, h, get_set_same _ _ _, fun _ hr => get_set_other _ _ hr, rfl⟩

/-- Settles O9: SET is decoded from its one register field, and its body writes one register. -/
theorem setWritesItsImmediate : Obligations.SetWritesItsImmediate :=
  ⟨fun d k x => decode1_index 0 k x d fun d => .set d k,
    fun _ _ _ h => decode_error_of_regFields rfl (by simpa using h), fun _ _ _ => one_register_written rfl⟩

/-- Settles O10: the body of ADD writes one register, the word law of the sum (R156). -/
theorem addWritesTheWrappedSum : Obligations.AddWritesTheWrappedSum :=
  ⟨fun d a b => decode3_index 1 d a b .add,
    fun _ _ _ h => decode_error_of_regFields rfl (by simpa using h), fun _ _ _ _ => one_register_written rfl⟩

/-- Settles O11: the body of SUB writes one register, the word law of the difference (R156). -/
theorem subWritesTheWrappedDifference : Obligations.SubWritesTheWrappedDifference :=
  ⟨fun d a b => decode3_index 2 d a b .sub,
    fun _ _ _ h => decode_error_of_regFields rfl (by simpa using h), fun _ _ _ _ => one_register_written rfl⟩

/-- Settles O12: the body of MUL writes one register, the word law of the product (R156). -/
theorem mulWritesTheWrappedProduct : Obligations.MulWritesTheWrappedProduct :=
  ⟨fun d a b => decode3_index 3 d a b .mul,
    fun _ _ _ h => decode_error_of_regFields rfl (by simpa using h), fun _ _ _ _ => one_register_written rfl⟩

/-- Settles O15: the body of COPY writes one register, the source's word. -/
theorem copyWritesItsSource : Obligations.CopyWritesItsSource :=
  ⟨fun d a x => decode2_index 5 x d a .copy,
    fun _ _ _ h => decode_error_of_regFields rfl (by simpa using h), fun _ _ _ => one_register_written rfl⟩

/-! ### DIV -/

/-- DIV by zero halts (R154). -/
theorem exec_div_zero {d a b : Reg} {s : State} (h : s.reg b = 0) : exec (.div d a b) s = .next (s.halt .divideByZero) :=
  if_pos h

/-- DIV by anything else writes the word law of the quotient (R154). -/
theorem exec_div_ok {d a b : Reg} {s : State} (h : s.reg b ≠ 0) :
    exec (.div d a b) s = .next (s.setReg d (aluDiv (s.reg a) (s.reg b))) :=
  if_neg h

/-- Settles O13: DIV halts on a zero divisor, else its body writes one register, the word law of the quotient (R156). -/
theorem divWritesTheQuotientOrHalts : Obligations.DivWritesTheQuotientOrHalts :=
  ⟨fun d a b => decode3_index 4 d a b .div,
    fun _ _ _ h => decode_error_of_regFields rfl (by simpa using h),
    fun _ _ _ _ => exec_div_zero, fun _ _ _ _ h => one_register_written (exec_div_ok h)⟩

/-- The quotient toward zero is the quotient of the magnitudes with the sign of the operands (R157). -/
theorem tdiv_eq_sign_mul_div (n d : Int) : Int.tdiv n d = n.sign * d.sign * ((n.natAbs / d.natAbs : Nat) : Int) := by
  have hmag : (Int.tdiv n d).natAbs = n.natAbs / d.natAbs := Int.natAbs_tdiv n d
  rw [← Int.sign_mul_natAbs (Int.tdiv n d), hmag, Int.sign_tdiv]
  split
  case isTrue hlt => rw [Nat.div_eq_of_lt hlt, Nat.cast_zero, mul_zero, mul_zero]
  case isFalse => rfl

/-- A quotient of two words stays below `2^31`, but for `-2^31 / -1` (R157). -/
theorem tdiv_signed_lt {a b : Word} (h : ¬(signed a = -2147483648 ∧ signed b = -1)) :
    Int.tdiv (signed a) (signed b) < 2147483648 := by
  have hlo := signed_lo a
  have hhi := signed_hi a
  have hmag : (Int.tdiv (signed a) (signed b)).natAbs = (signed a).natAbs / (signed b).natAbs := Int.natAbs_tdiv _ _
  have hmul := Nat.div_mul_le_self (signed a).natAbs (signed b).natAbs
  by_contra hge
  have hdivisor : (signed b).natAbs ≤ 1 := by
    rw [← hmag] at hmul
    by_contra hb
    have := Nat.mul_le_mul_left (Int.tdiv (signed a) (signed b)).natAbs (Nat.not_le.1 hb)
    omega
  obtain hb | hb | hb : signed b = -1 ∨ signed b = 0 ∨ signed b = 1 := by omega
  · simp only [hb, Int.tdiv_neg, Int.tdiv_one] at hge
    omega
  · simp only [hb, Int.tdiv_zero] at hge
    omega
  · simp only [hb, Int.tdiv_one] at hge
    omega

/-- The word law of the quotient is exact but for the one quotient that does not fit, which wraps to `-2^31` (R157). -/
theorem signed_aluDiv (a b : Word) :
    signed (aluDiv a b) = if signed a = -2147483648 ∧ signed b = -1 then -2147483648
      else (signed a).sign * (signed b).sign * (((signed a).natAbs / (signed b).natAbs : Nat) : Int) := by
  split
  case isTrue h =>
    obtain ⟨ha, hb⟩ := h
    rw [aluDiv, ha, hb]
    decide
  case isFalse h =>
    have hlo := signed_lo a
    have hhi := signed_hi a
    have hle := Int.natAbs_tdiv_le_natAbs (signed a) (signed b)
    rw [aluDiv, signed_wrap _ (by omega) (tdiv_signed_lt h), tdiv_eq_sign_mul_div]

/-- Settles O14: DIV writes the word law of the quotient, which R157 computes. -/
theorem divQuotientAtEverySignCombination : Obligations.DivQuotientAtEverySignCombination := by
  intro d a b s hb
  refine ⟨_, exec_div_ok hb, ?_⟩
  rw [reg_setReg, if_pos rfl]
  exact signed_aluDiv _ _

/-! ### The frame of the instructions that store nothing -/

/-- POP whose check fails halts with nothing else changed (R137, R191). -/
theorem exec_pop_bad {d : Reg} {s : State} (h : s.allows s.regs.sp = false) :
    exec (.pop d) s = .next (s.halt (.illegalMemoryAccess s.regs.sp)) := by
  simp only [exec, execPop, pop_bad h, andThen_raise, finish_raise]

/-- From `s` to `t` only registers of `W` were written, or the machine halted with nothing else changed. -/
def WritesOnly (W : Set Reg) (s t : State) : Prop :=
  (∃ x : Regs, t = { s with regs := x } ∧ ∀ r ∉ W, x.get r = s.reg r) ∨ ∃ h, t = s.halt h

section Frame

variable {W : Set Reg} {s t : State}

theorem WritesOnly.mem (h : WritesOnly W s t) : t.mem = s.mem := by
  rcases h with ⟨x, rfl, -⟩ | ⟨r, rfl⟩ <;> rfl

theorem WritesOnly.reg (h : WritesOnly W s t) {r : Reg} (hr : r ∉ W) : t.reg r = s.reg r := by
  rcases h with ⟨x, rfl, hx⟩ | ⟨_, rfl⟩
  · exact hx r hr
  · rfl

theorem WritesOnly.frame (h : WritesOnly W s t) :
    t = { s with regs := t.regs } ∨ ∃ h, t = { s with out := s.out ++ [.diagnostic h], halted := some h } := by
  rcases h with ⟨x, rfl, -⟩ | ⟨r, rfl⟩
  · exact .inl rfl
  · exact .inr ⟨r, rfl⟩

theorem writesOnly_refl : WritesOnly W s s := .inl ⟨_, rfl, fun _ _ => rfl⟩

theorem writesOnly_halt (h : HaltReason) : WritesOnly W s (s.halt h) := .inr ⟨h, rfl⟩

theorem writesOnly_setReg {d : Reg} (v : Word) (hd : d ∈ W) : WritesOnly W s (s.setReg d v) :=
  .inl ⟨_, rfl, fun _ hr => get_set_other _ _ (ne_of_mem_of_not_mem hd hr).symm⟩

/-- Work that ends in the state with one register written writes that register alone. -/
theorem writesOnly_of_next_setReg {d : Reg} {v : Word} (hd : d ∈ W)
    (h : (.next (s.setReg d v) : Host.Outcome State Fault Refusal) = .next t) : WritesOnly W s t := by
  cases h; exact writesOnly_setReg v hd

/-- A branch, taken or not, writes at most PC (R173, R174). -/
theorem writesOnly_takeBranch {k : Word} (hpc : .pc ∈ W) (h : (takeBranch k s).finish = .next t) : WritesOnly W s t := by
  rcases check_andThen_next h with rfl | ⟨-, e⟩
  · exact writesOnly_halt _
  · cases e; exact writesOnly_setReg _ hpc

/-- A branch under a condition writes at most PC (R171, R172). -/
theorem writesOnly_takeBranch_if {c : Bool} {k : Word} (hpc : .pc ∈ W)
    (h : (if c then (takeBranch k s).finish else .next s) = .next t) : WritesOnly W s t := by
  cases c with
  | false => cases h; exact writesOnly_refl
  | true => exact writesOnly_takeBranch hpc h

/-- DIV writes at most its destination (R154). -/
theorem writesOnly_div {d a b : Reg} (hd : d ∈ W) (h : exec (.div d a b) s = .next t) : WritesOnly W s t := by
  by_cases hb : s.reg b = 0
  · cases (exec_div_zero hb).symm.trans h; exact writesOnly_halt _
  · cases (exec_div_ok hb).symm.trans h; exact writesOnly_setReg _ hd

/-- POP writes at most SP and its destination (R191). -/
theorem writesOnly_pop {d : Reg} (hsp : .sp ∈ W) (hd : d ∈ W) (h : exec (.pop d) s = .next t) : WritesOnly W s t := by
  cases ha : s.allows s.regs.sp with
  | true =>
    cases (exec_pop_ok ha).symm.trans h
    refine .inl ⟨s.regs.raiseSp.set d s.top, rfl, fun r hr => ?_⟩
    calc (s.regs.raiseSp.set d s.top).get r
      _ = s.regs.raiseSp.get r := get_set_other _ _ (ne_of_mem_of_not_mem hd hr).symm
      _ = s.regs.get r := raiseSp_get _ (ne_of_mem_of_not_mem hsp hr).symm
  | false => cases (exec_pop_bad ha).symm.trans h; exact writesOnly_halt _

/-- LOAD writes at most its destination (R192). -/
theorem writesOnly_load {d o : Reg} (hd : d ∈ W) (h : exec (.load d o) s = .next t) : WritesOnly W s t := by
  rcases check_andThen_next h with rfl | ⟨-, e⟩
  · exact writesOnly_halt _
  · cases e; exact writesOnly_setReg _ hd

end Frame

/-- The registers the statement of the frame lets an instruction write: PC, its destination, and SP for POP. -/
def mayWrite (i : Instr) (dest : Option Reg) : Set Reg :=
  {r | r = .pc ∨ dest = some r ∨ (∃ d, i = .pop d) ∧ r = .sp}

/-- Settles O27: each of the eleven writes at most the registers it may write, or halts. -/
theorem nonStoringInstructionsFrame : Obligations.NonStoringInstructionsFrame := by
  intro i dest s t hi h
  have hdest {d : Reg} (e : dest = some d) : d ∈ mayWrite i dest := .inr (.inl e)
  have hpc : .pc ∈ mayWrite i dest := .inl rfl
  have hframe : WritesOnly (mayWrite i dest) s t := by
    rcases hi with ⟨d, k, rfl, e⟩ | ⟨d, a, b, rfl, e⟩ | ⟨d, a, b, rfl, e⟩ | ⟨d, a, b, rfl, e⟩ | ⟨d, a, b, rfl, e⟩ |
      ⟨d, a, rfl, e⟩ | ⟨k, rfl, -⟩ | ⟨a, b, k, rfl, -⟩ | ⟨a, b, k, rfl, -⟩ | ⟨d, rfl, e⟩ | ⟨d, o, rfl, e⟩
    exacts [writesOnly_of_next_setReg (hdest e) h, writesOnly_of_next_setReg (hdest e) h,
      writesOnly_of_next_setReg (hdest e) h, writesOnly_of_next_setReg (hdest e) h, writesOnly_div (hdest e) h,
      writesOnly_of_next_setReg (hdest e) h, writesOnly_takeBranch hpc h, writesOnly_takeBranch_if hpc h,
      writesOnly_takeBranch_if hpc h, writesOnly_pop (.inr (.inr ⟨⟨d, rfl⟩, rfl⟩)) (hdest e) h,
      writesOnly_load (hdest e) h]
  refine ⟨fun n => by rw [hframe.mem], fun r hr hd hsp => hframe.reg ?_, hframe.frame⟩
  rintro (e | e | ⟨hpop, e⟩)
  · exact hr e
  · exact hd e
  · exact hsp hpop e

end Sys2Proof.Proofs

/-! ## Control (42_control.md): the proofs

A branch taken, with its target checked, and the two conditions; then the three statements. -/

namespace Sys2Proof.Proofs

open Sys2Proof.Machine Sys2Proof.Laws

/-! ### A branch taken -/

/-- A taken branch whose target passes the check writes the target to PC (R173). -/
theorem takeBranch_ok {k : Word} {s : State} (h : s.allows (s.physical k) = true) :
    (takeBranch k s).finish = .next (s.setReg .pc (s.physical k)) := by
  simp only [takeBranch, check_ok h, andThen_go, finish_go]

/-- A taken branch whose target fails the check halts and leaves PC as it was advanced (R173, R174). -/
theorem takeBranch_bad {k : Word} {s : State} (h : s.allows (s.physical k) = false) :
    (takeBranch k s).finish = .next (s.halt (.illegalMemoryAccess (s.physical k))) := by
  simp only [takeBranch, check_bad h, andThen_raise, finish_raise]

/-! ### The conditions -/

/-- BNE on two different words is a taken branch (R171). -/
theorem exec_bne_taken {r q : Reg} {k : Word} {s : State} (h : s.reg r ≠ s.reg q) :
    exec (.bne r q k) s = (takeBranch k s).finish :=
  if_pos (decide_eq_true h)

/-- BNE on two equal words changes nothing and checks nothing (R171). -/
theorem exec_bne_not_taken {r q : Reg} {k : Word} {s : State} (h : s.reg r = s.reg q) : exec (.bne r q k) s = .next s :=
  if_neg (by simp [condNe, h])

/-- BLT on a first word that is less, signed, is a taken branch (R172). -/
theorem exec_blt_taken {r q : Reg} {k : Word} {s : State} (h : signed (s.reg r) < signed (s.reg q)) :
    exec (.blt r q k) s = (takeBranch k s).finish :=
  if_pos (decide_eq_true h)

/-- BLT on a first word that is not less, signed, changes nothing and checks nothing (R172). -/
theorem exec_blt_not_taken {r q : Reg} {k : Word} {s : State} (h : ¬ signed (s.reg r) < signed (s.reg q)) :
    exec (.blt r q k) s = .next s :=
  if_neg (by simpa [condLt] using h)

/-! ### The statements -/

/-- Settles O17: BRANCH is decoded whatever its ignored words, and is a taken branch in every state. -/
theorem branchGoesToItsCheckedTarget : Obligations.BranchGoesToItsCheckedTarget := by
  refine ⟨fun _ _ _ => rfl, ?_⟩
  rintro k _ s rfl
  exact ⟨takeBranch_ok, takeBranch_bad⟩

/-- Settles O18: BNE is a taken branch on different words, and nothing on equal ones. -/
theorem bneBranchesWhenTheWordsDiffer : Obligations.BneBranchesWhenTheWordsDiffer := by
  refine ⟨fun r q k => decode2_index 7 k r q fun a b => .bne a b k,
    fun _ _ _ h => decode_error_of_regFields rfl (by simpa using h), ?_⟩
  rintro r q k _ s rfl
  exact ⟨exec_bne_not_taken, fun hne ha => (exec_bne_taken hne).trans (takeBranch_ok ha),
    fun hne ha => (exec_bne_taken hne).trans (takeBranch_bad ha)⟩

/-- Settles O19: BLT is a taken branch when the first word is less, signed, and nothing otherwise. -/
theorem bltBranchesWhenSignedLess : Obligations.BltBranchesWhenSignedLess := by
  refine ⟨fun r q k => decode2_index 8 k r q fun a b => .blt a b k,
    fun _ _ _ h => decode_error_of_regFields rfl (by simpa using h), ?_⟩
  rintro r q k _ s rfl
  exact ⟨exec_blt_not_taken, fun hlt ha => (exec_blt_taken hlt).trans (takeBranch_ok ha),
    fun hlt ha => (exec_blt_taken hlt).trans (takeBranch_bad ha)⟩

end Sys2Proof.Proofs

/-! ## The stack and memory instructions (43_stack_memory.md): the proofs

The outcomes of PUSH, LOAD and SAVE whose check fails, next to those that pass it; then the five statements. -/

namespace Sys2Proof.Proofs

open Sys2Proof.Machine Sys2Proof.Laws

/-! ### The failing checks -/

/-- PUSH whose check fails halts with SP's move kept and nothing else changed (R136, R190). -/
theorem exec_push_bad {r : Reg} {s : State} (h : s.allows s.regs.lowerSp.sp = false) :
    exec (.push r) s = .next ({ s with regs := s.regs.lowerSp }.halt (.illegalMemoryAccess s.regs.lowerSp.sp)) := by
  simp only [exec, execPush, push_bad h, finish_raise]

/-- LOAD from an address that fails the check halts and writes no register (R192). -/
theorem exec_load_bad {d o : Reg} {s : State} (h : s.allows (s.physical (s.reg o)) = false) :
    exec (.load d o) s = .next (s.halt (.illegalMemoryAccess (s.physical (s.reg o)))) := by
  simp only [exec, execLoad, check_bad h, andThen_raise, finish_raise]

/-- SAVE at an address that fails the check halts and does not write memory (R193). -/
theorem exec_save_bad {r o : Reg} {s : State} (h : s.allows (s.physical (s.reg o)) = false) :
    exec (.save r o) s = .next (s.halt (.illegalMemoryAccess (s.physical (s.reg o)))) := by
  simp only [exec, execSave, check_bad h, andThen_raise, finish_raise]

/-! ### The statements -/

/-- Settles O20: both outcomes of the check on the lowered SP; the source is read in the state before. -/
theorem pushStoresAtTheClampedStackPointer : Obligations.PushStoresAtTheClampedStackPointer := by
  refine ⟨fun r x y => decode1_index 10 x y r .push,
    fun _ _ _ h => decode_error_of_regFields rfl (by simpa using h), ?_⟩
  intro r a s ha
  have hlower : { s.regs with sp := a } = s.regs.lowerSp := by rw [ha, lowerSp_eq]
  rw [← lowerSp_sp] at ha
  subst ha
  rw [hlower]
  exact ⟨fun hok => ⟨_, exec_push_ok hok, rfl, fun hwf => readWord_writeWord_same _ _ hwf,
    fun _ hn => readByte_writeWord_other _ _ hn, rfl⟩, exec_push_bad⟩

/-- Settles O23: both outcomes of the check on the effective address; a SAVE that passes it is one store. -/
theorem saveWritesTheCheckedWord : Obligations.SaveWritesTheCheckedWord := by
  refine ⟨fun r o x => decode2_index 12 x r o .save,
    fun _ _ _ h => decode_error_of_regFields rfl (by simpa using h), ?_⟩
  rintro r o _ s rfl
  exact ⟨fun hok => ⟨_, exec_save_ok hok, fun hwf => readWord_writeWord_same _ _ hwf,
    fun _ hn => readByte_writeWord_other _ _ hn, rfl⟩, exec_save_bad⟩

/-- Settles O28: PUSH and SAVE each stored one word or halted, as their check went. -/
theorem storingInstructionsFrame : Obligations.StoringInstructionsFrame := by
  refine ⟨fun r s t h => ?_, fun r o s t h => ?_⟩
  · rw [← lowerSp_sp]
    cases hcheck : s.allows s.regs.lowerSp.sp with
    | true =>
      cases (exec_push_ok hcheck).symm.trans h
      exact ⟨fun _ hn => readByte_writeWord_other _ _ hn, fun _ hq => lowerSp_get _ hq, .inl rfl⟩
    | false =>
      cases (exec_push_bad hcheck).symm.trans h
      exact ⟨fun _ _ => rfl, fun _ hq => lowerSp_get _ hq, .inr ⟨_, rfl⟩⟩
  · cases hcheck : s.allows (s.physical (s.reg o)) with
    | true =>
      cases (exec_save_ok hcheck).symm.trans h
      exact ⟨fun _ hn => readByte_writeWord_other _ _ hn, .inl rfl⟩
    | false =>
      cases (exec_save_bad hcheck).symm.trans h
      exact ⟨fun _ _ => rfl, .inr ⟨_, rfl⟩⟩

/-- Settles O21: both outcomes of the check on SP; the destination is written last, over the raised SP if it is SP. -/
theorem popReadsThenRaisesTheStackPointer : Obligations.PopReadsThenRaisesTheStackPointer :=
  ⟨fun d x y => decode1_index 9 x y d .pop, fun _ _ _ h => decode_error_of_regFields rfl (by simpa using h),
    fun _ _ => ⟨fun hok => ⟨_, exec_pop_ok hok, get_set_same _ _ _,
      fun hd => (get_set_other _ _ hd.symm).trans (raiseSp_sp _),
      fun _ hr hsp => (get_set_other _ _ hr).trans (raiseSp_get _ hsp), rfl⟩, exec_pop_bad⟩⟩

/-- Settles O22: both outcomes of the check on the effective address; a LOAD that passes it writes one register. -/
theorem loadReadsTheCheckedWord : Obligations.LoadReadsTheCheckedWord := by
  refine ⟨fun d o x => decode2_index 11 x d o .load,
    fun _ _ _ h => decode_error_of_regFields rfl (by simpa using h), ?_⟩
  rintro d o _ s rfl
  exact ⟨fun hok => one_register_written (exec_load_ok hok), exec_load_bad⟩

end Sys2Proof.Proofs

/-! ## The process system calls (44_trap_syscalls.md): the proofs

TRAP's two outcomes and its dispatch, what the scheduler decides in the cases the calls need, and what EXEC loads; then
the seven statements. -/

namespace Sys2Proof.Proofs

open Sys2Proof.Machine Sys2Proof.Laws

/-! ### TRAP -/

/-- TRAP whose number fails the check of its pop halts with nothing else changed (R211). -/
theorem exec_trap_bad {s : State} (h : s.allows s.regs.sp = false) :
    exec .trap s = .next (s.halt (.illegalMemoryAccess s.regs.sp)) := by
  simp only [exec, execTrap, systemCall, pop_bad h, andThen_raise, finish_raise]

/-- A number above 9 is popped and nothing more (R214). -/
theorem systemCall_unrecognised {s : State} (h : s.canPop) (hn : 9 < s.top.toNat) : systemCall s = .go () s.popped := by
  obtain ⟨n, hn⟩ := Nat.exists_eq_add_of_le' hn
  rw [systemCall_popped h, hn]
  rfl

/-- A word read as a number outside 0..9 is above 9 when read unsigned: a negative one is at least `2^31` (R8). -/
theorem nine_lt_toNat {w : Word} (h : ¬(0 ≤ signed w ∧ signed w ≤ 9)) : 9 < w.toNat := by
  by_contra hle
  have hw : signed w = w.toNat := by simpa using signed_ofNat (n := w.toNat) (by omega)
  omega

/-! A number that can be popped is dispatched on the popped state (R211). -/

section Dispatch

variable {s : State} (h : s.canPop)
include h

theorem exec_trap_exit (hn : s.top = 0) : exec .trap s = (sysExit s.popped).finish :=
  congrArg Flow.finish ((systemCall_popped h).trans (by rw [hn]; rfl))

theorem exec_trap_output (hn : s.top = 1) : exec .trap s = (sysOutput s.popped).finish :=
  congrArg Flow.finish ((systemCall_popped h).trans (by rw [hn]; rfl))

theorem exec_trap_getpid (hn : s.top = 2) : exec .trap s = (sysGetpid s.popped).finish :=
  congrArg Flow.finish ((systemCall_popped h).trans (by rw [hn]; rfl))

theorem exec_trap_exec (hn : s.top = 7) : exec .trap s = (sysExec s.popped).finish :=
  congrArg Flow.finish ((systemCall_popped h).trans (by rw [hn]; rfl))

theorem exec_trap_yield (hn : s.top = 8) : exec .trap s = (schedule s.popped).finish :=
  congrArg Flow.finish ((systemCall_popped h).trans (by rw [hn]; rfl))

theorem exec_trap_coredump (hn : s.top = 9) : exec .trap s = (sysCoredump s.popped).finish :=
  congrArg Flow.finish ((systemCall_popped h).trans (by rw [hn]; rfl))

end Dispatch

/-! ### OUTPUT and GETPID -/

/-- OUTPUT that passes its check emits the top word (R216). -/
theorem sysOutput_ok {s : State} (h : s.canPop) : sysOutput s = .go () (s.popped.emit (.output s.top)) := by
  simp only [sysOutput, pop_popped h, andThen_go]

/-- OUTPUT that fails its check halts (R216). -/
theorem sysOutput_bad {s : State} (h : ¬ s.canPop) : sysOutput s = raise (.illegalMemoryAccess s.regs.sp) s := by
  simp only [sysOutput, pop_bad (Bool.eq_false_of_not_eq_true h), andThen_raise]

/-- GETPID is the push of the current process's id (R217). -/
theorem sysGetpid_push {s : State} {c : PCB} (h : s.curPcb = some c) : sysGetpid s = push (BitVec.ofNat 32 c.pid) s :=
  withCurrent_some h

/-! ### What the scheduler decides -/

/-- The current process scores the bonus on top of its average (R261). -/
theorem score_current {s : State} {p : PCB} (h : s.cur = some p.ref) : s.score p = p.avgStarve + 200 := by
  rw [State.score, if_pos h]
  rfl

/-- Any other process scores its average (R261). -/
theorem score_other {s : State} {p : PCB} (h : s.cur ≠ some p.ref) : s.score p = p.avgStarve := by
  rw [State.score, if_neg h, add_zero]

/-- With a process ready, some ready process is selected (R260). -/
theorem select_of_ready {s : State} {p : PCB} (hp : s.Ready p) : ∃ b, s.select s.candidates = some b ∧ s.Ready b := by
  cases hb : s.select s.candidates with
  | none => exact absurd (mem_candidates.2 hp) (by simp [select_none hb])
  | some b => exact ⟨b, rfl, mem_candidates.1 (select_some hb).1⟩

/-- A ready current process that no ready one beats by more than the bonus stays selected: at a tie it is preferred
(R261). -/
theorem select_current {s : State} {b c : PCB} (hb : s.select s.candidates = some b) (hc : s.Ready c)
    (hcur : s.cur = some c.ref) (hmax : ∀ q, s.Ready q → q.avgStarve ≤ c.avgStarve + 200) : s.cur = some b.ref := by
  obtain ⟨hmem, -, hsel⟩ := select_some hb
  rcases hsel with h | ⟨hlt, -⟩
  · exact h
  · by_contra hne
    have hbeaten := hlt c (mem_candidates.2 hc) hcur
    rw [score_current hcur, score_other hne] at hbeaten
    exact absurd (hmax b (mem_candidates.1 hmem)) (not_le.2 hbeaten)

/-- With no process left the run ends (R260). -/
theorem schedule_of_empty {s : State} (h : s.procs = []) : schedule s = raise .noProcesses s := by
  simp only [schedule, h, List.isEmpty_nil, if_true]

/-- The table is not empty when a process is ready. -/
theorem isEmpty_of_ready {s : State} {p : PCB} (h : s.Ready p) : s.procs.isEmpty = false :=
  List.isEmpty_eq_false_iff.2 (List.ne_nil_of_mem h.1)

/-- A selected process runs on if it is the current one; else the machine switches to it (R260). -/
theorem schedule_of_select {s : State} {b : PCB} (h : s.select s.candidates = some b) :
    schedule s = if s.cur = some b.ref then .go () s else switchTo b.ref s := by
  have hready : s.Ready b := mem_candidates.1 (select_some h).1
  simp only [schedule, isEmpty_of_ready hready, h, Bool.false_eq_true, if_false]

/-- A switch to a saved process restores it and makes it current (R260, R257). -/
theorem switchTo_restored {s : State} {r : Nat} {p : PCB} {x : Regs} (hf : s.leaveCurrent.findPcb r = some p)
    (hx : p.regs = some x) (h0 : p.numReady ≠ 0) :
    switchTo r s = .go () { restored s.leaveCurrent r x with cur := some r } := by
  rw [switchTo, restoreContext_restored hf hx h0, andThen_go]

theorem leaveCurrent_of_none {s : State} (h : s.cur = none) : s.leaveCurrent = s := by
  simp only [State.leaveCurrent, h]

/-- With no process current and every one saved, the scheduler restores a ready one of the greatest average (R260,
R261). -/
theorem schedule_runs_most_starved {s : State} {p : PCB} (hs : Base none s) (hcur : s.cur = none) (hp : s.Ready p) :
    ∃ b x, s.Ready b ∧ (∀ q, s.Ready q → q.avgStarve ≤ b.avgStarve) ∧ b.regs = some x ∧
      schedule s = .go () { restored s b.ref x with cur := some b.ref } := by
  obtain ⟨b, hb, hready⟩ := select_of_ready hp
  have hscore (q : PCB) : s.score q = q.avgStarve := score_other (by simp [hcur])
  have hmax (q : PCB) (hq : s.Ready q) : q.avgStarve ≤ b.avgStarve := by
    simpa only [hscore] using (select_some hb).2.1 q (mem_candidates.2 hq)
  obtain ⟨hregs, h0⟩ := hs.saved b hready.1 (by simp)
  obtain ⟨x, hx⟩ := Option.isSome_iff_exists.1 hregs
  have hfind : s.leaveCurrent.findPcb b.ref = some b := by
    rw [leaveCurrent_of_none hcur]
    exact findPcb_of_mem hs.refsDistinct hready.1
  refine ⟨b, x, hready, hmax, hx, ?_⟩
  rw [schedule_of_select hb, if_neg (by simp [hcur]), switchTo_restored hfind hx h0, leaveCurrent_of_none hcur]

/-! ### EXIT and COREDUMP -/

/-- The state with process `c` removed and none current (R215). -/
def exited (s : State) (c : PCB) : State := { s with procs := s.procs.filter (fun q => q.ref != c.ref), cur := none }

/-- EXIT runs the scheduler on the state without the caller (R215). -/
theorem sysExit_exited {s : State} {c : PCB} (h : s.curPcb = some c) : sysExit s = schedule (exited s c) :=
  sysExit_schedule h

theorem ready_exited {s : State} {c p : PCB} : (exited s c).Ready p ↔ s.Ready p ∧ p.ref ≠ c.ref := by
  simp only [State.Ready, exited, List.mem_filter, bne_iff_ne]
  tauto

/-- Once the current process has exited, every process left is saved (R262). -/
theorem base_exited {s : State} {c : PCB} (h : Base s.cur s) (hc : s.cur = some c.ref) : Base none (exited s c) := by
  have hb : Base s.cur (exited s c) := (h.removePcbs fun q => q.ref != c.ref).setCur none
  refine { hb with saved := fun p hp _ => hb.saved p hp fun e => ?_ }
  have hne : p.ref ≠ c.ref := by simpa using (List.mem_filter.1 hp).2
  exact hne (Option.some.inj (e.symm.trans hc))

/-- The exit of the only process ends the run (R215, R260). -/
theorem schedule_exited_only {s : State} {c : PCB} (h : s.procs = [c]) :
    schedule (exited s c) = raise .noProcesses { s with procs := [], cur := none } := by
  have he : exited s c = { s with procs := [], cur := none } := by simp [exited, h]
  rw [he, schedule_of_empty rfl]

/-- A restore removes no process and adds none (R257). -/
theorem restored_refs (s : State) (r : Nat) (x : Regs) :
    (restored s r x).procs.map (fun p => p.ref) = s.procs.map fun p => p.ref :=
  updateFirst_map _ (fun p : PCB => p.addStarve (s.ticks + s.cfg.saveLoadTime - p.lastReady)) _ (fun _ => rfl) _

/-- The state after COREDUMP has emitted the registers and the three words it popped (R221). -/
def dumped (s : State) : State :=
  s.popped.popped.popped.emit (.coreDump s.regs s.top s.popped.top s.popped.popped.top)

@[simp] theorem emit_curPcb (s : State) (e : Event) : (s.emit e).curPcb = s.curPcb := rfl

@[simp] theorem dumped_curPcb (s : State) : (dumped s).curPcb = s.curPcb := by
  simp only [dumped, emit_curPcb, popped_curPcb]

@[simp] theorem dumped_procs (s : State) : (dumped s).procs = s.procs := by
  simp only [dumped, emit_procs, popped_procs]

/-- COREDUMP whose three words can be popped dumps, then exits (R221). -/
theorem sysCoredump_exited {s : State} {c : PCB} (hc : s.curPcb = some c) (h1 : s.canPop) (h2 : s.popped.canPop)
    (h3 : s.popped.popped.canPop) : sysCoredump s = schedule (exited (dumped s) c) := by
  have hexit : sysCoredump s = sysExit (dumped s) := by
    simp only [sysCoredump, pop_popped h1, pop_popped h2, pop_popped h3, andThen_go, dumped]
  exact hexit.trans (sysExit_exited ((dumped_curPcb s).trans hc))

/-- The exit of `c` after an event, field by field (R215). -/
theorem exited_emit (s : State) (e : Event) (c : PCB) : exited (s.emit e) c =
    { s with procs := s.procs.filter (fun q => q.ref != c.ref), cur := none, out := s.out ++ [e] } := rfl

/-! ### EXEC -/

/-- With no program registered EXEC halts (R219). -/
theorem sysExec_of_nil {s : State} (h : s.progs = []) : sysExec s = raise .noPrograms s := by
  rw [sysExec, h]
  rfl

/-- The least used programs are the registered ones no other has a smaller count than, with their places (R219). -/
theorem mem_leastUsed {progs : List Program} {P : Program} {n : Nat} :
    (P, n) ∈ leastUsed progs ↔ progs[n]? = some P ∧ ∀ Q ∈ progs, P.execCount ≤ Q.execCount := by
  simp only [leastUsed, List.mem_filter, List.mem_zipIdx_iff_getElem?, List.all_eq_true, decide_eq_true_eq]

/-- Where a program is registered, every draw picks one of the least used (R219). -/
theorem exists_chosen {progs : List Program} (h : progs ≠ []) (draw : Nat) :
    ∃ P n, (leastUsed progs)[draw % (leastUsed progs).length]? = some (P, n) := by
  have hpos : 0 < (leastUsed progs).length := List.length_pos_iff.2 (mt leastUsed_eq_nil h)
  exact ⟨_, _, List.getElem?_eq_getElem (Nat.mod_lt draw hpos)⟩

/-- The next draw is the first of the listed ones (R11). -/
theorem draw_of_cons {s : State} {v : Nat} {vs : List Nat} (h : s.draws = v :: vs) : s.draw.1 = v := by
  simp only [State.draw, h]

/-- The draw picks EXEC's program among the least used (R219, R11). -/
theorem sysExec_chosen {s : State} {P : Program} {n : Nat}
    (h : (leastUsed s.progs)[s.draw.1 % (leastUsed s.progs).length]? = some (P, n)) :
    sysExec s = createUserProcess P (s.draw.2.countExec n) := by
  unfold sysExec
  split
  · rename_i he
    simp [he] at h
  · rename_i p ps he
    rw [he, List.length_cons] at h
    simp only [State.choose, List.getD_eq_getElem?_getD, h, Option.getD_some]

/-- A program that fits is loaded, the current process saved first, unless its id would be the reserved one (R253). -/
theorem createUserProcess_fits {s : State} {P : Program} (hfit : s.fits P P.allocSize = true)
    (hid : s.nextPid ≠ s.cfg.idlePid) :
    createUserProcess P s = .go () (s.saveCurrent.install P P.allocSize s.nextPid) := by
  simp [createUserProcess, createProcess, hfit, hid]

/-- The fit test looks at the cursor and the memory size alone (R253). -/
theorem fits_congr {s t : State} {P : Program} {alloc : Nat} (hcfg : t.cfg = s.cfg)
    (hcursor : t.loadCursor = s.loadCursor) : t.fits P alloc = s.fits P alloc := by
  simp only [State.fits, hcfg, hcursor]

/-- The state in which EXEC saves the caller: the choice is drawn and program `n` counted (R219). -/
def execCounted (s : State) (n : Nat) : State := s.draw.2.countExec n

/-- The state after EXEC has loaded program `P` of place `n` (R219). -/
def execLoaded (s : State) (P : Program) (n : Nat) : State :=
  (execCounted s n).saveCurrent.install P P.allocSize s.nextPid

/-- EXEC loads the program the draw picks, when that fits (R219, R253). -/
theorem sysExec_loads {s : State} {P : Program} {n : Nat}
    (h : (leastUsed s.progs)[s.draw.1 % (leastUsed s.progs).length]? = some (P, n))
    (hfit : s.fits P P.allocSize = true) (hid : s.nextPid ≠ s.cfg.idlePid) :
    sysExec s = .go () (execLoaded s P n) := by
  have hcounted : s.draw.2.countExec n = execCounted s n := rfl
  have hpid : (execCounted s n).nextPid = s.nextPid := by simp [execCounted]
  rw [sysExec_chosen h, hcounted, createUserProcess_fits, hpid]
  · rfl
  · rwa [fits_congr (s := s) (by simp [execCounted]) (by simp [execCounted])]
  · simpa [execCounted] using hid

/-- TRAP with EXEC's number loads the program the draw picks, when that fits (R219). -/
theorem exec_trap_loads {s : State} {P : Program} {n : Nat} (h : s.canPop) (hn : s.top = 7)
    (hchosen : (leastUsed s.progs)[s.popped.draw.1 % (leastUsed s.progs).length]? = some (P, n))
    (hfit : s.fits P P.allocSize = true) (hid : s.nextPid ≠ s.cfg.idlePid) :
    exec .trap s = .next (execLoaded s.popped P n) := by
  rw [exec_trap_exec h hn, sysExec_loads (s := s.popped) hchosen hfit hid, finish_go]

/-! ### What a load leaves -/

section Install

variable (s : State) (P : Program) (alloc id : Nat)

@[simp] theorem install_ticks : (s.install P alloc id).ticks = s.ticks := by simp [State.install]
@[simp] theorem install_progs : (s.install P alloc id).progs = s.progs := by simp [State.install]
@[simp] theorem install_out : (s.install P alloc id).out = s.out := by simp [State.install]
@[simp] theorem install_halted : (s.install P alloc id).halted = s.halted := by simp [State.install]
@[simp] theorem install_mem : (s.install P alloc id).mem = s.mem.writeWords s.loadCursor P.words := by
  simp [State.install]
@[simp] theorem install_loadCursor : (s.install P alloc id).loadCursor = s.loadCursor + alloc - 1 + 4 := rfl
@[simp] theorem install_cur : (s.install P alloc id).cur = some s.nextRef := by simp [State.install]
@[simp] theorem install_procs : (s.install P alloc id).procs = s.procs ++ [PCB.new s.nextRef id] := by
  simp [State.install]
@[simp] theorem install_nextPid :
    (s.install P alloc id).nextPid = if id = s.cfg.idlePid then s.nextPid else s.nextPid + 1 := by
  simp [State.install, State.appendPcb]

/-- The new process starts on the window at the cursor, its general registers free (R254). -/
theorem install_regs : ∃ v0 v1 v2 v3 v4, (s.install P alloc id).regs = newRegs s.loadCursor alloc v0 v1 v2 v3 v4 :=
  ⟨_, _, _, _, _, rfl⟩

end Install

/-- The window `[c, c + alloc - 1]` of a load that fits, read as numbers (R254). -/
theorem signed_window {s : State} {P : Program} {alloc : Nat} (hok : s.cfg.ok = true) (hfit : s.fits P alloc = true) :
    signed (BitVec.ofNat 32 s.loadCursor) = s.loadCursor ∧
      signed (BitVec.ofNat 32 (s.loadCursor + alloc - 1)) = s.loadCursor + alloc - 1 := by
  obtain ⟨hpos, -, hmem⟩ := fits_iff.1 hfit
  have hsize : s.cfg.memSize ≤ 2147483648 := by
    simp only [Config.Params.ok, Bool.and_eq_true, decide_eq_true_eq] at hok
    omega
  constructor
  · exact signed_ofNat (by omega)
  · rw [signed_ofNat (by omega)]
    omega

/-- The new process starts at the first word of its window with an empty stack at the last (R254). -/
theorem install_window {s : State} {P : Program} {alloc : Nat} (id : Nat) (hok : s.cfg.ok = true)
    (hfit : s.fits P alloc = true) :
    signed (s.install P alloc id).regs.base = s.loadCursor ∧
      signed (s.install P alloc id).regs.lim = s.loadCursor + alloc - 1 ∧
      (s.install P alloc id).regs.pc = (s.install P alloc id).regs.base ∧
      (s.install P alloc id).regs.sp = (s.install P alloc id).regs.lim := by
  obtain ⟨hbase, hlim⟩ := signed_window hok hfit
  obtain ⟨_, _, _, _, _, hregs⟩ := install_regs s P alloc id
  rw [hregs]
  exact ⟨hbase, hlim, rfl, rfl⟩

/-- A load keeps every process that was in the table (R253). -/
theorem findPcb_install {s : State} {P : Program} {alloc id r : Nat} {p : PCB} (h : s.findPcb r = some p) :
    (s.install P alloc id).findPcb r = some p := by
  rw [State.findPcb] at h
  rw [State.findPcb, install_procs, List.find?_append, h, Option.some_or]

/-- The process a load made is the current one (R253). -/
theorem curPcb_install {s : State} {P : Program} {alloc id : Nat} (h : ∀ p ∈ s.procs, p.ref < s.nextRef) :
    (s.install P alloc id).curPcb = some (PCB.new s.nextRef id) := by
  have hnone : (s.procs.find? fun p => p.ref == s.nextRef) = none :=
    List.find?_eq_none.2 fun p hp => by simpa using (h p hp).ne
  simp [State.curPcb, State.findPcb, List.find?_append, hnone, PCB.new]

@[simp] theorem saveCurrent_progs (s : State) : s.saveCurrent.progs = s.progs := by
  unfold State.saveCurrent
  split <;> rfl
@[simp] theorem saveCurrent_out (s : State) : s.saveCurrent.out = s.out := by
  unfold State.saveCurrent
  split <;> rfl
@[simp] theorem saveCurrent_halted (s : State) : s.saveCurrent.halted = s.halted := by
  unfold State.saveCurrent
  split <;> rfl

/-- With a current process the save before a load is a save of that process (R253, R256). -/
theorem saveCurrent_of_cur {s : State} {r : Nat} (h : s.cur = some r) : s.saveCurrent = saveContext r s := by
  simp only [State.saveCurrent, h]

/-! ### What EXEC leaves -/

/-- The count of the loaded program rises, and no other (R219). -/
theorem execLoaded_progs {s : State} {P : Program} {n : Nat} (h : s.progs[n]? = some P) :
    (execLoaded s P n).progs = s.progs.set n { P with execCount := P.execCount + 1 } := by
  simp [execLoaded, execCounted, State.countExec, List.modify_eq_set_getElem?, h]

@[simp] theorem execLoaded_out (s : State) (P : Program) (n : Nat) : (execLoaded s P n).out = s.out := by
  simp [execLoaded, execCounted]

@[simp] theorem execLoaded_halted (s : State) (P : Program) (n : Nat) : (execLoaded s P n).halted = s.halted := by
  simp [execLoaded, execCounted]

@[simp] theorem execLoaded_mem (s : State) (P : Program) (n : Nat) :
    (execLoaded s P n).mem = s.mem.writeWords s.loadCursor P.words := by
  simp [execLoaded, execCounted]

@[simp] theorem execLoaded_loadCursor (s : State) (P : Program) (n : Nat) :
    (execLoaded s P n).loadCursor = s.loadCursor + P.allocSize - 1 + 4 := by
  simp [execLoaded, execCounted]

/-- EXEC costs one save (R256). -/
theorem execLoaded_ticks {s : State} {r : Nat} (P : Program) (n : Nat) (h : s.cur = some r) :
    (execLoaded s P n).ticks = s.ticks + s.cfg.saveLoadTime := by
  have hcur : (execCounted s n).cur = some r := by simpa [execCounted] using h
  rw [execLoaded, saveCurrent_of_cur hcur]
  simp [execCounted]

/-- EXEC's process runs in the window at the cursor (R254). -/
theorem execLoaded_window {s : State} {P : Program} (n : Nat) (hok : s.cfg.ok = true)
    (hfit : s.fits P P.allocSize = true) :
    signed (execLoaded s P n).regs.base = s.loadCursor ∧
      signed (execLoaded s P n).regs.lim = s.loadCursor + P.allocSize - 1 ∧
      (execLoaded s P n).regs.pc = (execLoaded s P n).regs.base ∧
      (execLoaded s P n).regs.sp = (execLoaded s P n).regs.lim := by
  have hcfg : (execCounted s n).saveCurrent.cfg = s.cfg := by simp [execCounted]
  have hcursor : (execCounted s n).saveCurrent.loadCursor = s.loadCursor := by simp [execCounted]
  rw [← hcfg] at hok
  rw [← fits_congr hcfg hcursor] at hfit
  rw [← hcursor]
  exact install_window s.nextPid hok hfit

/-- EXEC uses up one process id (R255). -/
theorem execLoaded_nextPid {s : State} (P : Program) (n : Nat) (hid : s.nextPid ≠ s.cfg.idlePid) :
    (execLoaded s P n).nextPid = s.nextPid + 1 := by
  simp [execLoaded, execCounted, hid]

/-- EXEC saves the caller as it stands when the call runs (R219, R256). -/
theorem findPcb_execLoaded {s : State} {c : PCB} (P : Program) (n : Nat) (h : s.curPcb = some c) :
    (execLoaded s P n).findPcb c.ref = some (c.makeReady s.regs (s.ticks + s.cfg.saveLoadTime)) := by
  have hcur : (execCounted s n).cur = some c.ref := by simpa [execCounted] using (curPcb_some h).2
  have hfind : (execCounted s n).findPcb c.ref = some c := by
    simpa [execCounted, State.findPcb] using findPcb_of_curPcb h
  refine findPcb_install ?_
  rw [saveCurrent_of_cur hcur, findPcb_saveContext, if_pos rfl, hfind]
  simp [execCounted]

/-- The process EXEC made is current and has the next id (R219, R255). -/
theorem curPcb_execLoaded {s : State} (P : Program) (n : Nat) (h : Base s.cur s) :
    (execLoaded s P n).curPcb = some (PCB.new s.nextRef s.nextPid) := by
  have hb : Base (execCounted s n).cur (execCounted s n) := by
    have hc : (execCounted s n).cur = s.cur := by simp [execCounted]
    rw [hc]
    exact h.same (by constructor <;> simp [execCounted]) (by simp [execCounted])
  refine (curPcb_install (base_saveCurrent hb).refsUsed).trans ?_
  simp [execCounted]

/-! ### The statements -/

/-- Settles O36: the number's pop and both sides of 0..9. -/
theorem trapPopsItsNumberOrHalts : Obligations.TrapPopsItsNumberOrHalts :=
  ⟨fun _ _ _ => rfl, fun _ => exec_trap_bad,
    fun _ h hn => congrArg Flow.finish (systemCall_unrecognised h (nine_lt_toNat hn))⟩

/-- Settles O37: both outcomes of the second pop. -/
theorem outputEmitsThePoppedWord : Obligations.OutputEmitsThePoppedWord := by
  intro s h hn
  rw [exec_trap_output h hn]
  exact ⟨fun hok => congrArg Flow.finish (sysOutput_ok hok), fun hbad => congrArg Flow.finish (sysOutput_bad hbad)⟩

/-- Settles O38: both outcomes of the push of the id, which as a word is read back when it is below `2^31`. -/
theorem getpidPushesTheProcessId : Obligations.GetpidPushesTheProcessId := by
  intro s c h hn hc
  rw [exec_trap_getpid h hn, sysGetpid_push ((popped_curPcb s).trans hc)]
  refine ⟨fun hok => ⟨s.popped.pushed (BitVec.ofNat 32 c.pid), congrArg Flow.finish (push_pushed hok),
    fun hwf hpid => ?_, rfl, fun _ hn => readByte_writeWord_other _ _ hn, rfl⟩,
    fun hbad => congrArg Flow.finish (push_bad (Bool.eq_false_of_not_eq_true hbad))⟩
  rw [top_pushed (s := s.popped) hwf, signed_ofNat hpid]

/-- Settles O39: the caller is removed, and with no process current the scheduler takes the greatest average. -/
theorem exitRunsTheMostStarvedProcessOrEndsTheRun : Obligations.ExitRunsTheMostStarvedProcessOrEndsTheRun := by
  have hexit {s : State} {c : PCB} (h : s.canPop) (hn : s.top = 0) (hc : s.curPcb = some c) :
      exec .trap s = (schedule (exited s.popped c)).finish := by
    rw [exec_trap_exit h hn, sysExit_exited ((popped_curPcb s).trans hc)]
  refine ⟨fun s c => hexit, fun s c h hn hc honly => ?_, fun s c p hinv hhalt h hn hc hp hne => ?_⟩
  · rw [hexit h hn hc, schedule_exited_only (s := s.popped) honly]
    rfl
  · have hbase : Base none (exited s.popped c) :=
      base_exited (s := s.popped) ((base_of_inv hinv).regs _) (curPcb_some hc).2
    obtain ⟨b, x, hb, hmax, hx, hrun⟩ := schedule_runs_most_starved hbase rfl (ready_exited.2 ⟨hp, hne⟩)
    obtain ⟨hready, hbne⟩ := ready_exited.1 hb
    refine ⟨_, b, (hexit h hn hc).trans (congrArg Flow.finish hrun), hready, hbne,
      fun q hq hqne => hmax q (ready_exited.2 ⟨hq, hqne⟩), hx, rfl, rfl, fun q hq => ?_, rfl, rfl, rfl, rfl, hhalt⟩
    obtain ⟨u, hu, he⟩ := List.mem_map.1 (restored_refs _ _ _ ▸ List.mem_map_of_mem (f := fun p : PCB => p.ref) hq)
    have hne : u.ref ≠ c.ref := by simpa using (List.mem_filter.1 hu).2
    exact he ▸ hne

/-- Settles O40: YIELD is the scheduler on the popped state, whose selection stays with an unbeaten caller. -/
theorem yieldWithoutAMoreStarvedProcessContinues : Obligations.YieldWithoutAMoreStarvedProcessContinues := by
  refine ⟨fun _ => exec_trap_yield, fun s c h hn hc hready hmax => ?_⟩
  have hr : s.popped.Ready c := hready
  obtain ⟨b, hb, -⟩ := select_of_ready hr
  have hcur : s.popped.cur = some b.ref := select_current hb hr (curPcb_some hc).2 hmax
  rw [exec_trap_yield h hn, schedule_of_select hb, if_pos hcur, finish_go]

/-- Settles O41: the dump after the number's pop and three more, then the exit of the caller. -/
theorem coredumpEmitsRegistersAndThreeWords : Obligations.CoredumpEmitsRegistersAndThreeWords := by
  have hdump {s : State} {c : PCB} (h : s.canPop) (hn : s.top = 9) (hc : s.curPcb = some c) (h1 : s.popped.canPop)
      (h2 : s.popped.popped.canPop) (h3 : s.popped.popped.popped.canPop) :
      exec .trap s = (schedule (exited (dumped s.popped) c)).finish := by
    rw [exec_trap_coredump h hn, sysCoredump_exited ((popped_curPcb s).trans hc) h1 h2 h3]
  constructor
  · intro s u c h hn hc h1 h2 h3 hu
    have hprocs : u.procs = s.procs := by simp only [hu, popped_procs]
    have hout : u.out = s.out := by simp only [hu, popped_out]
    rw [hdump h hn hc h1 h2 h3, dumped, ← hu, exited_emit, hprocs, hout]
  · intro s c h hn hc honly h1 h2 h3
    rw [hdump h hn hc h1 h2 h3, schedule_exited_only ((dumped_procs s.popped).trans honly), finish_raise]
    simp [State.halt, State.emit, dumped]

/-- Settles O42: the draw picks among the least used programs, and the load of the picked one fits. -/
theorem execLoadsAnyLeastUsedProgram : Obligations.ExecLoadsAnyLeastUsedProgram := by
  refine ⟨fun s h hn hnil => ?_, fun s c hinv hhalt hok h hn hc hne hid hfit => ?_,
    fun s n P h hn hP hleast hfit hid => ?_⟩
  · rw [exec_trap_exec h hn, sysExec_of_nil (s := s.popped) hnil]
    rfl
  · obtain ⟨P, n, hchosen⟩ := exists_chosen hne s.popped.draw.1
    obtain ⟨hP, hleast⟩ := mem_leastUsed.1 (List.mem_of_getElem? hchosen)
    have hPfit := hfit P (List.mem_of_getElem? hP)
    have halloc := (fits_iff.1 hPfit).1
    obtain ⟨hbase, hlim, hpc, hsp⟩ := execLoaded_window (s := s.popped) n hok hPfit
    refine ⟨execLoaded s.popped P n, n, P, exec_trap_loads h hn hchosen hPfit hid, hP, hleast, execLoaded_progs hP,
      hbase, hlim, hpc, hsp, fun k hk => ?_, fun k hk => ?_, ?_, execLoaded_nextPid P n hid,
      ⟨_, curPcb_execLoaded (s := s.popped) P n ((base_of_inv hinv).regs _), rfl, rfl, rfl⟩,
      findPcb_execLoaded (s := s.popped) P n hc, execLoaded_ticks P n (curPcb_some hc).2, by simp, by simpa using hhalt⟩
    · rw [execLoaded_mem]
      exact readWord_writeWords _ _ _ hinv.canonical hk
    · rw [execLoaded_mem]
      exact readWord_writeWords_other _ _ hk
    · rw [execLoaded_loadCursor, popped_loadCursor]
      omega
  · obtain ⟨i, hi⟩ := List.mem_iff_getElem?.1 (mem_leastUsed.2 ⟨hP, hleast⟩)
    obtain ⟨hlt, -⟩ := List.getElem?_eq_some_iff.1 hi
    refine ⟨[i], execLoaded (State.popped { s with draws := [i] }) P n, ?_, execLoaded_progs hP,
      execLoaded_nextPid P n hid⟩
    refine exec_trap_loads (s := { s with draws := [i] }) h hn ?_ hfit hid
    rw [draw_of_cons rfl]
    exact (Nat.mod_eq_of_lt hlt).symm ▸ hi

end Sys2Proof.Proofs

/-! ## The scheduler (45_scheduler.md): the proofs

Process creation, save and restore, the running average, the selection, the switch, and the loop of the idle process;
each statement stands after the lemmas it needs. -/

namespace Sys2Proof.Proofs

open Sys2Proof.Machine Sys2Proof.Laws

/-! ### Process creation -/

/-- A load that fits saves the current process and lays out the new one (R253). -/
theorem createProcess_fits {s : State} {P : Program} {n id : Nat} (h : s.fits P n = true) :
    createProcess P n id s = .go () (s.saveCurrent.install P n id) := if_pos h

/-- A load that does not fit halts before anything is saved (R253). -/
theorem createProcess_noSpace {s : State} {P : Program} {n id : Nat} (h : ¬ s.fits P n = true) :
    createProcess P n id s = raise .noSpace s := if_neg h

@[simp] theorem install_cfg (s : State) (P : Program) (alloc id : Nat) : (s.install P alloc id).cfg = s.cfg := by
  simp [State.install]

@[simp] theorem install_started (s : State) (P : Program) (alloc id : Nat) :
    (s.install P alloc id).started = s.started := by
  simp [State.install]

@[simp] theorem saveCurrent_started (s : State) : s.saveCurrent.started = s.started := by
  unfold State.saveCurrent
  split <;> rfl

@[simp] theorem saveCurrent_draws (s : State) : s.saveCurrent.draws = s.draws := by
  unfold State.saveCurrent
  split <;> rfl

/-- The save before a load costs one save time, if there is a process to save (R253, R256). -/
theorem saveCurrent_ticks (s : State) :
    s.saveCurrent.ticks = s.ticks + if s.cur = none then 0 else s.cfg.saveLoadTime := by
  cases h : s.cur with
  | none => simp [State.saveCurrent, h]
  | some r => simp [saveCurrent_of_cur h]

/-- A save removes no process and adds none (R256). -/
theorem saveContext_refs (s : State) (r : Nat) :
    (saveContext r s).procs.map (fun p => p.ref) = s.procs.map fun p => p.ref :=
  updateFirst_map _ (fun p : PCB => p.makeReady s.regs (s.ticks + s.cfg.saveLoadTime)) _ (fun _ => rfl) _

/-- The save before a load removes no process and adds none (R253). -/
theorem saveCurrent_refs (s : State) : s.saveCurrent.procs.map (fun p => p.ref) = s.procs.map fun p => p.ref := by
  cases h : s.cur with
  | none => simp only [State.saveCurrent, h]
  | some r => rw [saveCurrent_of_cur h, saveContext_refs]

/-- The save before a load leaves the next reference unused. -/
theorem saveCurrent_refs_lt {s : State} (h : ∀ p ∈ s.procs, p.ref < s.nextRef) :
    ∀ p ∈ s.saveCurrent.procs, p.ref < s.saveCurrent.nextRef := by
  intro p hp
  have href : p.ref ∈ s.saveCurrent.procs.map fun p => p.ref := List.mem_map_of_mem hp
  rw [saveCurrent_refs] at href
  obtain ⟨q, hq, e⟩ := List.mem_map.1 href
  rw [saveCurrent_nextRef, ← e]
  exact h q hq

/-- A new process takes its general registers from the first five listed draws (R254). -/
theorem loadRegs_of_draws {s : State} {d0 d1 d2 d3 d4 : Nat} {ds : List Nat} (alloc : Nat)
    (h : s.draws = d0 :: d1 :: d2 :: d3 :: d4 :: ds) :
    s.loadRegs alloc = { s with
      draws := ds
      regs := newRegs s.loadCursor alloc (BitVec.ofNat 32 d0) (BitVec.ofNat 32 d1) (BitVec.ofNat 32 d2)
        (BitVec.ofNat 32 d3) (BitVec.ofNat 32 d4) } := by
  simp only [State.loadRegs, State.drawWord, State.draw, h]

/-- What a load with five listed draws does to the registers and the draws (R254). -/
theorem install_of_draws {s : State} {d0 d1 d2 d3 d4 : Nat} {ds : List Nat} (P : Program) (alloc id : Nat)
    (h : s.draws = d0 :: d1 :: d2 :: d3 :: d4 :: ds) :
    (s.install P alloc id).draws = ds ∧ (s.install P alloc id).regs = newRegs s.loadCursor alloc (BitVec.ofNat 32 d0)
      (BitVec.ofNat 32 d1) (BitVec.ofNat 32 d2) (BitVec.ofNat 32 d3) (BitVec.ofNat 32 d4) := by
  have hload := loadRegs_of_draws (s := { s with mem := s.mem.writeWords s.loadCursor P.words }) alloc h
  simp only [State.install, hload, appendPcb_draws, appendPcb_regs, and_self]

/-- The window of a load that fits, the current process saved first (R253, R254). -/
theorem saveCurrent_install_window {s : State} {P : Program} {n : Nat} (id : Nat) (hok : s.cfg.ok = true)
    (hfit : s.fits P n = true) :
    signed (s.saveCurrent.install P n id).regs.base = s.loadCursor ∧
      signed (s.saveCurrent.install P n id).regs.lim = s.loadCursor + n - 1 ∧
      (s.saveCurrent.install P n id).regs.pc = (s.saveCurrent.install P n id).regs.base ∧
      (s.saveCurrent.install P n id).regs.sp = (s.saveCurrent.install P n id).regs.lim := by
  have hcursor := saveCurrent_loadCursor s
  rw [← fits_congr (saveCurrent_cfg s) hcursor] at hfit
  rw [← saveCurrent_cfg s] at hok
  rw [← hcursor]
  exact install_window id hok hfit

/-- Settles O43: both outcomes of the fit test; a load that fits is `install` after the save of the current process. -/
theorem createProcessLaysOutTheWindow : Obligations.CreateProcessLaysOutTheWindow := by
  refine ⟨fun s P n id hbig => createProcess_noSpace (mt fits_iff.1 hbig), fun s P n id hroom hok hwf => ?_⟩
  have hfit : s.fits P n = true := fits_iff.2 hroom
  obtain ⟨hbase, hlim, hpc, hsp⟩ := saveCurrent_install_window id hok hfit
  have hmem : (s.saveCurrent.install P n id).mem = s.mem.writeWords s.loadCursor P.words := by simp
  refine ⟨_, createProcess_fits hfit, hbase, hlim, hsp, hpc, fun d0 d1 d2 d3 d4 ds hdraws => ?_, fun k hk => ?_,
    fun k hk => ?_, by simp, ⟨s.saveCurrent.procs, by simp, saveCurrent_refs s⟩, by simp, by simp, ?_⟩
  · obtain ⟨hds, hregs⟩ := install_of_draws P n id ((saveCurrent_draws s).trans hdraws)
    rw [hregs]
    exact ⟨rfl, rfl, rfl, rfl, rfl, hds⟩
  · rw [hmem]
    exact readWord_writeWords _ _ _ hwf hk
  · rw [hmem]
    exact readWord_writeWords_other _ _ hk
  · rw [install_ticks, saveCurrent_ticks]

/-! ### Save and restore -/

/-- Settles O44: the save leaves a copy the restore finds, and neither touches another process. -/
theorem saveThenRestoreGivesTheRegistersBack : Obligations.SaveThenRestoreGivesTheRegistersBack := by
  intro s c hc
  have hsaved : (saveContext c.ref s).findPcb c.ref = some (c.makeReady s.regs (s.ticks + s.cfg.saveLoadTime)) := by
    rw [findPcb_saveContext, if_pos rfl, findPcb_of_curPcb hc, Option.map_some]
  have hinterval : s.ticks + s.cfg.saveLoadTime + s.cfg.saveLoadTime - (s.ticks + s.cfg.saveLoadTime) =
      s.cfg.saveLoadTime := Nat.add_sub_cancel_left _ _
  refine ⟨_, restoreContext_restored hsaved rfl (Nat.succ_ne_zero _), rfl, rfl, ?_, ?_, fun r hr => ?_, rfl⟩
  · change s.ticks + s.cfg.saveLoadTime + s.cfg.saveLoadTime = _
    omega
  · rw [findPcb_restored, if_pos rfl, hsaved, Option.map_some]
    simp only [saveContext_ticks, saveContext_cfg, PCB.makeReady, hinterval, PCB.addStarve]
  · rw [findPcb_restored, if_neg hr, findPcb_saveContext, if_neg hr]

/-! ### The running average -/

/-- A PCB after one save with registers `x` and a restore that ends a starve interval of `n` (R256, R257). -/
def starvedOnce (x : Regs) (p : PCB) (n : Nat) : PCB := (p.makeReady x 0).addStarve n

/-- The mean times the number of intervals grows by the new interval (R258). -/
theorem avgStarve_starvedOnce (x : Regs) (p : PCB) (n : Nat) :
    (starvedOnce x p n).avgStarve * (starvedOnce x p n).numReady = p.avgStarve * p.numReady + n := by
  have hpos : (p.numReady : Rat) + 1 ≠ 0 := by positivity
  simp only [starvedOnce, PCB.makeReady, PCB.addStarve, Nat.cast_add, Nat.cast_one]
  field_simp
  ring

/-- What a list of intervals adds to the statistics of any PCB: their number, their sum and their maximum (R258). -/
theorem foldl_starvedOnce (x : Regs) (intervals : List Nat) (p : PCB) :
    (intervals.foldl (starvedOnce x) p).numReady = p.numReady + intervals.length ∧
      (intervals.foldl (starvedOnce x) p).avgStarve * (intervals.foldl (starvedOnce x) p).numReady =
        p.avgStarve * p.numReady + intervals.sum ∧
      (intervals.foldl (starvedOnce x) p).maxStarve = max p.maxStarve (intervals.foldr max 0) := by
  induction intervals generalizing p with
  | nil => simp
  | cons n ns ih =>
    obtain ⟨hcount, hsum, hmax⟩ := ih (starvedOnce x p n)
    simp only [List.foldl_cons, List.length_cons, List.sum_cons, List.foldr_cons]
    refine ⟨?_, ?_, ?_⟩
    · rw [hcount]
      simp only [starvedOnce, PCB.makeReady, PCB.addStarve]
      omega
    · rw [hsum, avgStarve_starvedOnce]
      push_cast
      ring
    · rw [hmax]
      exact max_assoc p.maxStarve n _

/-- Settles O45: for a new PCB, whose statistics are 0, the mean times the number of intervals is their sum. -/
theorem averageStarveIsTheExactMean : Obligations.AverageStarveIsTheExactMean := by
  rintro ref pid x intervals p hne rfl
  change (intervals.foldl (starvedOnce x) (PCB.new ref pid)).avgStarve = _ ∧
    (intervals.foldl (starvedOnce x) (PCB.new ref pid)).maxStarve = _
  obtain ⟨hcount, hsum, hmax⟩ := foldl_starvedOnce x intervals (PCB.new ref pid)
  have hlen : (intervals.length : Rat) ≠ 0 := by simpa using hne
  rw [hcount] at hsum
  refine ⟨eq_div_of_mul_eq hlen ?_, hmax.trans (Nat.zero_max _)⟩
  simpa [PCB.new] using hsum

/-! ### The selection -/

/-- A selection among some candidate answers one (R261). -/
theorem select_of_ne_nil {s : State} {C : List PCB} (h : C ≠ []) : ∃ b, s.select C = some b :=
  Option.ne_none_iff_exists'.1 (mt select_none h)

/-- Settles O46: the best candidate, the current process if it is among the tied, else the first of them. -/
theorem selectPicksTheMostStarved : Obligations.SelectPicksTheMostStarved := by
  intro s C score hscore
  obtain rfl : score = s.score := hscore
  refine ⟨select_of_ne_nil, fun b hb => ?_⟩
  obtain ⟨hmem, hmax, hcase⟩ := select_some hb
  refine ⟨hmem, hmax, fun ⟨q, hq, hcur, htie⟩ => ?_, fun hne => ?_⟩
  · exact hcase.resolve_right fun ⟨hlt, _⟩ => (hlt q hq hcur).ne htie
  · exact firstBest_first s (hcase.resolve_left hne).2

/-! ### Leaving the current process -/

/-- The idle process is removed unsaved (R264). -/
theorem leaveCurrent_of_idle {s : State} {c : PCB} (hc : s.curPcb = some c) (hidle : c.pid = s.cfg.idlePid) :
    s.leaveCurrent = { s with procs := s.procs.filter fun p => p.ref != c.ref } := by
  obtain ⟨-, hcur⟩ := curPcb_some hc
  simp only [State.leaveCurrent, hcur, idling_iff.2 ⟨c, hc, hidle⟩, if_true]

/-- A process that is not the idle one is saved (R260). -/
theorem leaveCurrent_of_real {s : State} {c : PCB} (hc : s.curPcb = some c) (hreal : c.pid ≠ s.cfg.idlePid) :
    s.leaveCurrent = saveContext c.ref s := by
  obtain ⟨-, hcur⟩ := curPcb_some hc
  have hnot : s.idling = false := by simp [State.idling, hc, hreal]
  simp only [State.leaveCurrent, hcur, hnot, Bool.false_eq_true, if_false]

@[simp] theorem leaveCurrent_mem (s : State) : s.leaveCurrent.mem = s.mem := by
  unfold State.leaveCurrent
  split
  · rfl
  · split <;> rfl

@[simp] theorem leaveCurrent_out (s : State) : s.leaveCurrent.out = s.out := by
  unfold State.leaveCurrent
  split
  · rfl
  · split <;> rfl

/-- Removing process `c` hides no other one. -/
theorem findPcb_filter_ref {s : State} {c r : Nat} (h : r ≠ c) :
    State.findPcb { s with procs := s.procs.filter fun p => p.ref != c } r = s.findPcb r := by
  simp only [State.findPcb, List.find?_filter]
  congr 1
  funext p
  by_cases hp : p.ref = r <;> simp [hp, h]

/-- Leaving the current process touches no other one (R260). -/
theorem findPcb_leaveCurrent {s : State} {r : Nat} (h : s.cur ≠ some r) : s.leaveCurrent.findPcb r = s.findPcb r := by
  unfold State.leaveCurrent
  split
  · rfl
  · rename_i c hc
    have hne : r ≠ c := fun e => h (e ▸ hc)
    split
    · exact findPcb_filter_ref hne
    · rw [findPcb_saveContext, if_neg hne]

/-! ### The scheduler -/

/-- With a table but no ready process the machine keeps idling, or makes the idle process with its eight words (R260,
R263). -/
theorem schedule_of_none_ready {s : State} (hne : s.procs ≠ []) (h : ∀ p, ¬ s.Ready p) :
    schedule s = if s.idling = true then .go () s else createProcess idleProgram 8 s.cfg.idlePid s := by
  have hselect : s.select s.candidates = none := by
    cases hb : s.select s.candidates with
    | none => rfl
    | some b => exact absurd (mem_candidates.1 (select_some hb).1) (h b)
  simp only [schedule, List.isEmpty_eq_false_iff.2 hne, hselect, Bool.false_eq_true, if_false]
  rfl

/-- The state after a switch to process `r` with saved registers `x` (R260). -/
def switched (s : State) (r : Nat) (x : Regs) : State := { restored s.leaveCurrent r x with cur := some r }

/-- A switch costs one load after whatever leaving the current process cost (R257). -/
theorem switched_ticks (s : State) (r : Nat) (x : Regs) :
    (switched s r x).ticks = s.leaveCurrent.ticks + s.cfg.saveLoadTime := by
  rw [← leaveCurrent_cfg]
  rfl

@[simp] theorem switched_mem (s : State) (r : Nat) (x : Regs) : (switched s r x).mem = s.mem := leaveCurrent_mem s

@[simp] theorem switched_out (s : State) (r : Nat) (x : Regs) : (switched s r x).out = s.out := leaveCurrent_out s

/-- A switch away from the idle process removes it (R264). -/
theorem switched_removes_idle {s : State} {c q : PCB} {r : Nat} {x : Regs} (hc : s.curPcb = some c)
    (hidle : c.pid = s.cfg.idlePid) (hq : q ∈ (switched s r x).procs) : q.ref ≠ c.ref := by
  have href : q.ref ∈ (restored s.leaveCurrent r x).procs.map fun p => p.ref := List.mem_map_of_mem hq
  rw [restored_refs, leaveCurrent_of_idle hc hidle] at href
  obtain ⟨p, hp, e⟩ := List.mem_map.1 href
  rw [← e]
  simpa using (List.mem_filter.1 hp).2

/-- A switch away from a process that is not the idle one leaves it saved (R256, R260). -/
theorem findPcb_switched_current {s : State} {c : PCB} {r : Nat} {x : Regs} (hc : s.curPcb = some c)
    (hreal : c.pid ≠ s.cfg.idlePid) (hne : c.ref ≠ r) :
    (switched s r x).findPcb c.ref = some (c.makeReady s.regs (s.ticks + s.cfg.saveLoadTime)) := by
  refine (findPcb_restored r c.ref x).trans ?_
  rw [if_neg hne, leaveCurrent_of_real hc hreal, findPcb_saveContext, if_pos rfl, findPcb_of_curPcb hc, Option.map_some]

/-- The scheduler switches to the process it selects when that is saved and not the current one (R260). -/
theorem schedule_switches {s : State} {b : PCB} (hn : (s.procs.map fun q => q.ref).Nodup)
    (hb : s.select s.candidates = some b) (hcur : s.cur ≠ some b.ref) (hsaved : b.Saved) :
    ∃ x, b.regs = some x ∧ schedule s = .go () (switched s b.ref x) := by
  obtain ⟨hregs, h0⟩ := hsaved
  obtain ⟨x, hx⟩ := Option.isSome_iff_exists.1 hregs
  have hmem : b ∈ s.procs := (mem_candidates.1 (select_some hb).1).1
  have hfind : s.leaveCurrent.findPcb b.ref = some b := (findPcb_leaveCurrent hcur).trans (findPcb_of_mem hn hmem)
  exact ⟨x, hx, by rw [schedule_of_select hb, if_neg hcur, switchTo_restored hfind hx h0, switched]⟩

/-- Settles O47: the scheduler by what it finds, and for a switch by what becomes of the current process. -/
theorem schedulerSwitchesToTheBestReadyProcess : Obligations.SchedulerSwitchesToTheBestReadyProcess := by
  refine ⟨fun _ => rfl, fun _ => schedule_of_empty, fun s hne hnone => ⟨fun hidle => ?_, fun hidle => ?_⟩, ?_⟩
  · rw [schedule_of_none_ready hne hnone, if_pos hidle]
  · rw [schedule_of_none_ready hne hnone, hidle, if_neg Bool.false_ne_true]
  · intro s p score hn hsaved hp hscore
    obtain rfl : score = s.score := hscore
    obtain ⟨b, hb, hready⟩ := select_of_ready hp
    have hmax (q : PCB) (hq : s.Ready q) : s.score q ≤ s.score b := (select_some hb).2.1 q (mem_candidates.2 hq)
    by_cases hcur : s.cur = some b.ref
    · exact ⟨s, b, by rw [schedule_of_select hb, if_pos hcur], hready, hmax, hcur, fun _ => rfl, absurd hcur⟩
    · obtain ⟨x, hx, hgo⟩ := schedule_switches hn hb hcur (hsaved b hready.1 hcur)
      refine ⟨_, b, hgo, hready, hmax, rfl, fun h => absurd h hcur, fun _ =>
        ⟨hx, switched_mem .., switched_out .., fun hnone => ?_, fun c hc hidle => ⟨?_, fun q => ?_⟩,
          fun c hc hreal => ⟨?_, ?_⟩⟩⟩
      · rw [switched_ticks, leaveCurrent_of_none hnone]
      · rw [switched_ticks, leaveCurrent_of_idle hc hidle]
      · exact switched_removes_idle hc hidle
      · rw [switched_ticks, leaveCurrent_of_real hc hreal, saveContext_ticks]
        omega
      · have hne : c.ref ≠ b.ref := fun e => hcur (e ▸ (curPcb_some hc).2)
        exact findPcb_switched_current hc hreal hne

/-! ### The idle process -/

/-- The four words at the start of a window that holds them can be fetched (R131). -/
theorem fetchable_at_base {s : State} (hpc : s.regs.pc = s.regs.base) (h0 : 0 ≤ signed s.regs.pc)
    (hlim : signed s.regs.pc + 3 ≤ signed s.regs.lim) (hmem : signed s.regs.lim < s.cfg.memSize) :
    s.fetchable = true := by
  refine fetchable_of_allows fun n hn => ?_
  have htop := signed_hi s.regs.lim
  rw [allows_iff, ← hpc, signed_wrap _ (by omega) (by omega)]
  omega

/-- `BRANCH 0` at the start of the window is a loop: the engine's step of it changes nothing but the ticks (R265). -/
theorem engineStep_branch_to_self {s : State} (hf : s.fetchable = true) (hpc : s.regs.pc = s.regs.base)
    (hd : s.mem.readTuple s.regs.pc.toNat = encode (.branch 0)) :
    engineStep s = .next (s.addTicks Config.instrTicks) := by
  have htarget (u : State) : u.physical 0 = u.regs.base := by
    rw [State.physical, show signed (0 : Word) = 0 by decide, add_zero, wrap_signed]
  have hallows : s.allows s.regs.base = true := by
    simpa [State.fetchAddr, hpc] using allows_fetchAddr_of_fetchable (n := 0) hf (by omega)
  have hregs : s.regs.set .pc s.regs.base = s.regs := by
    rw [show s.regs.base = s.regs.get .pc from hpc.symm, set_get]
  rw [engineStep_of_decode_ok hf (hd ▸ decode_encode _), exec, execBranch, takeBranch_ok (by rwa [htarget]), htarget]
  change Host.Outcome.next { s.addTicks Config.instrTicks with regs := s.regs.set .pc s.regs.base } = _
  rw [hregs]
  rfl

/-- The four words of the idle program, read where they were loaded, are `BRANCH 0` (R265). -/
theorem readTuple_idleProgram {m : Memory} (a : Nat) (h : m.wf = true) :
    (m.writeWords a idleProgram.words).readTuple a = encode (.branch 0) := by
  have hword (k : Nat) (hk : k < 4) := readWord_writeWords idleProgram.words a k h hk
  simp only [Memory.readTuple, hword 1, hword 2, hword 3, Nat.reduceLT]
  rw [show (m.writeWords a idleProgram.words).readWord a = _ from hword 0 (by omega)]
  rfl

/-- The state after the idle process has been made (R263). -/
def idleInstalled (s : State) : State := s.saveCurrent.install idleProgram 8 s.cfg.idlePid

/-- The idle process starts at the first of its eight words (R263, R254). -/
theorem idleInstalled_window {s : State} (hok : s.cfg.ok = true) (hfit : s.fits idleProgram 8 = true) :
    signed (idleInstalled s).regs.pc = s.loadCursor ∧ (idleInstalled s).regs.base = (idleInstalled s).regs.pc ∧
      signed (idleInstalled s).regs.lim = s.loadCursor + 7 := by
  obtain ⟨hbase, hlim, hpc, -⟩ := saveCurrent_install_window s.cfg.idlePid hok hfit
  exact ⟨(congrArg signed hpc).trans hbase, hpc.symm, hlim.trans (by omega)⟩

/-- The idle process made from a table without its reference is current (R263). -/
theorem idling_idleInstalled {s : State} (h : ∀ p ∈ s.procs, p.ref < s.nextRef) : (idleInstalled s).idling = true :=
  idling_iff.2 ⟨_, curPcb_install (saveCurrent_refs_lt h), by simp [idleInstalled, PCB.new]⟩

/-- The idle process starts at its `BRANCH 0` (R265). -/
theorem readTuple_idleInstalled {s : State} (hwf : s.mem.wf = true)
    (hpc : signed (idleInstalled s).regs.pc = s.loadCursor) :
    (idleInstalled s).mem.readTuple (idleInstalled s).regs.pc.toNat = encode (.branch 0) := by
  have hcursor : (idleInstalled s).regs.pc.toNat = s.loadCursor := by
    have := signed_nonneg_toNat (a := (idleInstalled s).regs.pc) (by omega)
    omega
  rw [hcursor]
  simpa [idleInstalled] using readTuple_idleProgram s.loadCursor hwf

/-- Settles O48: the load of the idle program leaves PC at its `BRANCH 0`, from where every engine step loops. -/
theorem idleProcessIsInstalledAndLoops : Obligations.IdleProcessIsInstalledAndLoops := by
  intro s hwf hrefs hhalt hstart hok hne hnone hidle hroom
  have hfit : s.fits idleProgram 8 = true := fits_iff.2 ⟨by omega, by decide, hroom⟩
  have hgo : schedule s = .go () (idleInstalled s) := by
    rw [schedule_of_none_ready hne hnone, hidle, if_neg Bool.false_ne_true, createProcess_fits hfit, idleInstalled]
  obtain ⟨hpc, hbase, hlim⟩ := idleInstalled_window hok hfit
  have hcfg : (idleInstalled s).cfg = s.cfg := by simp [idleInstalled]
  have hfetch : (idleInstalled s).fetchable = true :=
    fetchable_at_base hbase.symm (by omega) (by omega) (by rw [hcfg]; omega)
  have hturn (n : Nat) : ({ idleInstalled s with schedule := [], ticks := n }).EngineTurn :=
    ⟨by simpa [idleInstalled] using hhalt, by simpa [hcfg] using hok, by simpa [idleInstalled] using hstart, nofun⟩
  refine ⟨_, hgo, idling_idleInstalled hrefs, by simp [idleInstalled], hpc, hbase, hlim, hturn _, fun n => ?_⟩
  rw [step_of_engineTurn (hturn n), takeTurn_of_nil rfl]
  exact engineStep_branch_to_self (s := { idleInstalled s with schedule := [], ticks := n }) hfetch hbase.symm
    (readTuple_idleInstalled hwf hpc)

end Sys2Proof.Proofs

/-! ## Devices (46_devices.md): the proofs

The four device calls outcome by outcome, the retry that undoes its pops, and the deliveries of the two completions; each
statement stands after the lemmas it needs. -/

namespace Sys2Proof.Proofs

open Sys2Proof.Machine Sys2Proof.Laws

/-! ### The device calls: dispatch

TRAP with the number of a device call pops the call's words and runs it for the current process (R211, R293 to R297). -/

section Dispatch

variable {s : State} {c : PCB} (h : s.canPop) (h1 : s.popped.canPop) (hc : s.curPcb = some c)
include h h1 hc

theorem exec_trap_open (hn : s.top = 3) :
    exec .trap s = (openDevice c (signed s.popped.top) s.popped.popped).finish := by
  have hcall : sysOpen s.popped = openDevice c (signed s.popped.top) s.popped.popped := by
    rw [sysOpen, pop_popped h1, andThen_go]
    exact withCurrent_some (by simpa only [popped_curPcb] using hc)
  rw [← hcall]
  exact congrArg Flow.finish ((systemCall_popped h).trans (by rw [hn]; rfl))

theorem exec_trap_close (hn : s.top = 4) :
    exec .trap s = (closeDevice c (signed s.popped.top) s.popped.popped).finish := by
  have hcall : sysClose s.popped = closeDevice c (signed s.popped.top) s.popped.popped := by
    rw [sysClose, pop_popped h1, andThen_go]
    exact withCurrent_some (by simpa only [popped_curPcb] using hc)
  rw [← hcall]
  exact congrArg Flow.finish ((systemCall_popped h).trans (by rw [hn]; rfl))

theorem exec_trap_read (hn : s.top = 5) (h2 : s.popped.popped.canPop) :
    exec .trap s = (readDevice c s.popped.top s.popped.popped.top s.popped.popped.popped).finish := by
  have hcall : sysRead s.popped = readDevice c s.popped.top s.popped.popped.top s.popped.popped.popped := by
    rw [sysRead, pop_popped h1, andThen_go, pop_popped h2, andThen_go]
    exact withCurrent_some (by simpa only [popped_curPcb] using hc)
  rw [← hcall]
  exact congrArg Flow.finish ((systemCall_popped h).trans (by rw [hn]; rfl))

theorem exec_trap_write (hn : s.top = 6) (h2 : s.popped.popped.canPop) (h3 : s.popped.popped.popped.canPop) :
    exec .trap s = (writeDevice c s.popped.top s.popped.popped.top s.popped.popped.popped.top
      s.popped.popped.popped.popped).finish := by
  have hcall : sysWrite s.popped = writeDevice c s.popped.top s.popped.popped.top s.popped.popped.popped.top
      s.popped.popped.popped.popped := by
    rw [sysWrite, pop_popped h1, andThen_go, pop_popped h2, andThen_go, pop_popped h3, andThen_go]
    exact withCurrent_some (by simpa only [popped_curPcb] using hc)
  rw [← hcall]
  exact congrArg Flow.finish ((systemCall_popped h).trans (by rw [hn]; rfl))

end Dispatch

/-! ### Lookups after a change of one device or one process -/

theorem findDev_updateOpenSet_same {s : State} {id : Int} {d : DeviceInfo} (f : List Nat → List Nat)
    (h : s.findDev id = some d) : (s.updateOpenSet id f).findDev id = some { d with openSet := f d.openSet } := by
  rw [findDev_updateOpenSet, if_pos rfl, h, Option.map_some]

theorem findDev_updateOpenSet_other {s : State} {id j : Int} (f : List Nat → List Nat) (h : j ≠ id) :
    (s.updateOpenSet id f).findDev j = s.findDev j := by
  rw [findDev_updateOpenSet, if_neg h]

theorem findPcb_setBlock_same {s : State} {p : PCB} (k : Option BlockKey) (h : s.findPcb p.ref = some p) :
    (s.setBlock p.ref k).findPcb p.ref = some { p with block := k } :=
  (findPcb_updatePcb (f := fun p => { p with block := k }) _ (fun _ => rfl) _).trans
    (by rw [if_pos rfl, h, Option.map_some])

theorem findPcb_setBlock_other {s : State} {r q : Nat} (k : Option BlockKey) (h : q ≠ r) :
    (s.setBlock r k).findPcb q = s.findPcb q :=
  (findPcb_updatePcb (f := fun p => { p with block := k }) r (fun _ => rfl) q).trans (if_neg h)

/-! ### OPEN -/

/-- The open set with the caller added (R293). -/
def opened (s : State) (c : PCB) (id : Int) : State := s.updateOpenSet id fun o => o ++ [c.pid]

theorem findDev_opened_same {s : State} {c : PCB} {id : Int} {d : DeviceInfo} (h : s.findDev id = some d) :
    (opened s c id).findDev id = some { d with openSet := d.openSet ++ [c.pid] } := findDev_updateOpenSet_same _ h

theorem findDev_opened_other {s : State} {c : PCB} {id j : Int} (h : j ≠ id) :
    (opened s c id).findDev j = s.findDev j := findDev_updateOpenSet_other _ h

/-- OPEN of an unknown device, or of one the caller holds already, pushes its error code (R293). -/
theorem openDevice_refused {s : State} {c : PCB} {id : Int} (hpush : s.canPush)
    (h : s.findDev id = none ∨ ∃ d, s.findDev id = some d ∧ c.pid ∈ d.openSet) :
    openDevice c id s = .go () (s.pushed s.cfg.eOpen) := by
  rcases h with hd | ⟨d, hd, hin⟩
  · simp only [openDevice, hd, push_pushed hpush]
  · simp only [openDevice, hd, if_pos hin, push_pushed hpush]

/-- OPEN of a sharable or unused device succeeds at once (R293). -/
theorem openDevice_granted {s : State} {c : PCB} {id : Int} {d : DeviceInfo} (hpush : s.canPush)
    (hd : s.findDev id = some d) (hout : c.pid ∉ d.openSet) (hfree : d.dev.isSharable = true ∨ d.openSet = []) :
    openDevice c id s = .go () ((opened s c id).pushed 0) := by
  have hgrant : (d.dev.isSharable || d.openSet.isEmpty) = true := by simpa using hfree
  simp only [openDevice, hd, if_neg hout, hgrant, if_true]
  exact push_pushed (s := opened s c id) hpush

/-- The caller, added to the open set, waits for the device with its 0 pushed (R293). -/
def openWaiting (s : State) (c : PCB) (id : Int) : State :=
  ((opened s c id).setBlock c.ref (some ⟨id, .opening, 0⟩)).pushed 0

theorem findDev_openWaiting (s : State) (c : PCB) (id j : Int) :
    (openWaiting s c id).findDev j = (opened s c id).findDev j := rfl

theorem findPcb_openWaiting_same {s : State} {c : PCB} (id : Int) (h : s.findPcb c.ref = some c) :
    (openWaiting s c id).findPcb c.ref = some { c with block := some ⟨id, .opening, 0⟩ } :=
  findPcb_setBlock_same (s := opened s c id) _ h

theorem findPcb_openWaiting_other {s : State} {c : PCB} {r : Nat} (id : Int) (h : r ≠ c.ref) :
    (openWaiting s c id).findPcb r = s.findPcb r :=
  findPcb_setBlock_other (s := opened s c id) _ h

/-- OPEN of a device another process holds alone blocks the caller, and the scheduler runs (R293). -/
theorem openDevice_blocked {s : State} {c : PCB} {id : Int} {d : DeviceInfo} (hpush : s.canPush)
    (hd : s.findDev id = some d) (hout : c.pid ∉ d.openSet) (halone : d.dev.isSharable = false)
    (hused : d.openSet ≠ []) : openDevice c id s = schedule (openWaiting s c id) := by
  have hbusy : (d.dev.isSharable || d.openSet.isEmpty) = false := by simpa [halone] using hused
  have hgo : push 0 ((opened s c id).setBlock c.ref (some ⟨id, .opening, 0⟩)) = .go () (openWaiting s c id) :=
    push_pushed hpush
  simp only [openDevice, hd, if_neg hout, hbusy, Bool.false_eq_true, if_false]
  exact congrArg (Flow.andThen · fun _ t => schedule t) hgo

/-- Settles O49: OPEN's three outcomes, each pushing one word. -/
theorem openGrantsBlocksOrFails : Obligations.OpenGrantsBlocksOrFails := by
  rintro s u c id h hn h1 rfl hpush hc rfl
  rw [exec_trap_open h h1 hc hn]
  refine ⟨fun hbad => ?_, fun d hd hout hfree => ?_, fun d hd hout halone hused => ?_⟩
  · rw [openDevice_refused hpush (by simpa only [popped_findDev] using hbad), finish_go]
    simp only [popped_cfg]
  · have hd' : s.popped.popped.findDev (signed s.popped.top) = some d := by simpa only [popped_findDev] using hd
    rw [openDevice_granted hpush hd' hout hfree]
    refine ⟨_, rfl, rfl, ?_, fun j hj => ?_⟩
    · rw [pushed_findDev, findDev_opened_same hd']
    · rw [pushed_findDev, findDev_opened_other hj, popped_findDev, popped_findDev]
  · have hd' : s.popped.popped.findDev (signed s.popped.top) = some d := by simpa only [popped_findDev] using hd
    rw [openDevice_blocked hpush hd' hout halone hused]
    refine ⟨_, rfl, rfl, ?_, fun j hj => ?_, ?_, fun r hr => ?_⟩
    · rw [findDev_openWaiting, findDev_opened_same hd']
    · rw [findDev_openWaiting, findDev_opened_other hj, popped_findDev, popped_findDev]
    · exact findPcb_openWaiting_same _ (by simpa only [popped_findPcb] using findPcb_of_curPcb hc)
    · rw [findPcb_openWaiting_other _ hr, popped_findPcb, popped_findPcb]

/-! ### CLOSE -/

/-- The open set with the caller removed (R294). -/
def closed (s : State) (c : PCB) (id : Int) : State := s.updateOpenSet id fun o => o.filter fun q => q != c.pid

/-- The first process blocked opening the device is woken, if there is one (R294). -/
def wakeOpener (s : State) (id : Int) : State :=
  match s.waiter (openerOf id) with
  | none => s
  | some w => s.setBlock w.ref none

/-- CLOSE of a device the caller does not hold pushes its error code (R294). -/
theorem closeDevice_refused {s : State} {c : PCB} {id : Int} (hpush : s.canPush)
    (h : ∀ d, s.findDev id = some d → c.pid ∉ d.openSet) : closeDevice c id s = .go () (s.pushed s.cfg.eClose) := by
  cases hd : s.findDev id with
  | none => simp only [closeDevice, hd, push_pushed hpush]
  | some d => simp only [closeDevice, hd, if_neg (h d hd), push_pushed hpush]

/-- Waking an opener changes the process table alone. -/
theorem wakeOpener_eq (s : State) (id : Int) : wakeOpener s id = { s with procs := (wakeOpener s id).procs } := by
  unfold wakeOpener
  split <;> rfl

/-- The state a CLOSE leaves behind its pushed 0 (R294). -/
def released (s : State) (c : PCB) (id : Int) : State := wakeOpener (closed s c id) id

theorem released_eq (s : State) (c : PCB) (id : Int) :
    released s c id = { s with devs := (closed s c id).devs, procs := (released s c id).procs } :=
  wakeOpener_eq (closed s c id) id

theorem findDev_released (s : State) (c : PCB) (id j : Int) :
    (released s c id).findDev j = (closed s c id).findDev j := by
  rw [released_eq]
  rfl

/-- CLOSE of a device the caller holds lets it go, wakes the first opener and pushes 0 (R294). -/
theorem closeDevice_held {s : State} {c : PCB} {id : Int} {d : DeviceInfo} (hpush : s.canPush)
    (hd : s.findDev id = some d) (hin : c.pid ∈ d.openSet) :
    closeDevice c id s = .go () ((released s c id).pushed 0) := by
  have hpush' : (released s c id).canPush := by
    rw [released_eq]
    exact hpush
  rw [← push_pushed hpush']
  simp only [closeDevice, hd, if_pos hin, released, wakeOpener, closed]
  cases State.waiter _ (openerOf id) <;> rfl

/-- A process that is not blocked opening the device has no key that a CLOSE accepts (R292). -/
theorem not_openerOf {id : Int} {p : PCB} (h : ∀ a, p.block ≠ some ⟨id, .opening, a⟩) :
    ∀ k, p.block = some k → openerOf id k = false := by
  rintro ⟨dev, op, a⟩ hk
  by_contra hopen
  simp only [openerOf, Bool.not_eq_false, Bool.and_eq_true, decide_eq_true_eq] at hopen
  exact h a (by rw [hk, hopen.1, hopen.2])

/-- With no process blocked on an accepted key nobody waits. -/
theorem waiter_of_none {s : State} {m : BlockKey → Bool} (h : ∀ p ∈ s.procs, ∀ k, p.block = some k → m k = false) :
    s.waiter m = none := by
  refine List.find?_eq_none.2 fun p hp => ?_
  split
  · rename_i k hk
    simp [h p hp k hk]
  · simp

/-- The waiter is the first process in table order that is blocked on an accepted key (R292). -/
theorem waiter_of_first {s : State} {m : BlockKey → Bool} {l r : List PCB} {w : PCB} {k : BlockKey}
    (hprocs : s.procs = l ++ w :: r) (hw : w.block = some k) (hk : m k = true)
    (hl : ∀ p ∈ l, ∀ k, p.block = some k → m k = false) : s.waiter m = some w := by
  have hnone : State.waiter { s with procs := l } m = none := waiter_of_none hl
  rw [State.waiter] at hnone ⊢
  rw [hprocs, List.find?_append, hnone, Option.none_or, List.find?_cons_of_pos]
  rw [hw]
  exact hk

/-- The first match is changed where it stands. -/
theorem updateFirst_append_cons {α : Type} {p : α → Bool} (f : α → α) {l r : List α} {w : α}
    (hl : ∀ x ∈ l, p x = false) (hw : p w = true) : updateFirst p f (l ++ w :: r) = l ++ f w :: r := by
  induction l with
  | nil => simp only [List.nil_append, updateFirst, if_pos hw]
  | cons x xs ih =>
    obtain ⟨hx, hxs⟩ := List.forall_mem_cons.1 hl
    simp only [List.cons_append, updateFirst, hx, Bool.false_eq_true, if_false, ih hxs]

/-- The table after the wake-up of the first opener: that one process changed, in its place (R292, R294). -/
theorem wakeOpener_procs {s : State} {id : Int} {l r : List PCB} {w : PCB} {a : Word}
    (hn : (s.procs.map fun p => p.ref).Nodup) (hprocs : s.procs = l ++ w :: r) (hw : w.block = some ⟨id, .opening, a⟩)
    (hl : ∀ p ∈ l, ∀ a, p.block ≠ some ⟨id, .opening, a⟩) :
    (wakeOpener s id).procs = l ++ { w with block := none } :: r := by
  have hwaiter : s.waiter (openerOf id) = some w :=
    waiter_of_first hprocs hw (by simp [openerOf]) fun p hp => not_openerOf (hl p hp)
  have hrefs : ∀ p ∈ l, (p.ref == w.ref) = false := by
    rw [hprocs, List.map_append, List.nodup_append] at hn
    intro p hp
    simpa using hn.2.2 p.ref (List.mem_map_of_mem hp) w.ref (by simp)
  simp only [wakeOpener, hwaiter, setBlock_procs, hprocs]
  exact updateFirst_append_cons _ hrefs (beq_self_eq_true _)

/-- With nobody blocked opening the device the table stays as it is (R294). -/
theorem wakeOpener_of_none {s : State} {id : Int} (h : ∀ p ∈ s.procs, ∀ a, p.block ≠ some ⟨id, .opening, a⟩) :
    wakeOpener s id = s := by
  simp only [wakeOpener, waiter_of_none fun p hp => not_openerOf (h p hp)]

/-- Settles O50: a refused CLOSE pushes its code; else the caller leaves the open set and the first opener is woken. -/
theorem closeWakesExactlyTheFirstOpener : Obligations.CloseWakesExactlyTheFirstOpener := by
  rintro s u c id hinv h hn h1 rfl hpush hc rfl
  rw [exec_trap_close h h1 hc hn]
  refine ⟨fun hbad => ?_, fun d hd hin => ?_⟩
  · rw [closeDevice_refused hpush (by simpa only [popped_findDev] using hbad), finish_go]
    simp only [popped_cfg]
  · have hd' : s.popped.popped.findDev (signed s.popped.top) = some d := by simpa only [popped_findDev] using hd
    rw [closeDevice_held hpush hd' hin]
    refine ⟨_, rfl, ?_, ?_, fun j hj => ?_, fun hnone => ?_, fun l w r a hprocs hw hl => ?_⟩
    · rw [released_eq]
      rfl
    · rw [pushed_findDev, findDev_released, closed, findDev_updateOpenSet_same _ hd']
    · rw [pushed_findDev, findDev_released, closed, findDev_updateOpenSet_other _ hj, popped_findDev, popped_findDev]
    · rw [pushed_procs, released, wakeOpener_of_none (s := closed s.popped.popped _ _) hnone]
      rfl
    · exact wakeOpener_procs (s := closed s.popped.popped _ _) hinv.refsDistinct hprocs hw hl

/-! ### READ and WRITE -/

/-- The host's next listed answer is its answer to the next query (R290). -/
theorem askAvailable_of_cons {s : State} {b : Bool} {bs : List Bool} (h : s.answers = b :: bs) :
    s.askAvailable = (b, { s with answers := bs }) := by
  simp only [State.askAvailable, h]

/-- READ of a device that is unknown, not open by the caller or not readable pushes its error code (R296). -/
theorem readDevice_error {s : State} {c : PCB} {id : Word} (addr : Word) (hpush : s.canPush)
    (h : ∀ d, s.findDev (signed id) = some d → c.pid ∈ d.openSet → d.dev.isReadable = false) :
    readDevice c id addr s = .go () (s.pushed s.cfg.eRead) := by
  cases hd : s.findDev (signed id) with
  | none => simp only [readDevice, hd, push_pushed hpush]
  | some d =>
    have hnot : ¬(c.pid ∈ d.openSet ∧ d.dev.isReadable = true) := fun hable => by simp [h d hd hable.1] at hable
    simp only [readDevice, hd, if_neg hnot, push_pushed hpush]

/-- WRITE of a device that is unknown, not open by the caller or not writable pushes its error code (R297). -/
theorem writeDevice_error {s : State} {c : PCB} {id : Word} (addr data : Word) (hpush : s.canPush)
    (h : ∀ d, s.findDev (signed id) = some d → c.pid ∈ d.openSet → d.dev.isWriteable = false) :
    writeDevice c id addr data s = .go () (s.pushed s.cfg.eWrite) := by
  cases hd : s.findDev (signed id) with
  | none => simp only [writeDevice, hd, push_pushed hpush]
  | some d =>
    have hnot : ¬(c.pid ∈ d.openSet ∧ d.dev.isWriteable = true) := fun hable => by simp [h d hd hable.1] at hable
    simp only [writeDevice, hd, if_neg hnot, push_pushed hpush]

/-- Settles O51: the two error outcomes, each one push. -/
theorem readAndWriteErrorsAreNotFaults : Obligations.ReadAndWriteErrorsAreNotFaults := by
  constructor
  · rintro s u c id h hn h1 h2 rfl hpush hc rfl hbad
    rw [exec_trap_read h h1 hc hn h2, readDevice_error _ hpush (by simpa only [popped_findDev] using hbad), finish_go]
    simp only [popped_cfg]
  · rintro s u c id h hn h1 h2 h3 rfl hpush hc rfl hbad
    rw [exec_trap_write h h1 hc hn h2 h3,
      writeDevice_error _ _ hpush (by simpa only [popped_findDev] using hbad), finish_go]
    simp only [popped_cfg]

/-- The state in which a READ or WRITE that was issued calls the scheduler: the answer used up, the request emitted, the
caller blocked (R296, R297). -/
def issued (s : State) (c : PCB) (bs : List Bool) (e : Event) (k : BlockKey) : State :=
  ({ s with answers := bs }.emit e).setBlock c.ref (some k)

theorem issued_eq (s : State) (c : PCB) (bs : List Bool) (e : Event) (k : BlockKey) :
    issued s c bs e k =
      { s with answers := bs, out := s.out ++ [e], procs := (issued s c bs e k).procs } := rfl

theorem findPcb_issued_same {s : State} {c : PCB} (bs : List Bool) (e : Event) (k : BlockKey)
    (h : s.findPcb c.ref = some c) : (issued s c bs e k).findPcb c.ref = some { c with block := some k } :=
  findPcb_setBlock_same (s := State.emit { s with answers := bs } e) _ h

theorem findPcb_issued_other {s : State} {c : PCB} {r : Nat} (bs : List Bool) (e : Event) (k : BlockKey)
    (h : r ≠ c.ref) : (issued s c bs e k).findPcb r = s.findPcb r :=
  findPcb_setBlock_other (s := State.emit { s with answers := bs } e) _ h

section Able

variable {s : State} {c : PCB} {d : DeviceInfo} {id : Word} {bs : List Bool}
  (hd : s.findDev (signed id) = some d) (hin : c.pid ∈ d.openSet)
include hd hin

/-- READ of an able device that answers that it is available (R296). -/
theorem readDevice_issued (addr : Word) (hable : d.dev.isReadable = true) (hans : s.answers = true :: bs) :
    readDevice c id addr s =
      schedule (issued s c bs (.devRead (signed id) addr) ⟨signed id, .reading, addr⟩) := by
  simp only [readDevice, hd, if_pos (And.intro hin hable), askAvailable_of_cons hans, if_true]
  rfl

/-- WRITE of an able device that answers that it is available (R297). -/
theorem writeDevice_issued (addr data : Word) (hable : d.dev.isWriteable = true) (hans : s.answers = true :: bs) :
    writeDevice c id addr data s =
      schedule (issued s c bs (.devWrite (signed id) addr data) ⟨signed id, .writing, addr⟩) := by
  simp only [writeDevice, hd, if_pos (And.intro hin hable), askAvailable_of_cons hans, if_true]
  rfl

/-- READ of an able device that answers that it is not available (R296, R298). -/
theorem readDevice_retry (addr : Word) (hable : d.dev.isReadable = true) (hans : s.answers = false :: bs) :
    readDevice c id addr s = retry 5 [addr, id] { s with answers := bs } := by
  simp only [readDevice, hd, if_pos (And.intro hin hable), askAvailable_of_cons hans, Bool.false_eq_true, if_false]

/-- WRITE of an able device that answers that it is not available (R297, R298). -/
theorem writeDevice_retry (addr data : Word) (hable : d.dev.isWriteable = true) (hans : s.answers = false :: bs) :
    writeDevice c id addr data s = retry 6 [data, addr, id] { s with answers := bs } := by
  simp only [writeDevice, hd, if_pos (And.intro hin hable), askAvailable_of_cons hans, Bool.false_eq_true, if_false]

end Able

/-- The scheduler runs on a state that differs from `u`, where the call's words are popped, by the issued request alone
(R296, R297). -/
theorem issued_spec {s u : State} {c : PCB} (bs : List Bool) (e : Event) (k : BlockKey) (hout : u.out = s.out)
    (hprocs : u.procs = s.procs) (hc : s.curPcb = some c) :
    ∃ v, (schedule (issued u c bs e k)).finish = (schedule v).finish ∧
      v = { u with answers := bs, out := s.out ++ [e], procs := v.procs } ∧
      v.findPcb c.ref = some { c with block := some k } ∧ ∀ r, r ≠ c.ref → v.findPcb r = s.findPcb r := by
  have hfind (r : Nat) : u.findPcb r = s.findPcb r := by rw [State.findPcb, hprocs, State.findPcb]
  refine ⟨issued u c bs e k, rfl, ?_, findPcb_issued_same bs e k ((hfind _).trans (findPcb_of_curPcb hc)),
    fun r hr => (findPcb_issued_other bs e k hr).trans (hfind r)⟩
  rw [← hout]
  exact issued_eq ..

/-- Settles O52: the two issued requests. -/
theorem readAndWriteIssueAndBlock : Obligations.ReadAndWriteIssueAndBlock := by
  constructor
  · rintro s u c d id addr bs h hn h1 h2 rfl hc rfl rfl hd hin hable hans
    rw [exec_trap_read h h1 hc hn h2, readDevice_issued (by simpa only [popped_findDev] using hd) hin _ hable
      (by simpa only [popped_answers] using hans)]
    exact issued_spec bs _ _ (by simp only [popped_out]) (by simp only [popped_procs]) hc
  · rintro s u c d id addr data bs h hn h1 h2 h3 rfl hc rfl rfl rfl hd hin hable hans
    rw [exec_trap_write h h1 hc hn h2 h3, writeDevice_issued (by simpa only [popped_findDev] using hd) hin _ _ hable
      (by simpa only [popped_answers] using hans)]
    exact issued_spec bs _ _ (by simp only [popped_out]) (by simp only [popped_procs]) hc

/-! ### The retry -/

/-- PC back at the TRAP, the answer used up (R298). -/
def rewound (s : State) (bs : List Bool) : State :=
  { s with regs := { s.regs with pc := s.regs.pc - 4 }, answers := bs }

/-- The retry pushes onto the rewound state, then runs the scheduler (R298). -/
theorem retry_rewound (n : Word) (ws : List Word) (s : State) (bs : List Bool) :
    retry n ws { s with answers := bs } = (pushAll (ws ++ [n]) (rewound s bs)).andThen fun _ t => schedule t := by
  have hpc : wrap (signed s.regs.pc - Config.instrSize) = s.regs.pc - 4 := aluSub_eq s.regs.pc 4
  have hrewind : State.rewindPc { s with answers := bs } = rewound s bs := by
    simp only [State.rewindPc, hpc, State.setReg, Regs.set, rewound]
  rw [retry, hrewind]

/-- The clamped increment changes SP alone (R137). -/
theorem raiseSp_eq (x : Regs) :
    x.raiseSp = { x with sp := if signed x.sp < signed x.lim then x.sp + 1 else x.sp } := by
  unfold Regs.raiseSp
  split <;> rfl

/-- A pop moves SP alone, so it does not matter whether PC is rewound before or after (R137). -/
theorem popped_rewound (s : State) (bs : List Bool) : (rewound s bs).popped = rewound s.popped bs := by
  simp only [State.popped, rewound, raiseSp_eq]

@[simp] theorem popped_pc (s : State) : s.popped.regs.pc = s.regs.pc := raiseSp_get s.regs (i := .pc) nofun

/-- Below LIM a raised SP is lowered back (R136, R137). -/
theorem lowerSp_raiseSp {x : Regs} (hbase : signed x.base ≤ signed x.sp) (hlim : signed x.sp < signed x.lim) :
    x.raiseSp.lowerSp = x := by
  have hsp := signed_add_one hlim
  have habove : signed x.base < signed (x.sp + 1) := by omega
  have hback : x.sp + 1 - 1 = x.sp := BitVec.add_sub_cancel x.sp 1
  simp only [lowerSp_eq, raiseSp_eq, if_pos hlim, if_pos habove, hback]

/-- `n` words can be popped before the clamp at LIM would repeat one, in a window that lies in memory (R137). -/
structure StackHolds (n : Nat) (s : State) : Prop where
  canonical : s.mem.wf = true
  base_le_sp : signed s.regs.base ≤ signed s.regs.sp
  room : signed s.regs.sp + n ≤ signed s.regs.lim
  base_nonneg : 0 ≤ signed s.regs.base
  lim_lt : signed s.regs.lim < s.cfg.memSize

namespace StackHolds

variable {n : Nat} {s : State} (h : StackHolds (n + 1) s)
include h

theorem sp_lt_lim : signed s.regs.sp < signed s.regs.lim := by
  have := h.room
  omega

theorem canPop : s.canPop :=
  (allows_iff _ _).2 ⟨h.base_le_sp, h.sp_lt_lim.le, h.base_nonneg.trans h.base_le_sp, h.sp_lt_lim.trans h.lim_lt⟩

/-- A pop takes one of them. -/
theorem popped : StackHolds n s.popped := by
  have hsp : signed s.popped.regs.sp = signed s.regs.sp + 1 := by
    rw [popped_regs, raiseSp_sp, if_pos h.sp_lt_lim, signed_add_one h.sp_lt_lim]
  have hle := h.base_le_sp
  have hroom := h.room
  have hbase : s.popped.regs.base = s.regs.base := raiseSp_base _
  have hlim : s.popped.regs.lim = s.regs.lim := raiseSp_lim _
  refine ⟨h.canonical, ?_, ?_, hbase ▸ h.base_nonneg, hlim ▸ h.lim_lt⟩
  · rw [hbase, hsp]
    omega
  · rw [hlim, hsp]
    push_cast at hroom
    omega

/-- The word a pop took, pushed again, gives back the state before the pop (R136, R137). -/
theorem push_top : push s.top s.popped = .go () s := by
  have hback : s.popped.regs.lowerSp = s.regs := lowerSp_raiseSp h.base_le_sp h.sp_lt_lim
  have hpush : s.popped.canPush := by
    rw [State.canPush, hback]
    exact (allows_raiseSp s _).trans h.canPop
  rw [push_pushed hpush, State.pushed, hback]
  simp only [State.top, popped_mem, writeWord_readWord h.canonical]
  rfl

end StackHolds

/-- Where nobody ready beats the ready current process by more than the bonus, it runs on (R261). -/
theorem schedule_keeps_current {s : State} {c : PCB} (hready : s.Ready c) (hcur : s.cur = some c.ref)
    (hmax : ∀ q, s.Ready q → q.avgStarve ≤ c.avgStarve + 200) : schedule s = .go () s := by
  obtain ⟨b, hb, -⟩ := select_of_ready hready
  rw [schedule_of_select hb, if_pos (select_current hb hready hcur hmax)]

theorem stackHolds_rewound {n : Nat} {s : State} (bs : List Bool) (h : StackHolds n s) : StackHolds n (rewound s bs) :=
  ⟨h.canonical, h.base_le_sp, h.room, h.base_nonneg, h.lim_lt⟩

/-- A popped word pushed onto the rewound state gives back the rewound state before the pop (R298). -/
theorem push_top_rewound {n : Nat} {s : State} (bs : List Bool) (h : StackHolds (n + 1) s) :
    push s.top (rewound s.popped bs) = .go () (rewound s bs) := by
  rw [← popped_rewound]
  exact (stackHolds_rewound bs h).push_top

/-- READ's retry with its three words on the stack gives them all back (R298). -/
theorem retry_read_undone {s : State} (bs : List Bool) (h : StackHolds 3 s) :
    retry s.top [s.popped.popped.top, s.popped.top] { s.popped.popped.popped with answers := bs } =
      schedule (rewound s bs) := by
  simp only [retry_rewound, List.cons_append, List.nil_append, pushAll, push_top_rewound bs h.popped.popped,
    push_top_rewound bs h.popped, push_top_rewound bs h, andThen_go]

/-- WRITE's retry with its four words on the stack gives them all back (R298). -/
theorem retry_write_undone {s : State} (bs : List Bool) (h : StackHolds 4 s) :
    retry s.top [s.popped.popped.popped.top, s.popped.popped.top, s.popped.top]
      { s.popped.popped.popped.popped with answers := bs } = schedule (rewound s bs) := by
  simp only [retry_rewound, List.cons_append, List.nil_append, pushAll, push_top_rewound bs h.popped.popped.popped,
    push_top_rewound bs h.popped.popped, push_top_rewound bs h.popped, push_top_rewound bs h, andThen_go]

section Unavailable

variable {s : State} {c : PCB} {d : DeviceInfo} {bs : List Bool} (h : s.canPop) (h1 : s.popped.canPop)
  (h2 : s.popped.popped.canPop) (hc : s.curPcb = some c) (hd : s.findDev (signed s.popped.top) = some d)
  (hin : c.pid ∈ d.openSet) (hans : s.answers = false :: bs)
include h h1 h2 hc hd hin hans

/-- READ of a device that is not available is a retry of its TRAP (R296, R298). -/
theorem exec_trap_read_retry (hn : s.top = 5) (hable : d.dev.isReadable = true) :
    exec .trap s = (retry 5 [s.popped.popped.top, s.popped.top] { s.popped.popped.popped with answers := bs }).finish := by
  rw [exec_trap_read h h1 hc hn h2, readDevice_retry (by simpa only [popped_findDev] using hd) hin _ hable
    (by simpa only [popped_answers] using hans)]

/-- WRITE of a device that is not available is a retry of its TRAP (R297, R298). -/
theorem exec_trap_write_retry (hn : s.top = 6) (hable : d.dev.isWriteable = true)
    (h3 : s.popped.popped.popped.canPop) :
    exec .trap s = (retry 6 [s.popped.popped.popped.top, s.popped.popped.top, s.popped.top]
      { s.popped.popped.popped.popped with answers := bs }).finish := by
  rw [exec_trap_write h h1 hc hn h2 h3, writeDevice_retry (by simpa only [popped_findDev] using hd) hin _ _ hable
    (by simpa only [popped_answers] using hans)]

end Unavailable

/-- Settles O53: the retry for any stack whose checks pass, and the retry that gives all its words back. -/
theorem unavailableDeviceRetriesTheTrap : Obligations.UnavailableDeviceRetriesTheTrap := by
  refine ⟨?_, ?_, ?_, ?_⟩
  · rintro s u v c d id addr bs h hn h1 h2 rfl hv rfl rfl hc hd hin hable hans hp hp1 hp2
    have hv' : v = rewound s.popped.popped.popped bs := by rw [hv, rewound, popped_pc, popped_pc, popped_pc]
    rw [exec_trap_read_retry h h1 h2 hc hd hin hans hn hable, retry_rewound, ← hv']
    simp only [List.cons_append, List.nil_append, pushAll, push_pushed hp, push_pushed hp1, push_pushed hp2, andThen_go]
  · rintro s v c d bs hwf hbase hroom h0 hlim hn hc hd hin hable hans rfl
    have hs : StackHolds 3 s := ⟨hwf, hbase, hroom, h0, hlim⟩
    have hretry : exec .trap s = (schedule (rewound s bs)).finish := by
      rw [exec_trap_read_retry hs.canPop hs.popped.canPop hs.popped.popped.canPop hc hd hin hans hn hable, ← hn,
        retry_read_undone bs hs]
    refine ⟨hretry, fun hready hmax => ?_⟩
    rw [hretry, schedule_keeps_current (s := rewound s bs) hready (curPcb_some hc).2 hmax]
    rfl
  · rintro s u v c d id addr data bs h hn h1 h2 h3 rfl hv rfl rfl rfl hc hd hin hable hans hp hp1 hp2 hp3
    have hv' : v = rewound s.popped.popped.popped.popped bs := by
      rw [hv, rewound, popped_pc, popped_pc, popped_pc, popped_pc]
    rw [exec_trap_write_retry h h1 h2 hc hd hin hans hn hable h3, retry_rewound, ← hv']
    simp only [List.cons_append, List.nil_append, pushAll, push_pushed hp, push_pushed hp1, push_pushed hp2,
      push_pushed hp3, andThen_go]
  · rintro s v c d bs hwf hbase hroom h0 hlim hn hc hd hin hable hans rfl
    have hs : StackHolds 4 s := ⟨hwf, hbase, hroom, h0, hlim⟩
    have hretry : exec .trap s = (schedule (rewound s bs)).finish := by
      rw [exec_trap_write_retry hs.canPop hs.popped.canPop hs.popped.popped.canPop hc hd hin hans hn hable
        hs.popped.popped.popped.canPop, ← hn, retry_write_undone bs hs]
    refine ⟨hretry, fun hready hmax => ?_⟩
    rw [hretry, schedule_keeps_current (s := rewound s bs) hready (curPcb_some hc).2 hmax]
    rfl

/-! ### The waiter of a completion -/

/-- A completion's waiter is the first process blocked on exactly its key (R292). -/
theorem waiter_exactly (s : State) (k : BlockKey) :
    s.waiter (exactly k) = s.procs.find? fun p => decide (p.block = some k) := by
  unfold State.waiter
  congr 1
  funext p
  cases p.block with
  | none => simp
  | some k' => simp [exactly]

/-- What the invariant says of a waiter that is not current: it is found by its reference, and saved (R262). -/
theorem waiter_found_saved {s : State} {k : BlockKey} {w : PCB} (hinv : s.Inv)
    (hw : s.procs.find? (fun p => decide (p.block = some k)) = some w) (hcur : s.cur ≠ some w.ref) :
    s.findPcb w.ref = some w ∧ w.Saved :=
  have hmem := List.mem_of_find?_eq_some hw
  ⟨findPcb_of_mem hinv.refsDistinct hmem, hinv.othersSaved w hmem hcur⟩

/-! ### A read completion -/

/-- Above BASE the clamped decrement is one (R136). -/
theorem lowerSp_of_lt {x : Regs} (h : signed x.base < signed x.sp) : x.lowerSp = { x with sp := x.sp - 1 } := by
  rw [lowerSp_eq, if_pos h]

/-- Two words above BASE it is one twice (R136). -/
theorem lowerSp_lowerSp {x : Regs} (h : signed x.base + 2 ≤ signed x.sp) :
    x.lowerSp.lowerSp = { x with sp := x.sp - 2 } := by
  have hlt : signed x.base < signed x.sp := by omega
  have hsp := signed_sub_one hlt
  have hlt' : signed x.base < signed (x.sp - 1) := by omega
  have htwo : x.sp - 1 - 1 = x.sp - 2 := by bv_omega
  rw [lowerSp_of_lt hlt, lowerSp_of_lt (x := { x with sp := x.sp - 1 }) hlt', htwo]

/-- The state after `v` is pushed onto the stack of `ref`, whose saved registers are `x` (R138). -/
def savedPushed (s : State) (ref : Nat) (x : Regs) (v : Word) : State :=
  (lowerSaved s ref x).memWrite x.lowerSp.sp v

/-- With the saved SP in a window that lies in memory the PCB-scoped push passes its check (R138). -/
theorem pcbPush_savedPushed {s : State} {ref : Nat} {p : PCB} {x : Regs} (v : Word) (hcur : s.cur ≠ some ref)
    (hf : s.findPcb ref = some p) (hx : p.regs = some x) (hsp : SpInWindow x) (h0 : 0 ≤ signed x.base)
    (hlim : signed x.lim < s.cfg.memSize) : pcbPush ref v s = .go () (savedPushed s ref x v) := by
  have hcheck : windowAllows x.base x.lim s.cfg.memSize x.lowerSp.sp = true :=
    canPush_of_spInWindow (s := { s with regs := x }) hsp h0 hlim
  rw [pcbPush_of_saved hcur hf hx, if_pos hcheck, savedPushed]

theorem findPcb_savedPushed_same {s : State} {p : PCB} (x : Regs) (v : Word) (h : s.findPcb p.ref = some p) :
    (savedPushed s p.ref x v).findPcb p.ref = some { p with regs := some x.lowerSp } :=
  (findPcb_lowerSaved s p.ref p.ref x).trans (by rw [if_pos rfl, h, Option.map_some])

theorem findPcb_savedPushed_other {s : State} {ref r : Nat} (x : Regs) (v : Word) (h : r ≠ ref) :
    (savedPushed s ref x v).findPcb r = s.findPcb r :=
  (findPcb_lowerSaved s ref r x).trans (if_neg h)

/-- A change of one PCB that keeps its reference keeps all references. -/
theorem updatePcb_refs (s : State) (r : Nat) {f : PCB → PCB} (hf : ∀ p, (f p).ref = p.ref) :
    (s.updatePcb r f).procs.map (fun p => p.ref) = s.procs.map fun p => p.ref :=
  updateFirst_map _ _ _ hf _

theorem setBlock_refs (s : State) (r : Nat) (k : Option BlockKey) :
    (s.setBlock r k).procs.map (fun p => p.ref) = s.procs.map fun p => p.ref :=
  updatePcb_refs s r (f := fun p => { p with block := k }) fun _ => rfl

theorem savedPushed_refs (s : State) (r : Nat) (x : Regs) (v : Word) :
    (savedPushed s r x v).procs.map (fun p => p.ref) = s.procs.map fun p => p.ref :=
  updatePcb_refs s r (f := fun p => { p with regs := some x.lowerSp }) fun _ => rfl

/-- The state a read completion leaves before it looks at the idle process: waiter `w`, whose saved registers are `x`,
woken, with the data and then 0 on its stack (R300). -/
def readDelivered (s : State) (w : PCB) (x : Regs) (data : Word) : State :=
  savedPushed (savedPushed (s.setBlock w.ref none) w.ref x data) w.ref x.lowerSp 0

section ReadDelivered

variable {s : State} {w : PCB} {x : Regs} {data : Word}

theorem readDelivered_eq : readDelivered s w x data =
    { s with mem := (readDelivered s w x data).mem, procs := (readDelivered s w x data).procs } := rfl

theorem readDelivered_cfg : (readDelivered s w x data).cfg = s.cfg := rfl

theorem readDelivered_ticks : (readDelivered s w x data).ticks = s.ticks := rfl

theorem readDelivered_refs :
    (readDelivered s w x data).procs.map (fun p => p.ref) = s.procs.map fun p => p.ref := by
  rw [readDelivered, savedPushed_refs, savedPushed_refs, setBlock_refs]

theorem readDelivered_mem (h : signed x.base + 2 ≤ signed x.sp) : (readDelivered s w x data).mem =
    (s.mem.writeWord (x.sp - 1).toNat data).writeWord (x.sp - 2).toNat 0 := by
  have hlt : signed x.base < signed x.sp := by omega
  have hmem : (readDelivered s w x data).mem =
    (s.mem.writeWord x.lowerSp.sp.toNat data).writeWord x.lowerSp.lowerSp.sp.toNat 0 := rfl
  rw [hmem, lowerSp_lowerSp h, lowerSp_of_lt hlt]

/-- The woken process (R300). -/
theorem findPcb_readDelivered_waiter (hw : s.findPcb w.ref = some w) (h : signed x.base + 2 ≤ signed x.sp) :
    (readDelivered s w x data).findPcb w.ref =
      some { w with block := none, regs := some { x with sp := x.sp - 2 } } := by
  have hblock := findPcb_setBlock_same none hw
  have hdata := findPcb_savedPushed_same (p := { w with block := none }) x data hblock
  have hzero := findPcb_savedPushed_same (p := { w with block := none, regs := some x.lowerSp }) x.lowerSp 0 hdata
  rw [← lowerSp_lowerSp h]
  exact hzero

theorem findPcb_readDelivered_other {r : Nat} (h : r ≠ w.ref) :
    (readDelivered s w x data).findPcb r = s.findPcb r := by
  rw [readDelivered, findPcb_savedPushed_other _ _ h, findPcb_savedPushed_other _ _ h, findPcb_setBlock_other _ h]

/-- The current process is another one (R300). -/
theorem curPcb_readDelivered (hcur : s.cur ≠ some w.ref) : (readDelivered s w x data).curPcb = s.curPcb := by
  have hsame : (readDelivered s w x data).cur = s.cur := rfl
  rw [State.curPcb, State.curPcb, hsame]
  cases hc : s.cur with
  | none => rfl
  | some r => exact findPcb_readDelivered_other fun e => hcur (e ▸ hc)

end ReadDelivered

/-- A read completion delivers to its waiter, then leaves the idle process if that is current (R300, R302). -/
theorem deliver_readComplete {s : State} {dev : Int} {addr : Word} (data : Word) {d : DeviceInfo} {w : PCB} {x : Regs}
    (hinv : s.Inv) (hd : s.findDev dev = some d)
    (hw : s.procs.find? (fun p => decide (p.block = some ⟨dev, .reading, addr⟩)) = some w)
    (hcur : s.cur ≠ some w.ref) (hx : w.regs = some x) (hsp : SpInWindow x) (h0 : 0 ≤ signed x.base)
    (hlim : signed x.lim < s.cfg.memSize) :
    deliver (.readComplete dev addr data) s = leaveIdle (readDelivered s w x data) := by
  obtain ⟨hfind, -⟩ := waiter_found_saved hinv hw hcur
  have hblock := findPcb_setBlock_same none hfind
  have hdata := findPcb_savedPushed_same (p := { w with block := none }) x data hblock
  have hpush1 : pcbPush w.ref data (s.setBlock w.ref none) = .go () _ :=
    pcbPush_savedPushed data hcur hblock hx hsp h0 hlim
  have hpush2 : pcbPush w.ref 0 (savedPushed (s.setBlock w.ref none) w.ref x data) = .go () (readDelivered s w x data) :=
    pcbPush_savedPushed 0 hcur hdata rfl (spInWindow_lowerSp hsp) (by rwa [lowerSp_base]) (by rwa [lowerSp_lim])
  rw [← waiter_exactly] at hw
  simp only [deliver, interruptReadComplete, hd, hw, hpush1, andThen_go]
  rw [show Config.success = 0 from rfl, hpush2, andThen_go]

/-- After a completion the scheduler runs if the idle process is current (R302). -/
theorem leaveIdle_congr {s t : State} (hcfg : t.cfg = s.cfg) (hc : t.curPcb = s.curPcb) :
    leaveIdle t = if s.idling = true then schedule t else .go () t := by
  have hidle : t.idling = s.idling := by rw [State.idling, State.idling, hc, hcfg]
  rw [leaveIdle, hidle]

/-- Settles O55: two PCB-scoped pushes onto the woken process. -/
theorem readCompletionDeliversToTheWaiter : Obligations.ReadCompletionDeliversToTheWaiter := by
  intro s dev addr data d w x hinv hd hw hcur hx hroom hsp h0 hlim
  obtain ⟨hfind, -⟩ := waiter_found_saved hinv hw hcur
  have hmem := readDelivered_mem (s := s) (w := w) (data := data) hroom
  have hwf := wf_writeWord (x.sp - 1).toNat data hinv.canonical
  have hne : (x.sp - 1).toNat ≠ (x.sp - 2).toNat := by bv_omega
  refine ⟨readDelivered s w x data, ?_, readDelivered_eq, findPcb_readDelivered_waiter hfind hroom,
    fun r => findPcb_readDelivered_other, ?_, ?_, fun n hn1 hn2 => ?_⟩
  · rw [deliver_readComplete data hinv hd hw hcur hx ⟨by omega, hsp⟩ h0 hlim,
      leaveIdle_congr readDelivered_cfg (curPcb_readDelivered hcur)]
  · rw [hmem, readWord_writeWord_other _ _ hne, readWord_writeWord_same _ _ hinv.canonical]
  · rw [hmem, readWord_writeWord_same _ _ hwf]
  · rw [hmem, readByte_writeWord_other _ _ hn2, readByte_writeWord_other _ _ hn1]

/-! ### A write completion -/

/-- The state after process `c` is saved and process `r` restored from its saved registers `x` and made current (R256,
R257, R301). -/
def handedOver (s : State) (c r : Nat) (x : Regs) : State := { restored (saveContext c s) r x with cur := some r }

section HandedOver

variable {s : State} {c r : Nat} {x : Regs}

theorem handedOver_cfg : (handedOver s c r x).cfg = s.cfg := rfl

theorem handedOver_ticks : (handedOver s c r x).ticks = s.ticks + 2 * s.cfg.saveLoadTime := by
  change s.ticks + s.cfg.saveLoadTime + s.cfg.saveLoadTime = _
  omega

theorem handedOver_refs : (handedOver s c r x).procs.map (fun p => p.ref) = s.procs.map fun p => p.ref :=
  (restored_refs (saveContext c s) r x).trans (saveContext_refs s c)

/-- The process that runs now has its statistics updated (R257). -/
theorem findPcb_handedOver_to {p : PCB} (hne : r ≠ c) (h : s.findPcb r = some p) :
    (handedOver s c r x).findPcb r = some (p.addStarve (s.ticks + 2 * s.cfg.saveLoadTime - p.lastReady)) := by
  refine (findPcb_restored (s := saveContext c s) r r x).trans ?_
  rw [if_pos rfl, findPcb_saveContext, if_neg hne, h, Option.map_some, saveContext_ticks, saveContext_cfg, Nat.add_assoc,
    ← Nat.two_mul]

/-- The process that ran before is saved (R256). -/
theorem findPcb_handedOver_from {p : PCB} (hne : c ≠ r) (h : s.findPcb c = some p) :
    (handedOver s c r x).findPcb c = some (p.makeReady s.regs (s.ticks + s.cfg.saveLoadTime)) := by
  refine (findPcb_restored (s := saveContext c s) r c x).trans ?_
  rw [if_neg hne, findPcb_saveContext, if_pos rfl, h, Option.map_some]

theorem findPcb_handedOver_other {q : Nat} (hc : q ≠ c) (hr : q ≠ r) :
    (handedOver s c r x).findPcb q = s.findPcb q := by
  refine (findPcb_restored (s := saveContext c s) r q x).trans ?_
  rw [if_neg hr, findPcb_saveContext, if_neg hc]

/-- The restore that makes a saved process the running one (R257). -/
theorem restoreContext_handedOver {p : PCB} (hne : r ≠ c) (h : s.findPcb r = some p) (hx : p.regs = some x)
    (h0 : p.numReady ≠ 0) : restoreContext r (saveContext c s) = .go () (restored (saveContext c s) r x) :=
  restoreContext_restored (by rw [findPcb_saveContext, if_neg hne, h]) hx h0

end HandedOver

/-- The first half of the double switch: the woken waiter `w` runs from its saved registers `x`, the caller `o` is saved
(R301). -/
def waiterRunning (s : State) (w o : PCB) (x : Regs) : State := handedOver (s.setBlock w.ref none) o.ref w.ref x

/-- The state after the double switch: the waiter saved with 0 on its stack, the caller running again (R301). -/
def writeDelivered (s : State) (w o : PCB) (x : Regs) : State :=
  handedOver ((waiterRunning s w o x).pushed 0) w.ref o.ref s.regs

section WriteDelivered

variable {s : State} {w o : PCB} {x : Regs}

theorem waiterRunning_cfg : (waiterRunning s w o x).cfg = s.cfg := handedOver_cfg

theorem waiterRunning_ticks : (waiterRunning s w o x).ticks = s.ticks + 2 * s.cfg.saveLoadTime := handedOver_ticks

theorem writeDelivered_cfg : (writeDelivered s w o x).cfg = s.cfg := by
  rw [writeDelivered, handedOver_cfg, pushed_cfg, waiterRunning_cfg]

theorem writeDelivered_ticks : (writeDelivered s w o x).ticks = s.ticks + 4 * s.cfg.saveLoadTime := by
  rw [writeDelivered, handedOver_ticks, pushed_ticks, pushed_cfg, waiterRunning_ticks, waiterRunning_cfg]
  omega

theorem writeDelivered_eq : writeDelivered s w o x =
    { s with mem := (writeDelivered s w o x).mem, procs := (writeDelivered s w o x).procs,
             ticks := (writeDelivered s w o x).ticks, cur := some o.ref } := by
  cases s
  rfl

theorem writeDelivered_refs : (writeDelivered s w o x).procs.map (fun p => p.ref) = s.procs.map fun p => p.ref := by
  rw [writeDelivered, handedOver_refs, pushed_procs, waiterRunning, handedOver_refs, setBlock_refs]

theorem writeDelivered_mem (h : signed x.base < signed x.sp) :
    (writeDelivered s w o x).mem = s.mem.writeWord (x.sp - 1).toNat 0 := by
  have hmem : (writeDelivered s w o x).mem = s.mem.writeWord x.lowerSp.sp.toNat 0 := rfl
  rw [hmem, lowerSp_of_lt h]

/-- The waiter, running (R301). -/
theorem findPcb_waiterRunning_waiter (hne : w.ref ≠ o.ref) (hw : s.findPcb w.ref = some w) :
    (waiterRunning s w o x).findPcb w.ref =
      some (PCB.addStarve { w with block := none } (s.ticks + 2 * s.cfg.saveLoadTime - w.lastReady)) :=
  findPcb_handedOver_to (s := s.setBlock w.ref none) hne (findPcb_setBlock_same none hw)

/-- The caller, saved (R301). -/
theorem findPcb_waiterRunning_caller (hne : w.ref ≠ o.ref) (ho : s.findPcb o.ref = some o) :
    (waiterRunning s w o x).findPcb o.ref = some (o.makeReady s.regs (s.ticks + s.cfg.saveLoadTime)) :=
  findPcb_handedOver_from (s := s.setBlock w.ref none) hne.symm ((findPcb_setBlock_other none hne.symm).trans ho)

/-- The waiter after its restore and its save (R301). -/
theorem findPcb_writeDelivered_waiter (hne : w.ref ≠ o.ref) (hw : s.findPcb w.ref = some w) :
    (writeDelivered s w o x).findPcb w.ref =
      some ((PCB.addStarve { w with block := none } (s.ticks + 2 * s.cfg.saveLoadTime - w.lastReady)).makeReady x.lowerSp
        (s.ticks + 3 * s.cfg.saveLoadTime)) := by
  have hfind := findPcb_waiterRunning_waiter (x := x) hne hw
  rw [← pushed_findPcb _ 0] at hfind
  have hregs : (waiterRunning s w o x).regs = x := rfl
  have hticks : s.ticks + 2 * s.cfg.saveLoadTime + s.cfg.saveLoadTime = s.ticks + 3 * s.cfg.saveLoadTime := by omega
  rw [writeDelivered, findPcb_handedOver_from hne hfind, pushed_regs, pushed_ticks, pushed_cfg, waiterRunning_ticks, hregs,
    waiterRunning_cfg, hticks]

/-- The caller after its save and its restore (R301). -/
theorem findPcb_writeDelivered_caller (hne : w.ref ≠ o.ref) (ho : s.findPcb o.ref = some o) :
    (writeDelivered s w o x).findPcb o.ref =
      some ((o.makeReady s.regs (s.ticks + s.cfg.saveLoadTime)).addStarve (3 * s.cfg.saveLoadTime)) := by
  have hfind := findPcb_waiterRunning_caller (x := x) hne ho
  rw [← pushed_findPcb _ 0] at hfind
  have hsaved : (o.makeReady s.regs (s.ticks + s.cfg.saveLoadTime)).lastReady = s.ticks + s.cfg.saveLoadTime := rfl
  have hinterval : s.ticks + 2 * s.cfg.saveLoadTime + 2 * s.cfg.saveLoadTime - (s.ticks + s.cfg.saveLoadTime) =
      3 * s.cfg.saveLoadTime := by omega
  rw [writeDelivered, findPcb_handedOver_to hne.symm hfind, pushed_ticks, pushed_cfg, waiterRunning_ticks,
    waiterRunning_cfg, hsaved, hinterval]

theorem findPcb_writeDelivered_other {r : Nat} (hw : r ≠ w.ref) (ho : r ≠ o.ref) :
    (writeDelivered s w o x).findPcb r = s.findPcb r := by
  rw [writeDelivered, findPcb_handedOver_other hw ho, pushed_findPcb, waiterRunning, findPcb_handedOver_other ho hw,
    findPcb_setBlock_other _ hw]

theorem curPcb_writeDelivered (hne : w.ref ≠ o.ref) (ho : s.findPcb o.ref = some o) :
    (writeDelivered s w o x).curPcb =
      some ((o.makeReady s.regs (s.ticks + s.cfg.saveLoadTime)).addStarve (3 * s.cfg.saveLoadTime)) :=
  findPcb_writeDelivered_caller hne ho

end WriteDelivered

/-- A write completion delivers to its waiter by the double switch, then leaves the idle process if that is current (R301,
R302). -/
theorem deliver_writeComplete {s : State} {dev : Int} {addr : Word} {d : DeviceInfo} {w o : PCB} {x : Regs}
    (hinv : s.Inv) (hd : s.findDev dev = some d)
    (hw : s.procs.find? (fun p => decide (p.block = some ⟨dev, .writing, addr⟩)) = some w)
    (hc : s.curPcb = some o) (hne : w.ref ≠ o.ref) (hx : w.regs = some x) (hsp : SpInWindow x) (h0 : 0 ≤ signed x.base)
    (hlim : signed x.lim < s.cfg.memSize) :
    deliver (.writeComplete dev addr) s = leaveIdle (writeDelivered s w o x) := by
  obtain ⟨-, hcur⟩ := curPcb_some hc
  obtain ⟨hfind, -, hready⟩ := waiter_found_saved hinv hw (by simpa [hcur] using hne.symm)
  have hswitch : restoreContext w.ref (saveContext o.ref (s.setBlock w.ref none)) = .go () _ :=
    restoreContext_handedOver hne (findPcb_setBlock_same none hfind) hx hready
  have hpush : push 0 (waiterRunning s w o x) = .go () ((waiterRunning s w o x).pushed 0) :=
    push_pushed (canPush_of_spInWindow hsp h0 hlim)
  have hback : restoreContext o.ref (saveContext w.ref ((waiterRunning s w o x).pushed 0)) = .go () _ :=
    restoreContext_handedOver hne.symm (by rw [pushed_findPcb, findPcb_waiterRunning_caller hne (findPcb_of_curPcb hc)])
      rfl (Nat.succ_ne_zero _)
  rw [← waiter_exactly] at hw
  simp only [deliver, interruptWriteComplete, hd, hw, withCurrent_some hc, hswitch, andThen_go]
  rw [show Config.success = 0 from rfl, ← handedOver, ← waiterRunning, hpush, andThen_go, hback, andThen_go, ← handedOver,
    ← writeDelivered]

/-- The scheduler runs after a completion exactly if the current process is the idle one (R302). -/
theorem leaveIdle_of_curPcb {s : State} {c : PCB} (hc : s.curPcb = some c) :
    leaveIdle s = if c.pid = s.cfg.idlePid then schedule s else .go () s := by
  have hidle : s.idling = decide (c.pid = s.cfg.idlePid) := by
    rw [State.idling, hc]
    rfl
  simp only [leaveIdle, hidle, decide_eq_true_eq]

/-- Settles O57: what the double switch leaves of the two processes, and of every other one. -/
theorem writeCompletionIsADoubleSwitch : Obligations.WriteCompletionIsADoubleSwitch := by
  intro s dev addr d w o x hinv hd hw hc hne hx hroom hsp h0 hlim
  obtain ⟨-, hcur⟩ := curPcb_some hc
  obtain ⟨hfind, -⟩ := waiter_found_saved hinv hw (by simpa [hcur] using hne.symm)
  have hcaller := findPcb_writeDelivered_caller (x := x) hne (findPcb_of_curPcb hc)
  have hwaiter := findPcb_writeDelivered_waiter (x := x) hne hfind
  have hmem := writeDelivered_mem (s := s) (w := w) (o := o) hroom
  simp only [lowerSp_of_lt hroom, PCB.addStarve, PCB.makeReady] at hcaller hwaiter
  refine ⟨writeDelivered s w o x, ?_, ?_, ?_, fun n hn => ?_, hwaiter, hcaller,
    fun r => findPcb_writeDelivered_other⟩
  · rw [deliver_writeComplete hinv hd hw hc hne hx ⟨hroom.le, hsp⟩ h0 hlim,
      leaveIdle_of_curPcb (curPcb_writeDelivered hne (findPcb_of_curPcb hc)), writeDelivered_cfg]
    rfl
  · rw [← writeDelivered_ticks (w := w) (o := o) (x := x), hcur]
    exact writeDelivered_eq
  · rw [hmem, readWord_writeWord_same _ _ hinv.canonical]
  · rw [hmem, readByte_writeWord_other _ _ hn]

/-! ### Leaving the idle process -/

/-- When a completion's work in `s`, where nobody was ready, has changed process `r` and the idle process `i` alone, at most
`r` is ready (R260). -/
theorem only_woken_ready {s t : State} {i : PCB} {r : Nat} (hcfg : t.cfg = s.cfg)
    (hn : (t.procs.map fun p => p.ref).Nodup) (hnone : ∀ p, ¬ s.Ready p) (hi : t.findPcb i.ref = some i)
    (hidle : i.pid = t.cfg.idlePid) (hframe : ∀ q, q ≠ r → q ≠ i.ref → t.findPcb q = s.findPcb q) {p : PCB}
    (hp : t.Ready p) : p.ref = r := by
  obtain ⟨hmem, hblock, hpid⟩ := hp
  have hfind := findPcb_of_mem hn hmem
  by_contra hne
  by_cases he : p.ref = i.ref
  · rw [he, hi] at hfind
    cases hfind
    exact hpid hidle
  · rw [hframe _ hne he] at hfind
    exact hnone p ⟨(findPcb_some hfind).1, hblock, hcfg ▸ hpid⟩

/-- With the idle process `i` current and `w` the only ready process, `i` is removed and `w` runs, at the cost of one
restore (R264, R302). -/
theorem leaveIdle_runs {t : State} {i w : PCB} {r : Nat} {x : Regs} (hn : (t.procs.map fun p => p.ref).Nodup)
    (hi : t.curPcb = some i) (hidle : i.pid = t.cfg.idlePid) (hw : t.findPcb r = some w) (hblock : w.block = none)
    (hreal : w.pid ≠ t.cfg.idlePid) (hx : w.regs = some x) (h0 : w.numReady ≠ 0)
    (honly : ∀ p, t.Ready p → p.ref = r) :
    ∃ u, leaveIdle t = .go () u ∧ u.cur = some r ∧ u.regs = x ∧ u.mem = t.mem ∧
      u.ticks = t.ticks + t.cfg.saveLoadTime ∧ ∀ p ∈ u.procs, p.ref ≠ i.ref := by
  obtain ⟨hmem, rfl⟩ := findPcb_some hw
  obtain ⟨b, hb, hready⟩ := select_of_ready (s := t) ⟨hmem, hblock, hreal⟩
  obtain rfl : b = w := List.inj_on_of_nodup_map hn hready.1 hmem (honly b hready)
  have hcur : t.cur ≠ some b.ref := fun e => by
    rw [curPcb_of_mem hn hmem e] at hi
    cases hi
    exact hreal hidle
  obtain ⟨y, hy, hgo⟩ := schedule_switches hn hb hcur ⟨Option.isSome_iff_exists.2 ⟨x, hx⟩, h0⟩
  obtain rfl : x = y := Option.some.inj (hx.symm.trans hy)
  refine ⟨switched t b.ref x, ?_, rfl, rfl, switched_mem .., ?_, fun p => switched_removes_idle hi hidle⟩
  · rw [leaveIdle_of_curPcb hi, if_pos hidle, hgo]
  · rw [switched_ticks, leaveCurrent_of_idle hi hidle]

/-- Settles O56: after either delivery the waiter is the only ready process, and the idle process is left for it. -/
theorem completionLeavesTheIdleProcess : Obligations.CompletionLeavesTheIdleProcess := by
  constructor
  · intro s dev addr data d w i x hinv hd hw hcur hreal hx hroom hsp h0 hlim hc hidle hnone
    obtain ⟨hfind, -, hready⟩ := waiter_found_saved hinv hw hcur
    have hmem := readDelivered_mem (s := s) (w := w) (data := data) hroom
    have hwf := wf_writeWord (x.sp - 1).toNat data hinv.canonical
    have hne : (x.sp - 1).toNat ≠ (x.sp - 2).toNat := by bv_omega
    have hn : ((readDelivered s w x data).procs.map fun p => p.ref).Nodup := by
      rw [readDelivered_refs]
      exact hinv.refsDistinct
    have hi : (readDelivered s w x data).curPcb = some i := (curPcb_readDelivered hcur).trans hc
    rw [← readDelivered_cfg (s := s) (w := w) (x := x) (data := data)] at hreal hidle
    obtain ⟨u, hgo, hucur, huregs, humem, huticks, hgone⟩ :=
      leaveIdle_runs hn hi hidle (findPcb_readDelivered_waiter hfind hroom) rfl hreal rfl hready fun p =>
        only_woken_ready readDelivered_cfg hn hnone (findPcb_of_curPcb hi) hidle
          fun q hq _ => findPcb_readDelivered_other hq
    refine ⟨u, (deliver_readComplete data hinv hd hw hcur hx ⟨by omega, hsp⟩ h0 hlim).trans hgo, hucur, huregs, ?_, ?_,
      ?_, hgone⟩
    · rw [humem, hmem, readWord_writeWord_other _ _ hne, readWord_writeWord_same _ _ hinv.canonical]
    · rw [State.top, huregs, humem, hmem, readWord_writeWord_same _ _ hwf]
    · rw [huticks, readDelivered_ticks, readDelivered_cfg]
  · intro s dev addr d w i x hinv hd hw hcur hreal hx hroom hsp h0 hlim hc hidle hnone
    obtain ⟨hfind, -, hready⟩ := waiter_found_saved hinv hw hcur
    have hne : w.ref ≠ i.ref := fun e => hcur (e ▸ (curPcb_some hc).2)
    have hmem := writeDelivered_mem (s := s) (w := w) (o := i) hroom
    have hn : ((writeDelivered s w i x).procs.map fun p => p.ref).Nodup := by
      rw [writeDelivered_refs]
      exact hinv.refsDistinct
    have hi := curPcb_writeDelivered (x := x) hne (findPcb_of_curPcb hc)
    have hwaiter := findPcb_writeDelivered_waiter (x := x) hne hfind
    rw [lowerSp_of_lt hroom] at hwaiter
    rw [← writeDelivered_cfg (s := s) (w := w) (o := i) (x := x)] at hreal hidle
    obtain ⟨u, hgo, hucur, huregs, humem, huticks, hgone⟩ :=
      leaveIdle_runs hn hi hidle hwaiter rfl hreal rfl (Nat.succ_ne_zero _) fun p =>
        only_woken_ready writeDelivered_cfg hn hnone (findPcb_of_curPcb hi) hidle
          fun q => findPcb_writeDelivered_other
    refine ⟨u, (deliver_writeComplete hinv hd hw hc hne hx ⟨hroom.le, hsp⟩ h0 hlim).trans hgo, hucur, huregs, ?_, ?_,
      hgone⟩
    · rw [State.top, huregs, humem, hmem, readWord_writeWord_same _ _ hinv.canonical]
    · rw [huticks, writeDelivered_ticks, writeDelivered_cfg]
      omega

end Sys2Proof.Proofs

/-! ## Exceptions and interrupts (60_exceptions.md): the proofs

The step at which an interrupt is due, and the completions that find nobody to deliver to. -/

namespace Sys2Proof.Proofs

open Sys2Proof.Machine Sys2Proof.Laws

/-- At the boundary of a started, running machine an interrupt that is due is handled instead of an instruction (R330). -/
theorem step_of_interruptDue {s : State} {i : Interrupt} {turns : List HostTurn} (hh : s.halted = none)
    (hk : s.cfg.ok = true) (hs : s.started = true) (hdue : s.schedule = .interrupt i :: turns) :
    step s = (deliver i { s with schedule := turns }).finish := by
  rcases step_cases s with ⟨_, e, -⟩ | ⟨-, e, -⟩ | ⟨-, -, e, -⟩ |
    ⟨-, -, -, ⟨hn, -⟩ | ⟨_, hn, -⟩ | ⟨_, _, hn, e⟩⟩
  · cases hh.symm.trans e
  · cases hk.symm.trans e
  · cases hs.symm.trans e
  · cases hdue.symm.trans hn
  · cases hdue.symm.trans hn
  · cases hdue.symm.trans hn
    exact e

/-- A completion whose key no process is blocked on has no waiter (R292). -/
theorem waiter_exactly_none {s : State} {k : BlockKey} (h : ∀ p ∈ s.procs, p.block ≠ some k) :
    s.waiter (exactly k) = none := by
  rw [waiter_exactly, List.find?_eq_none]
  simpa only [decide_eq_true_eq] using h

/-- A read completion for an unknown device, or that no process waits for, has no effect (R300). -/
theorem deliver_readComplete_unmatched {s : State} {dev : Int} {addr : Word} (data : Word)
    (h : s.findDev dev = none ∨ ∀ p ∈ s.procs, p.block ≠ some ⟨dev, .reading, addr⟩) :
    deliver (.readComplete dev addr data) s = .go () s := by
  simp only [deliver, interruptReadComplete]
  rcases h with hd | hw
  · rw [hd]
  · rw [waiter_exactly_none hw]
    cases s.findDev dev <;> rfl

/-- A write completion for an unknown device, or that no process waits for, has no effect (R301). -/
theorem deliver_writeComplete_unmatched {s : State} {dev : Int} {addr : Word}
    (h : s.findDev dev = none ∨ ∀ p ∈ s.procs, p.block ≠ some ⟨dev, .writing, addr⟩) :
    deliver (.writeComplete dev addr) s = .go () s := by
  simp only [deliver, interruptWriteComplete]
  rcases h with hd | hw
  · rw [hd]
  · rw [waiter_exactly_none hw]
    cases s.findDev dev <;> rfl

/-- Settles O54: the handler is the whole step, and both completions stop at the lookup that finds nothing. -/
theorem interruptIsDeliveredAtTheBoundary : Obligations.InterruptIsDeliveredAtTheBoundary :=
  ⟨fun _ _ _ => step_of_interruptDue,
    fun _ _ _ data => ⟨deliver_readComplete_unmatched data, deliver_writeComplete_unmatched⟩⟩

end Sys2Proof.Proofs

/-! ## Reset and boot (70_reset_and_hazards.md): the proofs

The kernel values at reset, and the host's next boot duty read off the plan; then the two statements. -/

namespace Sys2Proof.Proofs

open Sys2Proof.Machine Sys2Proof.Laws

/-! ### Reset -/

/-- Settles O58: reset writes each of these values out, `nextPid` and `loadCursor` as the constants `FIRST_PID` and
`LOAD_START` (R43). -/
theorem resetLeavesAnEmptyKernel : Obligations.ResetLeavesAnEmptyKernel := by
  rintro p _ rfl
  have hpid : (State.resetWith p).nextPid = 1001 := rfl
  have hcursor : (State.resetWith p).loadCursor = 0 := rfl
  exact ⟨rfl, rfl, rfl, hpid, hcursor, rfl, rfl, rfl, rfl, rfl, rfl⟩

/-! ### The next boot duty -/

/-- Before the start a step is the host's next boot duty (R362). -/
theorem step_of_notStarted {s : State} (hh : s.halted = none) (hk : s.cfg.ok = true) (hs : s.started = false) :
    step s = (bootAction s).finish := by
  rcases step_cases s with ⟨_, e, -⟩ | ⟨-, e, -⟩ | ⟨-, -, -, e⟩ | ⟨-, -, e, -⟩
  · cases hh.symm.trans e
  · cases hk.symm.trans e
  · exact e
  · cases hs.symm.trans e

/-- Devices come first, each with an empty open set (R362 step 2, R291). -/
theorem bootAction_of_device {s : State} {id : Int} {dev : Device} {ds : List (Int × Device)}
    (hd : s.boot.devices = (id, dev) :: ds) :
    bootAction s = .go () (({ s with boot := { s.boot with devices := ds } }).registerDevice id dev) := by
  simp only [bootAction, hd]

/-- Programs come after the devices, each with count 0 (R362 step 3, R47). -/
theorem bootAction_of_program {s : State} {P : Program} {Ps : List Program} (hd : s.boot.devices = [])
    (hp : s.boot.programs = P :: Ps) :
    bootAction s = .go () (({ s with boot := { s.boot with programs := Ps } }).registerProgram P) := by
  simp only [bootAction, hd, hp]

/-- Loads come after the programs (R362 step 4). -/
theorem bootAction_of_load {s : State} {P : Program} {Ps : List Program} (hd : s.boot.devices = [])
    (hp : s.boot.programs = []) (hl : s.boot.loads = P :: Ps) :
    bootAction s = createUserProcess P { s with boot := { s.boot with loads := Ps } } := by
  simp only [bootAction, hd, hp, hl]

/-- With nothing left in the plan the machine starts (R362 step 5). -/
theorem bootAction_of_empty {s : State} (h : s.boot = BootPlan.empty) : bootAction s = start s := by
  simp only [bootAction, h, BootPlan.empty]

/-! ### The load and the start -/

/-- A load is `createProcess` under the next id, which is refused only when it is the reserved one (R253, I8). -/
theorem createUserProcess_of_ne_idlePid {s : State} (P : Program) (hid : s.nextPid ≠ s.cfg.idlePid) :
    createUserProcess P s = createProcess P P.allocSize s.nextPid s := by
  simp [createUserProcess, hid]

/-- With a process to run the start only marks the machine started (R363). -/
theorem start_of_procs {s : State} (h : s.procs ≠ []) : start s = .go () { s with started := true } := by
  simp [start, h]

/-- With no process the start halts with `NoProcesses` (R363). -/
theorem start_of_no_procs {s : State} (h : s.procs = []) : start s = raise .noProcesses { s with started := true } := by
  simp [start, h]

/-- Settles O59: the step is the next boot duty, and the plan says which one that is. -/
theorem bootRegistersLoadsAndStarts : Obligations.BootRegistersLoadsAndStarts := by
  intro s hh hk hs
  have hstep := step_of_notStarted hh hk hs
  refine ⟨fun id dev ds hd => ?_, fun P Ps hd hp => ?_, fun P Ps hd hp hl hid => ?_, fun hb hprocs => ?_,
    fun hb hprocs => ?_⟩
  · rw [hstep, bootAction_of_device hd, finish_go, State.registerDevice]
  · rw [hstep, bootAction_of_program hd hp, finish_go, State.registerProgram]
  · rw [hstep, bootAction_of_load hd hp hl]
    exact congrArg Flow.finish (createUserProcess_of_ne_idlePid P hid)
  · rw [hstep, bootAction_of_empty hb, start_of_procs hprocs, finish_go]
  · rw [hstep, bootAction_of_empty hb, start_of_no_procs hprocs, finish_raise, State.halt, State.emit]

end Sys2Proof.Proofs
